-- ==== Sys2Proof/Word.lean ====
section
/-! DEFINITION. The word types of the hardware (spec/00_scope.md R8, R10, R11). -/

namespace Sys2Proof

/-- A 64-bit value: `VirtAddr`, `PhysAddr`, `PTEntry`, an operand or a result (R8: XLEN is 64). -/
abbrev Word := BitVec 64

/-- One byte of physical memory (R30). -/
abbrev Byte := BitVec 8

/-- The eight flags of an entry as one byte (R68). Bit 0 is Valid, bit 7 is Dirty. -/
abbrev FlagByte := BitVec 8

end Sys2Proof
end

