-- ==== Sys2Proof/Config.lean ====
section
/-! DEFINITION. What an implementation fixes and the values the spec leaves open: the levels, the open parameters of
spec/00_scope.md R9 as plain data, the fixed addresses, and the free values (constants with no body). -/

namespace Sys2Proof

/-- A level of the tree (R15, R8): 2 is the root, 0 the innermost. -/
inductive Level where
  | l0
  | l1
  | l2
deriving DecidableEq, Repr, Inhabited

/-- The level's number (R8: "numbered 2 (outermost, the root) to 0 (innermost)"). -/
def Level.num : Level → Nat
  | .l0 => 0
  | .l1 => 1
  | .l2 => 2

/-- The lowest bit of the virtual-address field that indexes a level's table (R13: `12 + 9*l`); also the number of
low bits a leaf at that level leaves to the address (R145). -/
def Level.shift (l : Level) : Nat := 12 + 9 * l.num

/-- A range of physical addresses that hold memory. -/
structure Region where
  base : Nat
  size : Nat
deriving DecidableEq, Repr, Inhabited

/-- The parameters that the spec leaves OPEN (R9, D14, D17, D29; the allocator of R182), as plain data. A state carries
one and no step writes it. DESIGN CHOICE (log 3): safe, since every statement holds for every platform. -/
structure Platform where
  /-- MEM_POPULATED (R47): the union of these ranges. -/
  populated : List Region
  /-- TLB_PRESENT (R27). -/
  tlbPresent : Bool
  /-- ROOT, the frame of the static root table (R188). -/
  root : Word
  /-- RAM_FLAGS (R188). -/
  ramFlags : FlagByte
  /-- DEV_BASE (R188). -/
  devBase : Word
  /-- DEV_SIZE in bytes (R9, R48). -/
  devSize : Nat
  /-- DEV_LEVEL (R188). -/
  devLevel : Level
  /-- DEV_FLAGS (R188). -/
  devFlags : FlagByte
  /-- The address-space id that bootstrap writes (R188, D29). -/
  bootAsid : BitVec 16
  /-- The host's frame allocators, numbered from 0: the frames each gives out, in order, before it is exhausted (R182,
  R183, U8). -/
  allocators : List (List Word)
deriving DecidableEq, Repr, Inhabited

/-- An entry of the translation cache (R27): the level of the cached leaf, the virtual-address bits
`va[38 : 12 + 9*lvl]` it covers (in 27 bits, those above the level's width zero), and the leaf word as it was read. -/
structure CacheEntry where
  lvl : Level
  tag : BitVec 27
  pte : Word
deriving DecidableEq, Repr, Inhabited

/-- One way the choices of an `XLATE` can fall (R160 `choose`, R164, R165, R166): the entries that `evict` removes,
which matching entry is used (a number past the last match means the miss alternative), and whether a walk that ended
at a leaf fills the cache. -/
structure Choice where
  evicted : List CacheEntry
  pick : Nat
  fill : Bool
deriving DecidableEq, Repr, Inhabited

namespace Config

/-- `MODE_BARE`: paging off (R24, D15). -/
def modeBare : BitVec 4 := 0#4

/-- `MODE_SV39`: Sv39 on (R24, D15). -/
def modeSv39 : BitVec 4 := 8#4

/-- `RAM_BASE` (R48, R188). -/
def ramBase : Word := 0x80000000#64

/-- Physical addresses are below this (R8: PA_BITS is 56). -/
def physLimit : Nat := 2 ^ 56

/-- FREE VALUE. The open parameters of the machine that `State.reset` describes (log 3). -/
opaque platform : Platform

/-- FREE VALUE. What a byte of physical memory holds that no host write has reached since power-on (R30, R241: an
unspecified value, not a fault; log 4). -/
opaque resetByte : Nat → Byte

/-- FREE VALUE. What the translation cache holds after the reset numbered by the draw counter (R29, R240; log 5). -/
opaque resetCache : Nat → List CacheEntry

/-- FREE VALUE. How the choices of the `XLATE` numbered by the draw counter fall (R160, R164 to R166; log 6). -/
opaque choice : Nat → Choice

/-- FREE VALUE. Whether the intermediate tables of a failed `MAP` stay (R186, U9; log 16). -/
opaque keepsOrphans : Nat → Bool

/-- FREE VALUE. The frames that the allocator of a number holds after `deallocate_frame` (R182: "no-op permitted"; U7;
log 17). -/
opaque deallocate : Nat → List Word → Word → List Word

end Config

end Sys2Proof
end

