-- ==== Sys2Proof/Syntax.lean ====
section
/-! DEFINITION. The syntax: commands, the 22 operations of spec/opcode_table.json, statuses and responses, and the
actions of the host (spec/30_encoding.md, spec/45_host_procedures.md). -/

namespace Sys2Proof

/-- A request (R60): the 16-bit control word and the two 64-bit operands. -/
structure Command where
  cw : BitVec 16
  a : Word
  b : Word
deriving DecidableEq, Repr, Inhabited

/-- The 22 operations (R64), each with the fields of the control word and the operands that it reads (R65). An operand
that an operation does not read is no part of it (R61; log 8). -/
inductive Instr where
  | vaTry (a : Word)
  | vaTrunc (a : Word)
  | vaUnsafe (a : Word)
  | vaVpn2 (a : Word)
  | vaVpn1 (a : Word)
  | vaVpn0 (a : Word)
  | vaOff (a : Word)
  | pteNew
  | pteSet (flags : FlagByte) (a : Word)
  | pteAddr (a : Word)
  | pteFlags (a : Word)
  | pteSetFlags (flags : FlagByte) (a : Word)
  | pteSetUnused (a : Word)
  | pteIsValid (a : Word)
  | pteIsLeaf (a : Word)
  | pteCheck (sel : BitVec 2) (a : Word)
  | ptRead (a b : Word)
  | walk (sel : BitVec 2) (a b : Word)
  | xlate (sel : BitVec 2) (a : Word)
  | pcrSet (a : Word)
  | pcrRead
  | tlbFlush
deriving DecidableEq, Repr, Inhabited

/-- The status codes (R63, R211). The block's port carries the first five only. -/
inductive Status where
  | ok
  | invalidAddress
  | unmapped
  | contractViolation
  | illegalCommand
  | frameAllocationFailed
  | parentEntryHugePage
  | pageAlreadyMapped
deriving DecidableEq, Repr, Inhabited

/-- The number of a status on the 3-bit port `st` (R63). -/
def Status.code : Status → BitVec 3
  | .ok => 0#3
  | .invalidAddress => 1#3
  | .unmapped => 2#3
  | .contractViolation => 3#3
  | .illegalCommand => 4#3
  | .frameAllocationFailed => 5#3
  | .parentEntryHugePage => 6#3
  | .pageAlreadyMapped => 7#3

/-- A response (R62): status and result. Also the outcome of the host's `MAP` (R63: one outcome type for both). -/
structure Response where
  st : Status
  res : Word
deriving DecidableEq, Repr, Inhabited

/-- What the host can do next (R16, R21): send a command, write memory, or run a procedure of
spec/45_host_procedures.md. -/
inductive HostAction where
  /-- Present a command on the request port (R23). -/
  | command (c : Command)
  /-- `MemWrite(addr, n, v)` on physical memory (R12, R42). -/
  | memWrite (addr : Word) (n : Nat) (v : Nat)
  /-- `PT.ZERO f` (R180). -/
  | ptZero (f : Word)
  /-- `PT.VALID_ENTRIES f` (R181). -/
  | validEntries (f : Word)
  /-- `MAP(root, page, frame, flags, level, alloc)` (R183); the allocator is named by its number (log 17). -/
  | map (root page frame : Word) (flags : FlagByte) (level : Level) (al : Nat)
  /-- `map_to(...)`: the same with the singleton root table (R183). Before `BOOT` it runs on that frame too (DESIGN
  CHOICE, log 27). -/
  | mapTo (page frame : Word) (flags : FlagByte) (level : Level) (al : Nat)
  /-- `deallocate_frame(f)` of an allocator (R182). -/
  | deallocate (al : Nat) (f : Word)
  /-- Mask (`true`) or unmask the processor's interrupts (R33, R187). -/
  | maskInterrupts (on : Bool)
  /-- `BOOT()` (R188). -/
  | boot
  /-- One `MAP` of bootstrap's step 2: an identity mapping under ROOT whose failure halts the host (R188, R189). -/
  | bootMap (page : Word) (flags : FlagByte) (level : Level)
  /-- The block's reset (R240). -/
  | reset
deriving DecidableEq, Repr, Inhabited

end Sys2Proof
end

