-- ==== Sys2Proof/WellFormed.lean ====
section
/-! DEFINITION. Which operations are legal: selector 3 is reserved (spec/30_encoding.md R75, R76). -/

namespace Sys2Proof

/-- The selector values that are not reserved (R75: "Value 3 makes the command illegal"). -/
def selLegal (sel : BitVec 2) : Bool := sel != 3#2

/-- An operation that some legal control word encodes (R76). All 256 flag values are legal (R74) and operands are any
64-bit values (R61), so only the selectors of the format-S operations are tested. -/
def WellFormed : Instr → Bool
  | .vaTry _ => true
  | .vaTrunc _ => true
  | .vaUnsafe _ => true
  | .vaVpn2 _ => true
  | .vaVpn1 _ => true
  | .vaVpn0 _ => true
  | .vaOff _ => true
  | .pteNew => true
  | .pteSet _ _ => true
  | .pteAddr _ => true
  | .pteFlags _ => true
  | .pteSetFlags _ _ => true
  | .pteSetUnused _ => true
  | .pteIsValid _ => true
  | .pteIsLeaf _ => true
  | .pteCheck sel _ => selLegal sel
  | .ptRead _ _ => true
  | .walk sel _ _ => selLegal sel
  | .xlate sel _ => selLegal sel
  | .pcrSet _ => true
  | .pcrRead => true
  | .tlbFlush => true

end Sys2Proof
end

