-- ==== Sys2Proof/Decode.lean ====
section
/-! DEFINITION. The decoder, the encoder and the opcode map (spec/30_encoding.md R60, R64, R65, R74 to R76). -/

namespace Sys2Proof

/-! ### Fields of the control word (R60) -/

/-- `cw[4:0]`. -/
def cwOp (cw : BitVec 16) : BitVec 5 := cw.extractLsb' 0 5

/-- `cw[6:5]`. -/
def cwSel (cw : BitVec 16) : BitVec 2 := cw.extractLsb' 5 2

/-- `cw[7]`, reserved. -/
def cwReserved (cw : BitVec 16) : BitVec 1 := cw.extractLsb' 7 1

/-- `cw[15:8]`. -/
def cwFlags (cw : BitVec 16) : FlagByte := cw.extractLsb' 8 8

/-- The control word with the given fields and a clear reserved bit (R60). -/
def cwOf (flags : FlagByte) (sel : BitVec 2) (op : BitVec 5) : BitVec 16 := flags ++ 0#1 ++ sel ++ op

/-! ### Decoding -/

/-- Why a control word is illegal (R76). All of them end the command with `ILLEGAL_COMMAND`. -/
inductive DecodeError where
  /-- `cw[7]` is 1. -/
  | reservedBitSet
  /-- `op` is 0x00 or 0x17 to 0x1F. -/
  | reservedOp
  /-- `flags` is not 0 and the operation is not of format F. -/
  | flagsNotZero
  /-- `sel` is not 0 and the operation is not of format S. -/
  | selNotZero
  /-- `sel` is 3 and the operation is of format S. -/
  | selReserved
deriving DecidableEq, Repr

/-- Format N (R60): `flags` and `sel` are 0. -/
def decodeN (flags : FlagByte) (sel : BitVec 2) (i : Instr) : Except DecodeError Instr :=
  if flags != 0#8 then .error .flagsNotZero
  else if sel != 0#2 then .error .selNotZero
  else .ok i

/-- Format F (R60): `flags` is an immediate, `sel` is 0. -/
def decodeF (sel : BitVec 2) (i : Instr) : Except DecodeError Instr :=
  if sel != 0#2 then .error .selNotZero else .ok i

/-- Format S (R60): `sel` is a selector other than 3, `flags` is 0. -/
def decodeS (flags : FlagByte) (sel : BitVec 2) (i : Instr) : Except DecodeError Instr :=
  if flags != 0#8 then .error .flagsNotZero
  else if sel == 3#2 then .error .selReserved
  else .ok i

/-- The operation that `op` selects (R64), with its operands assembled as R65 says. -/
def decodeOp (c : Command) : Except DecodeError Instr :=
  let flags := cwFlags c.cw
  let sel := cwSel c.cw
  match (cwOp c.cw).toNat with
  | 0x01 => decodeN flags sel (.vaTry c.a)
  | 0x02 => decodeN flags sel (.vaTrunc c.a)
  | 0x03 => decodeN flags sel (.vaUnsafe c.a)
  | 0x04 => decodeN flags sel (.vaVpn2 c.a)
  | 0x05 => decodeN flags sel (.vaVpn1 c.a)
  | 0x06 => decodeN flags sel (.vaVpn0 c.a)
  | 0x07 => decodeN flags sel (.vaOff c.a)
  | 0x08 => decodeN flags sel .pteNew
  | 0x09 => decodeF sel (.pteSet flags c.a)
  | 0x0A => decodeN flags sel (.pteAddr c.a)
  | 0x0B => decodeN flags sel (.pteFlags c.a)
  | 0x0C => decodeF sel (.pteSetFlags flags c.a)
  | 0x0D => decodeN flags sel (.pteSetUnused c.a)
  | 0x0E => decodeN flags sel (.pteIsValid c.a)
  | 0x0F => decodeN flags sel (.pteIsLeaf c.a)
  | 0x10 => decodeS flags sel (.pteCheck sel c.a)
  | 0x11 => decodeN flags sel (.ptRead c.a c.b)
  | 0x12 => decodeS flags sel (.walk sel c.a c.b)
  | 0x13 => decodeS flags sel (.xlate sel c.a)
  | 0x14 => decodeN flags sel (.pcrSet c.a)
  | 0x15 => decodeN flags sel .pcrRead
  | 0x16 => decodeN flags sel .tlbFlush
  | _ => .error .reservedOp

/-- The decoder: total, refusing every control word that R76 makes illegal. -/
def decode (c : Command) : Except DecodeError Instr :=
  if cwReserved c.cw != 0#1 then .error .reservedBitSet else decodeOp c

/-! ### Encoding -/

/-- The command of a well-formed operation (R64, R65). Operands that are not read are 0 (R61: ignored; log 8). -/
def encode : Instr → Command
  | .vaTry a => ⟨cwOf 0#8 0#2 0x01#5, a, 0#64⟩
  | .vaTrunc a => ⟨cwOf 0#8 0#2 0x02#5, a, 0#64⟩
  | .vaUnsafe a => ⟨cwOf 0#8 0#2 0x03#5, a, 0#64⟩
  | .vaVpn2 a => ⟨cwOf 0#8 0#2 0x04#5, a, 0#64⟩
  | .vaVpn1 a => ⟨cwOf 0#8 0#2 0x05#5, a, 0#64⟩
  | .vaVpn0 a => ⟨cwOf 0#8 0#2 0x06#5, a, 0#64⟩
  | .vaOff a => ⟨cwOf 0#8 0#2 0x07#5, a, 0#64⟩
  | .pteNew => ⟨cwOf 0#8 0#2 0x08#5, 0#64, 0#64⟩
  | .pteSet flags a => ⟨cwOf flags 0#2 0x09#5, a, 0#64⟩
  | .pteAddr a => ⟨cwOf 0#8 0#2 0x0A#5, a, 0#64⟩
  | .pteFlags a => ⟨cwOf 0#8 0#2 0x0B#5, a, 0#64⟩
  | .pteSetFlags flags a => ⟨cwOf flags 0#2 0x0C#5, a, 0#64⟩
  | .pteSetUnused a => ⟨cwOf 0#8 0#2 0x0D#5, a, 0#64⟩
  | .pteIsValid a => ⟨cwOf 0#8 0#2 0x0E#5, a, 0#64⟩
  | .pteIsLeaf a => ⟨cwOf 0#8 0#2 0x0F#5, a, 0#64⟩
  | .pteCheck sel a => ⟨cwOf 0#8 sel 0x10#5, a, 0#64⟩
  | .ptRead a b => ⟨cwOf 0#8 0#2 0x11#5, a, b⟩
  | .walk sel a b => ⟨cwOf 0#8 sel 0x12#5, a, b⟩
  | .xlate sel a => ⟨cwOf 0#8 sel 0x13#5, a, 0#64⟩
  | .pcrSet a => ⟨cwOf 0#8 0#2 0x14#5, a, 0#64⟩
  | .pcrRead => ⟨cwOf 0#8 0#2 0x15#5, 0#64, 0#64⟩
  | .tlbFlush => ⟨cwOf 0#8 0#2 0x16#5, 0#64, 0#64⟩

/-! ### The opcode map as rows (R64) -/

/-- The three formats (R60). -/
inductive Format where
  | N
  | F
  | S
deriving DecidableEq, Repr

/-- A row of the table of R64: a control word `w` selects it when `w &&& mask = value`. -/
structure OpcodeRow where
  mnemonic : String
  format : Format
  value : BitVec 16
  mask : BitVec 16
deriving DecidableEq, Repr

/-- The table of R64, row for row. -/
def opcodeTable : List OpcodeRow :=
  [⟨"VA.TRY", .N, 0x0001#16, 0xFFFF#16⟩, ⟨"VA.TRUNC", .N, 0x0002#16, 0xFFFF#16⟩,
   ⟨"VA.UNSAFE", .N, 0x0003#16, 0xFFFF#16⟩, ⟨"VA.VPN2", .N, 0x0004#16, 0xFFFF#16⟩,
   ⟨"VA.VPN1", .N, 0x0005#16, 0xFFFF#16⟩, ⟨"VA.VPN0", .N, 0x0006#16, 0xFFFF#16⟩,
   ⟨"VA.OFF", .N, 0x0007#16, 0xFFFF#16⟩, ⟨"PTE.NEW", .N, 0x0008#16, 0xFFFF#16⟩,
   ⟨"PTE.SET", .F, 0x0009#16, 0x00FF#16⟩, ⟨"PTE.ADDR", .N, 0x000A#16, 0xFFFF#16⟩,
   ⟨"PTE.FLAGS", .N, 0x000B#16, 0xFFFF#16⟩, ⟨"PTE.SETFLAGS", .F, 0x000C#16, 0x00FF#16⟩,
   ⟨"PTE.SETUNUSED", .N, 0x000D#16, 0xFFFF#16⟩, ⟨"PTE.ISVALID", .N, 0x000E#16, 0xFFFF#16⟩,
   ⟨"PTE.ISLEAF", .N, 0x000F#16, 0xFFFF#16⟩, ⟨"PTE.CHECK", .S, 0x0010#16, 0xFF9F#16⟩,
   ⟨"PT.READ", .N, 0x0011#16, 0xFFFF#16⟩, ⟨"WALK", .S, 0x0012#16, 0xFF9F#16⟩,
   ⟨"XLATE", .S, 0x0013#16, 0xFF9F#16⟩, ⟨"PCR.SET", .N, 0x0014#16, 0xFFFF#16⟩,
   ⟨"PCR.READ", .N, 0x0015#16, 0xFFFF#16⟩, ⟨"TLB.FLUSH", .N, 0x0016#16, 0xFFFF#16⟩]

/-- A control word selects a row (R64). -/
def OpcodeRow.selects (r : OpcodeRow) (w : BitVec 16) : Bool := w &&& r.mask == r.value

/-- The mnemonic of an operation's row (R64). -/
def Instr.mnemonic : Instr → String
  | .vaTry _ => "VA.TRY"
  | .vaTrunc _ => "VA.TRUNC"
  | .vaUnsafe _ => "VA.UNSAFE"
  | .vaVpn2 _ => "VA.VPN2"
  | .vaVpn1 _ => "VA.VPN1"
  | .vaVpn0 _ => "VA.VPN0"
  | .vaOff _ => "VA.OFF"
  | .pteNew => "PTE.NEW"
  | .pteSet _ _ => "PTE.SET"
  | .pteAddr _ => "PTE.ADDR"
  | .pteFlags _ => "PTE.FLAGS"
  | .pteSetFlags _ _ => "PTE.SETFLAGS"
  | .pteSetUnused _ => "PTE.SETUNUSED"
  | .pteIsValid _ => "PTE.ISVALID"
  | .pteIsLeaf _ => "PTE.ISLEAF"
  | .pteCheck _ _ => "PTE.CHECK"
  | .ptRead _ _ => "PT.READ"
  | .walk _ _ _ => "WALK"
  | .xlate _ _ => "XLATE"
  | .pcrSet _ => "PCR.SET"
  | .pcrRead => "PCR.READ"
  | .tlbFlush => "TLB.FLUSH"

/-! ### The host's numbering of an instruction's bits -/

/-- The command whose bits are `v`, the control word first: bits 15:0 are `cw`, bits 79:16 are `a`, bits 143:80 are
`b`. DESIGN CHOICE (log 9): a command is not stored in memory (R54), so the three ports are numbered in the order in
which R60 names them. -/
def commandOfBits (v : Nat) : Command :=
  ⟨BitVec.ofNat 16 v, BitVec.ofNat 64 (v >>> 16), BitVec.ofNat 64 (v >>> 80)⟩

/-- The operation the decoder reads from a command of which the first `nbits` bits are `w` and the rest are 0. -/
def decodeTableWord (nbits w : Nat) : Option Instr :=
  match decode (commandOfBits (w % 2 ^ nbits)) with
  | .ok i => some i
  | .error _ => none

end Sys2Proof
end

