-- ==== Sys2Proof/Machine/Operands.lean ====
section
/-! DEFINITION. The bit fields of the data formats and the operand forms: virtual addresses, frames, entry words, the
paging-control register (spec/00_scope.md R13, spec/30_encoding.md R66 to R72, spec/40_canonical_addr_validator.md
R100). -/

namespace Sys2Proof.Machine

/-! ### Virtual addresses -/

/-- `sext_39(v)` (R11): the low 39 bits with bit 38 copied into bits 63:39. -/
def sext39 (v : Word) : Word := (v.setWidth 39).signExtend 64

/-- `canon(v)` (R13): bits 63:39 all equal bit 38. -/
def canon (v : Word) : Bool :=
  v.extractLsb' 39 25 == (if v.getLsbD 38 then BitVec.allOnes 25 else 0#25)

/-- `vpn(v, l)` (R13, R141): the 9-bit index into a level-`l` table. -/
def vpn (v : Word) (l : Level) : BitVec 9 := v.extractLsb' l.shift 9

/-- `offset(v)` (R13). -/
def pageOffset (v : Word) : BitVec 12 := v.extractLsb' 0 12

/-- `low(v, l)` (R13), zero-extended to 64 bits: the address bits below the level's index. -/
def low (v : Word) (l : Level) : Word := (v.extractLsb' 0 l.shift).setWidth 64

/-- The tag of a cached leaf (R27): `v[38 : 12 + 9*l]`. -/
def tagOf (v : Word) (l : Level) : BitVec 27 := (v.extractLsb' l.shift (39 - l.shift)).setWidth 27

/-! ### Frames and entry words -/

/-- `frame_ok(f)` (R13): page-aligned and below 2^56. -/
def frameOk (f : Word) : Bool := f.extractLsb' 0 12 == 0#12 && f.extractLsb' 56 8 == 0#8

/-- `pte_addr(w)` (R13, R112): the frame address that an entry holds. -/
def pteAddr (w : Word) : Word := 0#8 ++ w.extractLsb' 10 44 ++ 0#12

/-- `pte_flags(w)` (R13, R113). -/
def pteFlags (w : Word) : FlagByte := w.extractLsb' 0 8

/-- The entry word of a frame and flags (R111, by the layout of R69; 90_conflicts.md C1). -/
def pteWord (frame : Word) (flags : FlagByte) : Word := 0#10 ++ frame.extractLsb' 12 44 ++ 0#2 ++ flags

/-- An entry word with other flags (R114, R115): bits 63:8 are kept. -/
def withFlags (w : Word) (flags : FlagByte) : Word := w.extractLsb' 8 56 ++ flags

/-- The address of entry `idx` of the table at `frame` (R49): `frame + 8*idx`. -/
def entryAddr (frame idx : Word) : Word := frame + 8#64 * idx

/-- The address of the entry for `va` in the level-`l` table at `frame` (R49, R141). -/
def slotAddr (frame va : Word) (l : Level) : Word := entryAddr frame ((vpn va l).setWidth 64)

/-- The address that a leaf `e` found at level `l` gives for `va` (R145, R147, R164): an addition, with no alignment
test of the frame. -/
def leafAddr (l : Level) (e va : Word) : Word := pteAddr e + low va l

/-! ### The paging-control register (R24) -/

/-- `PCR.mode`, bits 63:60. -/
def pcrMode (pcr : Word) : BitVec 4 := pcr.extractLsb' 60 4

/-- `PCR.asid`, bits 59:44. -/
def pcrAsid (pcr : Word) : BitVec 16 := pcr.extractLsb' 44 16

/-- `PCR.ppn`, bits 43:0. -/
def pcrPpn (pcr : Word) : BitVec 44 := pcr.extractLsb' 0 44

/-- The register value with the given fields (R24). -/
def pcrWord (mode : BitVec 4) (asid : BitVec 16) (ppn : BitVec 44) : Word := mode ++ asid ++ ppn

/-- The root frame the register names (R24, R160): `{8'b0, PCR.ppn, 12'b0}`. -/
def rootFrame (pcr : Word) : Word := 0#8 ++ pcrPpn pcr ++ 0#12

/-- The modes that the register may hold (R24, R161). -/
def modeLegal (mode : BitVec 4) : Bool := mode == Config.modeBare || mode == Config.modeSv39

/-! ### The constructor selector (R100) -/

/-- `construct(sel, raw)` (R100, R75): checked, truncating, unchecked; 3 is reserved. -/
def construct (sel : BitVec 2) (raw : Word) : Except Status Word :=
  if sel == 0#2 then (if canon raw then .ok raw else .error .invalidAddress)
  else if sel == 1#2 then .ok (sext39 raw)
  else if sel == 2#2 then .ok raw
  else .error .illegalCommand

end Sys2Proof.Machine
end

