-- ==== Sys2Proof/Machine/Flags.lean ====
section
/-! DEFINITION. The flags of a page-table entry and the tests made of them (spec/30_encoding.md R68,
spec/42_pte_permission_check.md). The block itself has no status flags or condition codes (spec/10_state.md R22). -/

namespace Sys2Proof.Machine

/-- `is_valid(w)` (R13, R130): Valid is bit 0. -/
def isValid (w : Word) : Bool := w.getLsbD 0

/-- `is_leaf(w)` (R13, R131): Valid and at least one of Readable, Writable, Executable. -/
def isLeaf (w : Word) : Bool := w.getLsbD 0 && (w.getLsbD 1 || w.getLsbD 2 || w.getLsbD 3)

/-- A pointer entry (R132): valid and no leaf. -/
def isPointer (w : Word) : Bool := isValid w && !isLeaf w

/-- The permission test (R133): a leaf whose flag for access kind `k` is set (bit `1 + k`: 0 read, 1 write,
2 execute). -/
def permits (k : BitVec 2) (w : Word) : Bool := isLeaf w && w.getLsbD (1 + k.toNat)

/-- `zext_1` of a test (R62): a Boolean result is zero-extended to 64 bits. -/
def boolWord (b : Bool) : Word := if b then 1#64 else 0#64

end Sys2Proof.Machine
end

