-- ==== Sys2Proof/Machine/Cache.lean ====
section
/-! DEFINITION. The translation cache as data and its operations (spec/10_state.md R27 to R29,
spec/44_translator_top.md R160, R163 to R166). -/

namespace Sys2Proof.Machine

/-- The cache: a finite set of entries, held as the list in which `cacheKey` strictly rises, so that equal sets are
equal data (R27; log 7). -/
abbrev Cache := List CacheEntry

/-- A well-formed entry (R27): the tag has the `27 - 9*lvl` bits of its level, and the word is a leaf. -/
def cacheEntryWf (e : CacheEntry) : Bool := decide (e.tag.toNat < 2 ^ (39 - e.lvl.shift)) && isLeaf e.pte

/-- The place of an entry in the list: level, then tag, then word. Distinct entries have distinct keys. -/
def cacheKey (e : CacheEntry) : Nat := e.lvl.num * 2 ^ 91 + e.tag.toNat * 2 ^ 64 + e.pte.toNat

/-- The canonical form of the cache: keys strictly rising, every entry well-formed. -/
abbrev cacheWf (c : Cache) : Prop :=
  c.Pairwise (fun e f => cacheKey e < cacheKey f) ∧ ∀ e ∈ c, cacheEntryWf e = true

/-- `tlb ∪ { e }` (R160). -/
def cacheInsert (e : CacheEntry) : Cache → Cache
  | [] => [e]
  | f :: c =>
    if cacheKey e < cacheKey f then e :: f :: c
    else if cacheKey e = cacheKey f then f :: c
    else f :: cacheInsert e c

/-- The set of the well-formed entries of a list (R29: "any finite set of well-formed entries"). -/
def cacheOfList : List CacheEntry → Cache
  | [] => []
  | e :: l => if cacheEntryWf e then cacheInsert e (cacheOfList l) else cacheOfList l

/-- An entry covers an address (R160, R164): its tag is `va[38 : 12 + 9*lvl]`. -/
def cacheMatches (va : Word) (e : CacheEntry) : Bool := e.tag == tagOf va e.lvl

/-- `evict()` (R166): the cache without the entries chosen. -/
def cacheEvict (ch : Choice) (c : Cache) : Cache := c.filter (fun e => !ch.evicted.contains e)

/-- The `hit` alternative (R160, R164): the matching entry that is chosen, or nothing, which is the miss. Every match
and the miss are the answer for some choice. -/
def cacheHit (ch : Choice) (va : Word) (c : Cache) : Option CacheEntry :=
  (c.filter (cacheMatches va))[ch.pick]?

end Sys2Proof.Machine
end

