-- ==== Sys2Proof/Machine/Memory.lean ====
section
/-! DEFINITION. Physical memory as data and its operations (spec/10_state.md R30, spec/20_memory.md R42, R47, R51). -/

namespace Sys2Proof.Machine

/-- Physical memory: the bytes that host writes have reached since power-on, addresses strictly rising (log 4). -/
abbrev Memory := List Host.Cell

/-- The canonical form: addresses strictly rising and below 2^56 (R30). An unlisted address has no value of its own (it
reads as the free value `Config.resetByte`), so no listed byte can equal it and a write never removes one (log 4). -/
abbrev Memory.wf (m : Memory) : Prop :=
  m.Pairwise (fun c d => c.1 < d.1) ∧ ∀ c ∈ m, c.1 < Config.physLimit

/-- The byte at a physical address (R51): the last one written, else the unspecified reset contents (R30, R241). -/
def memByte (m : Memory) (addr : Nat) : Byte := (m.lookup addr).getD (Config.resetByte addr)

/-- `MemRead(addr, 8)` (R42): little-endian. -/
def memRead8 (m : Memory) (addr : Nat) : Word :=
  memByte m (addr + 7) ++ memByte m (addr + 6) ++ memByte m (addr + 5) ++ memByte m (addr + 4) ++
    memByte m (addr + 3) ++ memByte m (addr + 2) ++ memByte m (addr + 1) ++ memByte m addr

/-- Consecutive bytes from an address on, as cells. -/
def cellsAt (addr : Nat) : List Byte → List Host.Cell
  | [] => []
  | b :: bs => (addr, b) :: cellsAt (addr + 1) bs

/-- Store consecutive bytes from an address on; every other byte stays. -/
def memWrite (m : Memory) (addr : Nat) (bytes : List Byte) : Memory :=
  m.filter (fun c => decide (c.1 < addr)) ++ cellsAt addr bytes ++
    m.filter (fun c => decide (addr + bytes.length ≤ c.1))

/-- The low `8n` bits of a value as `n` bytes, the least significant first (R12, R42). -/
def leBytes : Nat → Nat → List Byte
  | 0, _ => []
  | n + 1, v => BitVec.ofNat 8 v :: leBytes n (v / 256)

/-- `MemWrite(addr, 8, w)` (R42). -/
def memWrite8 (m : Memory) (addr : Nat) (w : Word) : Memory := memWrite m addr (leBytes 8 w.toNat)

/-- The 4096 bytes of a table, all zero (R180). That these are 512 entry writes of 0 is a statement of its own. -/
@[irreducible] def memZeroTable (m : Memory) (addr : Nat) : Memory := memWrite m addr (List.replicate 4096 0#8)

/-- `MEM_POPULATED(addr)` (R47). -/
def memPopulated (p : Platform) (addr : Nat) : Bool :=
  p.populated.any (fun r => decide (r.base ≤ addr) && decide (addr < r.base + r.size))

/-- The `n` bytes from `addr` on all exist: below 2^56 (R40) and memory (R47). The host's accesses need it (log 13). -/
def allPopulated (p : Platform) (addr n : Nat) : Bool :=
  decide (addr + n ≤ Config.physLimit) && (List.range n).all (fun i => memPopulated p (addr + i))

/-- The block's read of one entry (R47, R140, R143): nothing where the address holds no memory. -/
def readEntry (p : Platform) (m : Memory) (addr : Word) : Option Word :=
  if memPopulated p addr.toNat then some (memRead8 m addr.toNat) else none

end Sys2Proof.Machine
end

