-- ==== Sys2Proof/Machine/State.lean ====
section
/-! DEFINITION. The state of the machine, the reasons a step can stop, and the state after reset (spec/10_state.md). -/

namespace Sys2Proof.Machine

/-- The block, the memory it reads, the host that drives it, and the parameters of the machine. Plain data. -/
structure State where
  /-- The paging-control register `PCR` (R24). -/
  pcr : Word
  /-- The translation cache `tlb` (R27). -/
  tlb : Cache
  /-- Physical memory (R30). -/
  mem : Memory
  /-- The response port: the last response, if any (R23, R62). The MODEL's field (log 2). -/
  resp : Option Response
  /-- The open parameters (R9). No step writes it (log 3). -/
  platform : Platform
  /-- The host's actions still to do, the next one first (R21). The MODEL's field (log 1). -/
  program : List HostAction
  /-- The frame allocators' state: the frames each still gives out, by number (R33, R182, R183; log 17). -/
  allocs : List (List Word)
  /-- The processor's interrupt mask, as far as the host's calls of the Mapper need it (R33, R187; log 15). -/
  intMasked : Bool
  /-- `BOOT` has been started (R190; log 19). -/
  booted : Bool
  /-- The host has halted after a failed bootstrap (R189; log 19). -/
  halted : Bool
  /-- The outcome of the last `MAP`, if any (R184, R211). The MODEL's field (log 25). -/
  hostResp : Option Response
  /-- What the last `PT.VALID_ENTRIES` yielded (R181). The MODEL's field (log 25). -/
  listing : List (Nat × Word)
  /-- Numbers the free choices (R12 `choose`). The MODEL's field (log 6). -/
  draws : Nat
deriving DecidableEq, Repr

/-- Why the model stops with a fault. All are raised by the HOST's actions, where the spec gives no meaning; no
operation of the opcode table raises one (a failing operation answers with a status, R212). -/
inductive Fault where
  /-- Raised by `step` when the host has halted after a failed bootstrap (R189, U18: stuck). Safe. -/
  | hostHalted
  /-- Raised by a second `BOOT` (R190: "the spec gives it no meaning"). Safe. -/
  | secondBoot
  /-- Raised by a host read or write where the physical address space holds no memory (R180, R47; log 13). Safe. -/
  | hostNoMemory
  /-- Raised by a host procedure given a table frame that fails `frame_ok` (R180, R49; log 21). Safe. -/
  | badTableFrame
  /-- Raised by a host procedure that reaches a table whose frame is not mapped to itself while paging is on (R247,
  U12: stuck; log 14). Safe. -/
  | identityBroken
  /-- Raised by a Mapper call with interrupts unmasked (R187, R248; log 15). Safe. -/
  | mapperUnmasked
deriving DecidableEq, Repr

/-- Why the model has no meaning for an instruction. -/
inductive Refusal where
  /-- Raised by an arm of `exec` whose instruction has no meaning yet; no arm does. Safe. -/
  | notModelled (mnemonic : String)
deriving DecidableEq, Repr

/-- The machine of platform `p` right after reset (R34, R240): `PCR` is 0, the cache is any set of well-formed entries
where there is one (R29), nothing is known of memory (R30), and no command is in progress. The host has done nothing
and has nothing to do (logs 1, 2, 15, 17, 19, 25). -/
def State.resetOn (p : Platform) : State where
  pcr := 0#64
  tlb := if p.tlbPresent then cacheOfList (Config.resetCache 0) else []
  mem := []
  resp := none
  platform := p
  program := []
  allocs := p.allocators
  intMasked := true
  booted := false
  halted := false
  hostResp := none
  listing := []
  draws := 1

/-- The machine right after reset, whatever its open parameters are (log 3). -/
def State.reset : State := State.resetOn Config.platform

end Sys2Proof.Machine
end

