-- ==== Sys2Proof/Machine/Ops.lean ====
section
/-! DEFINITION. The named operations that the meanings share: ending a command with a result or with a status
(spec/00_scope.md R12, spec/60_exceptions.md R212), the paging-control register, the translation cache, the walk
(spec/43_pagetable_walker.md R143) and the block's reset (spec/70_reset_and_hazards.md R240). -/

namespace Sys2Proof.Machine

/-! ### Ending a command -/

/-- `return v` (R12): the response is `OK` with result `v`. -/
def State.answer (s : State) (v : Word) : State := { s with resp := some ⟨.ok, v⟩ }

/-- `raise S` (R12, R212): the response is the status with the filler 0 and no state of the block changes. This is what
the block has in place of taking an exception (R216); there is nothing to return from. -/
def State.raise (s : State) (st : Status) : State := { s with resp := some ⟨st, 0#64⟩ }

/-! ### The paging-control register -/

/-- `PCR <- v` (R161): all 64 bits at once. -/
def State.setPcr (s : State) (v : Word) : State := { s with pcr := v }

/-! ### The translation cache -/

/-- The cache as `XLATE` sees it (R27): empty where TLB_PRESENT is false (log 26). -/
def State.cache (s : State) : Cache := if s.platform.tlbPresent then s.tlb else []

/-- `tlb <- {}` (R163). -/
def State.flush (s : State) : State := { s with tlb := [] }

/-- `evict()` (R160, R166): only if TLB_PRESENT. -/
def State.evict (s : State) (ch : Choice) : State :=
  if s.platform.tlbPresent then { s with tlb := cacheEvict ch s.tlb } else s

/-- The fill after a walk that ended at leaf `e` at level `l` (R160, R165): done or not, only if TLB_PRESENT. -/
def State.fill (s : State) (ch : Choice) (va : Word) (l : Level) (e : Word) : State :=
  if s.platform.tlbPresent && ch.fill then { s with tlb := cacheInsert ⟨l, tagOf va l, e⟩ s.tlb } else s

/-- The next free choice will be another one (log 6). -/
def State.tick (s : State) : State := { s with draws := s.draws + 1 }

/-! ### The walk -/

/-- How a walk ends (R143, R144): at a leaf found at a level, with no covering leaf, or at a table address that holds
no memory. -/
inductive WalkResult where
  | leaf (l : Level) (e : Word)
  | unmapped
  | noMemory
deriving DecidableEq, Repr

/-- The walk's loop (R143) over the levels still to visit, `frame` being the table of the first. A pointer entry at the
last level ends it unmapped (R146). -/
def walkFrom (p : Platform) (m : Memory) (va : Word) : List Level → Word → WalkResult
  | [], _ => .unmapped
  | l :: ls, frame =>
    match readEntry p m (slotAddr frame va l) with
    | none => .noMemory
    | some e =>
      if !isValid e then .unmapped
      else if isLeaf e then .leaf l e
      else walkFrom p m va ls (pteAddr e)

/-- `walk(va, root)` (R143): levels 2, 1, 0. -/
def walk (p : Platform) (m : Memory) (va root : Word) : WalkResult := walkFrom p m va [.l2, .l1, .l0] root

/-- The response to a walk (R143, R145, R211). -/
def State.answerWalk (s : State) (va : Word) : WalkResult → State
  | .leaf l e => s.answer (leafAddr l e va)
  | .unmapped => s.raise .unmapped
  | .noMemory => s.raise .contractViolation

/-! ### Reset -/

/-- The block's reset (R240): `PCR` is 0, the cache holds unspecified entries, no response stands. Memory is not reset
by the block, and the host's own state is not the block's (log 11). -/
def State.resetBlock (s : State) : State :=
  { s with
    pcr := 0#64
    tlb := if s.platform.tlbPresent then cacheOfList (Config.resetCache s.draws) else []
    resp := none
    draws := s.draws + 1 }

end Sys2Proof.Machine
end

