-- ==== Sys2Proof/Machine/CanonicalAddr.lean ====
section
/-! DEFINITION. canonical_addr_validator: the seven address operations (spec/40_canonical_addr_validator.md). They read
their operand and nothing else. -/

namespace Sys2Proof.Machine

/-- `VA.TRY` (R91). -/
def execVaTry (a : Word) (s : State) : Host.Outcome State Fault Refusal :=
  .next (if canon a then s.answer a else s.raise .invalidAddress)

/-- `VA.TRUNC` (R92). -/
def execVaTrunc (a : Word) (s : State) : Host.Outcome State Fault Refusal :=
  .next (s.answer (sext39 a))

/-- `VA.UNSAFE` (R94): no test. -/
def execVaUnsafe (a : Word) (s : State) : Host.Outcome State Fault Refusal :=
  .next (s.answer a)

/-- `VA.VPN2` (R95). -/
def execVaVpn2 (a : Word) (s : State) : Host.Outcome State Fault Refusal :=
  .next (s.answer ((vpn a .l2).setWidth 64))

/-- `VA.VPN1` (R96). -/
def execVaVpn1 (a : Word) (s : State) : Host.Outcome State Fault Refusal :=
  .next (s.answer ((vpn a .l1).setWidth 64))

/-- `VA.VPN0` (R97). -/
def execVaVpn0 (a : Word) (s : State) : Host.Outcome State Fault Refusal :=
  .next (s.answer ((vpn a .l0).setWidth 64))

/-- `VA.OFF` (R98). -/
def execVaOff (a : Word) (s : State) : Host.Outcome State Fault Refusal :=
  .next (s.answer ((pageOffset a).setWidth 64))

end Sys2Proof.Machine
end

