-- ==== Sys2Proof/Machine/PtEntry.lean ====
section
/-! DEFINITION. ptentry_encoder_decoder: the six operations on entry words (spec/41_ptentry_encoder_decoder.md). None
of them stores the word it returns (spec/20_memory.md R44). -/

namespace Sys2Proof.Machine

/-- `PTE.NEW` (R110). -/
def execPteNew (s : State) : Host.Outcome State Fault Refusal :=
  .next (s.answer 0#64)

/-- `PTE.SET` (R111). -/
def execPteSet (flags : FlagByte) (a : Word) (s : State) : Host.Outcome State Fault Refusal :=
  .next (if frameOk a then s.answer (pteWord a flags) else s.raise .contractViolation)

/-- `PTE.ADDR` (R112): Valid is not tested. -/
def execPteAddr (a : Word) (s : State) : Host.Outcome State Fault Refusal :=
  .next (s.answer (pteAddr a))

/-- `PTE.FLAGS` (R113). -/
def execPteFlags (a : Word) (s : State) : Host.Outcome State Fault Refusal :=
  .next (s.answer ((pteFlags a).setWidth 64))

/-- `PTE.SETFLAGS` (R114, R70). -/
def execPteSetFlags (flags : FlagByte) (a : Word) (s : State) : Host.Outcome State Fault Refusal :=
  .next (s.answer (withFlags a flags))

/-- `PTE.SETUNUSED` (R115, R70). -/
def execPteSetUnused (a : Word) (s : State) : Host.Outcome State Fault Refusal :=
  .next (s.answer (withFlags a 0#8))

end Sys2Proof.Machine
end

