-- ==== Sys2Proof/Machine/PtePermission.lean ====
section
/-! DEFINITION. pte_permission_check: the three tests of an entry word (spec/42_pte_permission_check.md). -/

namespace Sys2Proof.Machine

/-- `PTE.ISVALID` (R130). -/
def execPteIsValid (a : Word) (s : State) : Host.Outcome State Fault Refusal :=
  .next (s.answer (boolWord (isValid a)))

/-- `PTE.ISLEAF` (R131). -/
def execPteIsLeaf (a : Word) (s : State) : Host.Outcome State Fault Refusal :=
  .next (s.answer (boolWord (isLeaf a)))

/-- `PTE.CHECK` (R133). -/
def execPteCheck (sel : BitVec 2) (a : Word) (s : State) : Host.Outcome State Fault Refusal :=
  .next (if sel == 3#2 then s.raise .illegalCommand else s.answer (boolWord (permits sel a)))

end Sys2Proof.Machine
end

