-- ==== Sys2Proof/Machine/Translator.lean ====
section
/-! DEFINITION. The top level: the register-rooted translation, the paging-control register and the translation cache
(spec/44_translator_top.md). -/

namespace Sys2Proof.Machine

/-- `XLATE`'s choice between hit and miss (R160), after the preconditions: eviction, then the hit that is chosen, or the
walk from the register's root and perhaps a fill. -/
def State.translate (s : State) (ch : Choice) (va : Word) : State :=
  let t := s.evict ch
  match cacheHit ch va t.cache with
  | some e => t.answer (leafAddr e.lvl e.pte va)
  | none =>
    match walk t.platform t.mem va (rootFrame t.pcr) with
    | .leaf l e => (t.fill ch va l e).answer (leafAddr l e va)
    | r => t.answerWalk va r

/-- `XLATE` (R160) for one way its choices can fall. -/
def State.xlate (s : State) (ch : Choice) (sel : BitVec 2) (a : Word) : State :=
  match construct sel a with
  | .error st => s.raise st
  | .ok va =>
    if pcrMode s.pcr != Config.modeSv39 then s.raise .contractViolation
    else s.translate ch va

/-- `XLATE` (R160): the choices are free values (log 6). -/
def execXlate (sel : BitVec 2) (a : Word) (s : State) : Host.Outcome State Fault Refusal :=
  .next (s.xlate (Config.choice s.draws) sel a).tick

/-- `PCR.SET` (R161): a mode other than 0 and 8 is refused and leaves the register; the cache is not touched. -/
def execPcrSet (a : Word) (s : State) : Host.Outcome State Fault Refusal :=
  .next (if modeLegal (pcrMode a) then (s.setPcr a).answer 0#64 else s.raise .contractViolation)

/-- `PCR.READ` (R162): the root frame number only. -/
def execPcrRead (s : State) : Host.Outcome State Fault Refusal :=
  .next (s.answer ((pcrPpn s.pcr).setWidth 64))

/-- `TLB.FLUSH` (R163). -/
def execTlbFlush (s : State) : Host.Outcome State Fault Refusal :=
  .next (s.flush.answer 0#64)

end Sys2Proof.Machine
end

