-- ==== Sys2Proof/Machine/Walker.lean ====
section
/-! DEFINITION. pagetable_walker: the table read and the walk from a given root (spec/43_pagetable_walker.md). They read
physical memory and no state of the block. -/

namespace Sys2Proof.Machine

/-- `PT.READ` (R140): the frame is tested before the index (R215), all 64 bits of the index are compared. -/
def execPtRead (a b : Word) (s : State) : Host.Outcome State Fault Refusal :=
  .next (
    if !frameOk a then s.raise .contractViolation
    else if decide (512 ≤ b.toNat) then s.raise .contractViolation
    else match readEntry s.platform s.mem (entryAddr a b) with
      | none => s.raise .contractViolation
      | some e => s.answer e)

/-- `WALK` (R142): selector, then address, then root frame, then the walk (R215). -/
def execWalk (sel : BitVec 2) (a b : Word) (s : State) : Host.Outcome State Fault Refusal :=
  .next (
    match construct sel a with
    | .error st => s.raise st
    | .ok va =>
      if !frameOk b then s.raise .contractViolation
      else s.answerWalk va (walk s.platform s.mem va b))

end Sys2Proof.Machine
end

