-- ==== Sys2Proof/Machine/Dispatch.lean ====
section
/-! DEFINITION. One arm per operation of spec/opcode_table.json. -/

namespace Sys2Proof.Machine

def exec (i : Instr) (s : State) : Host.Outcome State Fault Refusal :=
  match i with
  | .vaTry a => Sys2Proof.Machine.execVaTry a s
  | .vaTrunc a => Sys2Proof.Machine.execVaTrunc a s
  | .vaUnsafe a => Sys2Proof.Machine.execVaUnsafe a s
  | .vaVpn2 a => Sys2Proof.Machine.execVaVpn2 a s
  | .vaVpn1 a => Sys2Proof.Machine.execVaVpn1 a s
  | .vaVpn0 a => Sys2Proof.Machine.execVaVpn0 a s
  | .vaOff a => Sys2Proof.Machine.execVaOff a s
  | .pteNew => Sys2Proof.Machine.execPteNew s
  | .pteSet flags a => Sys2Proof.Machine.execPteSet flags a s
  | .pteAddr a => Sys2Proof.Machine.execPteAddr a s
  | .pteFlags a => Sys2Proof.Machine.execPteFlags a s
  | .pteSetFlags flags a => Sys2Proof.Machine.execPteSetFlags flags a s
  | .pteSetUnused a => Sys2Proof.Machine.execPteSetUnused a s
  | .pteIsValid a => Sys2Proof.Machine.execPteIsValid a s
  | .pteIsLeaf a => Sys2Proof.Machine.execPteIsLeaf a s
  | .pteCheck sel a => Sys2Proof.Machine.execPteCheck sel a s
  | .ptRead a b => Sys2Proof.Machine.execPtRead a b s
  | .walk sel a b => Sys2Proof.Machine.execWalk sel a b s
  | .xlate sel a => Sys2Proof.Machine.execXlate sel a s
  | .pcrSet a => Sys2Proof.Machine.execPcrSet a s
  | .pcrRead => Sys2Proof.Machine.execPcrRead s
  | .tlbFlush => Sys2Proof.Machine.execTlbFlush s

end Sys2Proof.Machine
end

