-- ==== Sys2Proof/Machine/HostProcedures.lean ====
section
/-! DEFINITION. The host: sending commands, writing memory, and the procedures of spec/45_host_procedures.md. Each
action is one step (log 12). -/

namespace Sys2Proof.Machine

/-! ### Commands -/

/-- The block receives a command (R60, R76, R215): an illegal control word ends it with `ILLEGAL_COMMAND` before any
operand is looked at, a legal one runs its operation. -/
def issue (c : Command) (s : State) : Host.Outcome State Fault Refusal :=
  match decode c with
  | .ok i => exec i s
  | .error _ => .next (s.raise .illegalCommand)

/-! ### The host's access to memory -/

/-- While paging is on, the address is mapped to itself (R53, R247). While it is off there is nothing to test. -/
def identityMapped (s : State) (addr : Word) : Bool :=
  if pcrMode s.pcr != Config.modeSv39 then true
  else canon addr &&
    match walk s.platform s.mem addr (rootFrame s.pcr) with
    | .leaf l e => leafAddr l e addr == addr
    | _ => false

/-- A host procedure may reach the `n` bytes at `addr` through a pointer: they are memory and mapped to themselves
(logs 13, 14). -/
def hostReach (s : State) (addr : Word) (n : Nat) : Except Fault Unit :=
  if !allPopulated s.platform addr.toNat n then .error .hostNoMemory
  else if !identityMapped s addr then .error .identityBroken
  else .ok ()

/-- `MemRead(slot, 8)` by a host procedure (R183). -/
def hostLoad (s : State) (slot : Word) : Except Fault Word :=
  match hostReach s slot 8 with
  | .error f => .error f
  | .ok _ => .ok (memRead8 s.mem slot.toNat)

/-- `MemWrite(slot, 8, w)` by a host procedure (R183). -/
def hostStore (s : State) (slot w : Word) : Except Fault State :=
  match hostReach s slot 8 with
  | .error f => .error f
  | .ok _ => .ok { s with mem := memWrite8 s.mem slot.toNat w }

/-- `MemWrite(addr, n, v)` on physical memory (R12, R42). -/
def hostWrite (addr : Word) (n v : Nat) (s : State) : Except Fault State :=
  if allPopulated s.platform addr.toNat n then
    .ok { s with mem := memWrite s.mem addr.toNat (leBytes n v) }
  else .error .hostNoMemory

/-! ### Whole-table procedures -/

/-- `PT.ZERO f` (R180; 90_conflicts.md C5). That the table is mapped to itself is tested once, before the first write, even
where the writes go to a table that this mapping itself goes through (DESIGN CHOICE, log 28). -/
def ptZero (f : Word) (s : State) : Except Fault State :=
  if !frameOk f then .error .badTableFrame
  else match hostReach s f 4096 with
    | .error x => .error x
    | .ok _ => .ok { s with mem := memZeroTable s.mem f.toNat }

/-- The valid entries of the table at `f` with their indices, ascending (R181). -/
def validEntriesOf (m : Memory) (f : Word) : List (Nat × Word) :=
  (List.range 512).filterMap fun i =>
    let e := memRead8 m (f.toNat + 8 * i)
    if isValid e then some (i, e) else none

/-- `PT.VALID_ENTRIES f` (R181): it writes nothing. -/
def ptValidEntries (f : Word) (s : State) : Except Fault State :=
  if !frameOk f then .error .badTableFrame
  else match hostReach s f 4096 with
    | .error x => .error x
    | .ok _ => .ok { s with listing := validEntriesOf s.mem f }

/-! ### The frame allocators -/

/-- The frames that allocator `al` still gives out (R182). A number that names none stands for the "perpetually-exhausted
stub" of R182 (log 17). -/
def State.allocator (s : State) (al : Nat) : List Word := s.allocs.getD al []

/-- Allocator `al` now holds the frames `fs`; the others stay. The stub of R182 stays exhausted. -/
def State.setAllocator (s : State) (al : Nat) (fs : List Word) : State := { s with allocs := s.allocs.set al fs }

/-- `deallocate_frame(f)` of allocator `al` (R182). -/
def deallocateFrame (al : Nat) (f : Word) (s : State) : State :=
  s.setAllocator al (Config.deallocate al (s.allocator al) f)

/-! ### The Mapper -/

/-- The target of a `MAP` (R183, R184, R185): a valid entry is left as it is and named; otherwise the leaf is written by
`PTE.SET`, which refuses a frame that fails `frame_ok` (log 20). -/
def mapTarget (page frame : Word) (flags : FlagByte) (level : Level) (cur : Word) (s : State) :
    Except Fault (Response × State) :=
  match hostLoad s (slotAddr cur page level) with
  | .error x => .error x
  | .ok e =>
    if isValid e then .ok (⟨.pageAlreadyMapped, pteAddr e⟩, s)
    else if !frameOk frame then .ok (⟨.contractViolation, 0#64⟩, s)
    else match hostStore s (slotAddr cur page level) (pteWord frame flags) with
      | .error x => .error x
      | .ok s' => .ok (⟨.ok, 0#64⟩, s')

/-- Take back one intermediate table that a failing `MAP` installed (R186, U9: "track and free orphaned intermediate
frames on failure"): the slot holds its old word again and the frame goes back to the allocator (log 16). -/
def undoGrow (al : Nat) (slot old f : Word) (s : State) : State :=
  deallocateFrame al f { s with mem := memWrite8 s.mem slot.toNat old }

/-- The descent of a `MAP` through the levels strictly above its target (R183; 90_conflicts.md C3, C4): an invalid
entry grows the tree by a zeroed frame of allocator `al`, a leaf ends the call, a pointer is followed. `keep` says
whether a failing call leaves the tables it installed (R186, U9). -/
def mapDown (keep : Bool) (page frame : Word) (flags : FlagByte) (level : Level) (al : Nat) :
    List Level → Word → State → Except Fault (Response × State)
  | [], cur, s => mapTarget page frame flags level cur s
  | l :: ls, cur, s =>
    match hostLoad s (slotAddr cur page l) with
    | .error x => .error x
    | .ok e =>
      if isLeaf e then .ok (⟨.parentEntryHugePage, 0#64⟩, s)
      else if isValid e then mapDown keep page frame flags level al ls (pteAddr e) s
      else match s.allocator al with
        | [] => .ok (⟨.frameAllocationFailed, 0#64⟩, s)
        | f :: fs =>
          match ptZero f (s.setAllocator al fs) with
          | .error x => .error x
          | .ok s1 =>
            match hostStore s1 (slotAddr cur page l) (pteWord f 1#8) with
            | .error x => .error x
            | .ok s2 =>
              match mapDown keep page frame flags level al ls (pteAddr (pteWord f 1#8)) s2 with
              | .error x => .error x
              | .ok (r, s3) =>
                .ok (r, if r.st == .ok || keep then s3 else undoGrow al (slotAddr cur page l) e f s3)

/-- The levels strictly above a target level, from the root down (R183). -/
def levelsAbove : Level → List Level
  | .l2 => []
  | .l1 => [.l2]
  | .l0 => [.l2, .l1]

/-- `MAP(root, page, frame, flags, level, alloc)` (R183): its outcome and the host's state after it. Interrupts must be
masked (R187; log 15). -/
def mapCall (keep : Bool) (root page frame : Word) (flags : FlagByte) (level : Level) (al : Nat) (s : State) :
    Except Fault (Response × State) :=
  if !s.intMasked then .error .mapperUnmasked
  else if !frameOk root then .error .badTableFrame
  else mapDown keep page frame flags level al (levelsAbove level) root s

/-- `MAP` as an action: the outcome is kept for the host to read (log 25). -/
def runMap (root page frame : Word) (flags : FlagByte) (level : Level) (al : Nat) (s : State) : Except Fault State :=
  match mapCall (Config.keepsOrphans s.draws) root page frame flags level al s with
  | .error x => .error x
  | .ok (r, s') => .ok { s' with hostResp := some r, draws := s.draws + 1 }

/-! ### Bootstrap -/

/-- How many pages of its level the device region takes, at least one (R188; log 18). -/
def devPages (p : Platform) : Nat :=
  Nat.max 1 ((p.devSize + 2 ^ p.devLevel.shift - 1) / 2 ^ p.devLevel.shift)

/-- The mappings of the device-register region (R188): identity mappings, one for each page. -/
def devMaps (p : Platform) : List HostAction :=
  (List.range (devPages p)).map fun k =>
    .bootMap (p.devBase + BitVec.ofNat 64 (k * 2 ^ p.devLevel.shift)) p.devFlags p.devLevel

/-- The register value that bootstrap's step 3 writes (R188): `{ MODE_SV39, asid, ROOT >> 12 }`. -/
def bootPcr (p : Platform) : Word := pcrWord Config.modeSv39 p.bootAsid ((p.root >>> 12).setWidth 44)

/-- The steps of `BOOT` in their fixed order (R188, R244). -/
def bootScript (p : Platform) : List HostAction :=
  .ptZero p.root :: .bootMap Config.ramBase p.ramFlags .l2 ::
    (devMaps p ++ [.command (encode (.pcrSet (bootPcr p))), .command (encode .tlbFlush)])

/-- `BOOT()` (R188): its steps come next. It runs once (R190). -/
def boot (s : State) : Except Fault State :=
  if s.booted then .error .secondBoot
  else .ok { s with booted := true, program := bootScript s.platform ++ s.program }

/-- One `MAP` of bootstrap's step 2 (R188), with allocator 0 (log 17): an outcome other than `OK` halts the host (R189). -/
def bootMap (page : Word) (flags : FlagByte) (level : Level) (s : State) : Except Fault State :=
  match runMap s.platform.root page page flags level 0 s with
  | .error x => .error x
  | .ok s' => .ok (if s'.hostResp == some ⟨.ok, 0#64⟩ then s' else { s' with halted := true })

/-! ### The host's next action -/

/-- A host procedure's end as an outcome of the step. -/
def ofHost : Except Fault State → Host.Outcome State Fault Refusal
  | .ok s => .next s
  | .error f => .fault f

/-- What one action of the host does (R16). `map_to` uses the platform's root table whether or not `BOOT` has been started
(DESIGN CHOICE, log 27). -/
def runAction (act : HostAction) (s : State) : Host.Outcome State Fault Refusal :=
  match act with
  | .command c => issue c s
  | .memWrite addr n v => ofHost (hostWrite addr n v s)
  | .ptZero f => ofHost (ptZero f s)
  | .validEntries f => ofHost (ptValidEntries f s)
  | .map root page frame flags level al => ofHost (runMap root page frame flags level al s)
  | .mapTo page frame flags level al => ofHost (runMap s.platform.root page frame flags level al s)
  | .deallocate al f => .next (deallocateFrame al f s)
  | .maskInterrupts on => .next { s with intMasked := on }
  | .boot => ofHost (boot s)
  | .bootMap page flags level => ofHost (bootMap page flags level s)
  | .reset => .next s.resetBlock

/-- The host's turn: it has halted (R189), has nothing to do, or does its next action (R16, R21, R253). -/
def hostTurn (s : State) : Host.Outcome State Fault Refusal :=
  if s.halted then .fault .hostHalted
  else match s.program with
    | [] => .next s
    | act :: rest => runAction act { s with program := rest }

end Sys2Proof.Machine
end

