-- ==== Sys2Proof/Machine/Step.lean ====
section
/-! DEFINITION. One step of the machine: the host's next action, most often a command to the block. -/

namespace Sys2Proof.Machine

/-- One step (R16, R253): one action at a time, each atomic. -/
def step (s : State) : Host.Outcome State Fault Refusal := hostTurn s

/-- `s` with the command whose first `nbits` bits are `w`, and whose other bits are 0, as the host's next action, so
that the next step decodes and runs it (log 1, log 9). A halted host would present nothing, so it is not halted. -/
def State.withFetchWord (s : State) (nbits w : Nat) : State :=
  { s with program := .command (commandOfBits (w % 2 ^ nbits)) :: s.program, halted := false }

end Sys2Proof.Machine
end

