-- ==== Sys2Proof/Safety.lean ====
section
/-! DEFINITION. What a run that has not gone wrong is, the invariant of the machine, and when the cache can be relied
on (spec/60_exceptions.md R213, spec/44_translator_top.md R167). -/

namespace Sys2Proof.Machine

/-- The statuses that mean a run has gone wrong (R213): `CONTRACT_VIOLATION` and `ILLEGAL_COMMAND`. `UNMAPPED` is a
value and `INVALID_ADDRESS` an error result that the caller handles. -/
def wentWrong : Status → Bool
  | .ok => false
  | .invalidAddress => false
  | .unmapped => false
  | .contractViolation => true
  | .illegalCommand => true
  | .frameAllocationFailed => false
  | .parentEntryHugePage => false
  | .pageAlreadyMapped => false

/-- Nothing that stands says that the run has gone wrong (R213): neither the block's last response nor the outcome of the
host's last `MAP`, which may be a `CONTRACT_VIOLATION` too (R185; log 20). -/
def State.sound (s : State) : Prop :=
  (∀ r, s.resp = some r → wentWrong r.st = false) ∧ ∀ r, s.hostResp = some r → wentWrong r.st = false

/-- `k` steps from `s` all answer next states, and no response or outcome of a `MAP` on the way says that the run has
gone wrong (R213). -/
def SafeRun : Nat → State → Prop
  | 0, s => s.sound
  | k + 1, s => s.sound ∧ ∃ t, step s = .next t ∧ SafeRun k t

/-- What every step keeps: the mode is legal (R25), memory and the cache have their canonical forms (R30, R27), and there
is no cache entry where there is no cache (R27). -/
def State.Inv (s : State) : Prop :=
  modeLegal (pcrMode s.pcr) = true ∧ Memory.wf s.mem ∧ cacheWf s.tlb ∧ (s.platform.tlbPresent = false → s.tlb = [])

/-- Every cache entry is what a walk from the register's root finds now, for every address the entry covers (R167:
"every entry in `tlb` was filled from memory as it still is, under the root that is still in force"). -/
def State.Coherent (s : State) : Prop :=
  ∀ e ∈ s.cache, ∀ va, cacheMatches va e = true →
    walk s.platform s.mem va (rootFrame s.pcr) = .leaf e.lvl e.pte

/-! ### Terms that statements about walks and tables use -/

/-- Memory holds the entry word `e` at the physical address `addr`. -/
def State.holds (s : State) (addr : Nat) (e : Word) : Prop :=
  memPopulated s.platform addr = true ∧ memRead8 s.mem addr = e

/-- The physical addresses of the entries that a walk from `frame` reads, in the order of the reads (R149). -/
def readsFrom (p : Platform) (m : Memory) (va : Word) : List Level → Word → List Nat
  | [], _ => []
  | l :: ls, frame =>
    match readEntry p m (slotAddr frame va l) with
    | none => []
    | some e =>
      (slotAddr frame va l).toNat :: (if isPointer e then readsFrom p m va ls (pteAddr e) else [])

/-- The frames of the tables that a walk from `frame` indexes, `frame` first. -/
def tablesFrom (p : Platform) (m : Memory) (va : Word) : List Level → Word → List Word
  | [], _ => []
  | l :: ls, frame =>
    frame :: (match readEntry p m (slotAddr frame va l) with
      | none => []
      | some e => if isPointer e then tablesFrom p m va ls (pteAddr e) else [])

/-- Allocator `al` gives out no frame twice and none that is a table on the path of `page` (R182: "not be in use as any
other table": a named premise about the allocator). -/
def State.freshFrames (s : State) (al : Nat) (root page : Word) : Prop :=
  (s.allocator al).Nodup ∧ ∀ f ∈ s.allocator al, f ∉ tablesFrom s.platform s.mem page [.l2, .l1, .l0] root

/-- Flags that make a leaf (R69, R132). -/
def leafFlags (flags : FlagByte) : Bool :=
  flags.getLsbD 0 && (flags.getLsbD 1 || flags.getLsbD 2 || flags.getLsbD 3)

/-- A host action that changes no byte of memory and not `PCR`, so that what the cache was filled from stays as it is
(R167: "no host write to any page-table memory and no `PCR.SET`"). -/
def keepsTables : HostAction → Bool
  | .command c =>
    match decode c with
    | .ok (.pcrSet _) => false
    | _ => true
  | .memWrite _ _ _ => false
  | .ptZero _ => false
  | .validEntries _ => true
  | .map _ _ _ _ _ _ => false
  | .mapTo _ _ _ _ _ => false
  | .deallocate _ _ => true
  | .maskInterrupts _ => true
  | .boot => true
  | .bootMap _ _ _ => false
  | .reset => false

end Sys2Proof.Machine
end

