-- ==== Sys2Proof/Certificates/Slice0/Obligations.lean ====
section
/-! DEFINITION. The statements for the provers. Each docstring names the rule of spec/ it formalises. -/

open Sys2Proof Sys2Proof.Machine

/-! ### Encoding -/

/-- R64, R65: decoding the command of a well-formed operation gives the operation back, every operand, flag byte and
selector at every value. -/
def Obligations.DecodeEncodeRoundTrip : Prop :=
  ∀ i : Instr, WellFormed i = true → decode (encode i) = .ok i

/-- R60, R64, R76: what the decoder reads is well-formed and encodes to the same control word, so no bit of a legal
control word is dropped. -/
def Obligations.DecodedOperationReencodesToItsWord : Prop :=
  ∀ (c : Command) (i : Instr), decode c = .ok i → WellFormed i = true ∧ (encode i).cw = c.cw

/-- R76, "Equivalently": a control word is legal exactly when it matches a row of R64 and is no format-S word with
selector 3; the row is the operation's own. -/
def Obligations.LegalWordsAreTheTableRows : Prop :=
  ∀ c : Command,
    ((∃ i, decode c = .ok i) ↔
      ∃ r ∈ opcodeTable, r.selects c.cw = true ∧ (r.format = .S → cwSel c.cw ≠ 3#2)) ∧
    ∀ i, decode c = .ok i → ∃ r ∈ opcodeTable, r.selects c.cw = true ∧ r.mnemonic = i.mnemonic

/-- R64: "No two rows match the same control word". -/
def Obligations.NoControlWordMatchesTwoRows : Prop :=
  ∀ (w : BitVec 16), ∀ r ∈ opcodeTable, ∀ q ∈ opcodeTable, r.selects w = true → q.selects w = true → r = q

/-- R76: "Of the 65536 control words, 17 + 2*256 + 3*3 = 538 are legal". -/
def Obligations.LegalControlWordsNumber538 : Prop :=
  ((List.range 65536).filter fun w => (decodeTableWord 16 w).isSome).length = 538

/-- R61, R65: an operand that the operation does not read is ignored. -/
def Obligations.UnreadOperandsAreIgnored : Prop :=
  ∀ (cw : BitVec 16) (a a' b b' : Word),
    (cwOp cw ≠ 0x11#5 → cwOp cw ≠ 0x12#5 → decode ⟨cw, a, b⟩ = decode ⟨cw, a, b'⟩) ∧
    (cwOp cw = 0x08#5 ∨ cwOp cw = 0x15#5 ∨ cwOp cw = 0x16#5 → decode ⟨cw, a, b⟩ = decode ⟨cw, a', b'⟩)

/-- R64, and the tables V2, V5, V6 of spec/95_test_vectors.md: control words written out there decode to the operations
they stand for. -/
def Obligations.SampleWordsDecode : Prop :=
  decode ⟨0b0000000000000001#16, 5#64, 6#64⟩ = .ok (.vaTry 5#64) ∧
  decode ⟨0b0000111100001001#16, 5#64, 6#64⟩ = .ok (.pteSet 0x0F#8 5#64) ∧
  decode ⟨0b1111111100001100#16, 5#64, 6#64⟩ = .ok (.pteSetFlags 0xFF#8 5#64) ∧
  decode ⟨0b0000000001010000#16, 5#64, 6#64⟩ = .ok (.pteCheck 2#2 5#64) ∧
  decode ⟨0b0000000000010001#16, 5#64, 6#64⟩ = .ok (.ptRead 5#64 6#64) ∧
  decode ⟨0b0000000000110010#16, 5#64, 6#64⟩ = .ok (.walk 1#2 5#64 6#64) ∧
  decode ⟨0b0000000001010011#16, 5#64, 6#64⟩ = .ok (.xlate 2#2 5#64) ∧
  decode ⟨0b0000000000010100#16, 5#64, 6#64⟩ = .ok (.pcrSet 5#64) ∧
  decode ⟨0b0000000000010110#16, 5#64, 6#64⟩ = .ok .tlbFlush

/-! ### Steps and commands as a whole -/

/-- R16, R23: when the host's next action is a command whose control word is legal, the step is `exec` of the operation,
with the action taken off the host's list. That the actions stand in State is the model's choice (log 1). -/
def Obligations.StepRunsTheDecodedOperation : Prop :=
  ∀ (s : State) (c : Command) (rest : List HostAction) (i : Instr),
    s.halted = false → s.program = .command c :: rest → decode c = .ok i →
      step s = exec i { s with program := rest }

/-- R76: an illegal control word ends with `ILLEGAL_COMMAND`, result 0, and no state change. -/
def Obligations.IllegalWordChangesNothing : Prop :=
  ∀ (s : State) (c : Command) (rest : List HostAction),
    s.halted = false → s.program = .command c :: rest → (∀ i, decode c ≠ .ok i) →
      step s = .next { s with program := rest, resp := some ⟨.illegalCommand, 0#64⟩ }

/-- R62, R63: every operation gives one response; its status is one of the codes 0 to 4, and where it is not `OK` the
result is 0. -/
def Obligations.EveryOperationAnswersWithABlockStatus : Prop :=
  ∀ (i : Instr) (s : State), ∃ t r, exec i s = .next t ∧ t.resp = some r ∧
    r.st.code.toNat ≤ 4 ∧ (r.st ≠ .ok → r.res = 0#64)

/-- R211: the operations that can end only with `OK`; where the host's last `MAP` was no violation, the state is then
sound (R213). -/
def Obligations.OperationsThatEndOnlyWithOk : Prop :=
  ∀ (i : Instr) (s : State),
    i.mnemonic ∈ ["VA.TRUNC", "VA.UNSAFE", "VA.VPN2", "VA.VPN1", "VA.VPN0", "VA.OFF", "PTE.NEW", "PTE.ADDR", "PTE.FLAGS",
      "PTE.SETFLAGS", "PTE.SETUNUSED", "PTE.ISVALID", "PTE.ISLEAF", "PCR.READ", "TLB.FLUSH"] →
    ∃ t v, exec i s = .next t ∧ t.resp = some ⟨.ok, v⟩ ∧
      ((∀ r, s.hostResp = some r → wentWrong r.st = false) → t.sound)

/-- R44: no operation writes memory. -/
def Obligations.BlockNeverWritesMemory : Prop :=
  ∀ (i : Instr) (s t : State), exec i s = .next t →
    t.mem = s.mem ∧ ∀ addr, memByte t.mem addr = memByte s.mem addr

/-- R25, R28, R44: the frame of the 22 operations. Only `PCR.SET` writes `PCR`; only `XLATE` and `TLB.FLUSH` write the
cache; none writes memory or the host's state. (`draws`, the model's own counter, moves with `XLATE` only, log 6.) -/
def Obligations.OperationFrame : Prop :=
  ∀ (i : Instr) (s t : State), exec i s = .next t →
    (∀ addr, memByte t.mem addr = memByte s.mem addr) ∧
    ((∀ a, i ≠ .pcrSet a) → t.pcr = s.pcr) ∧
    ((∀ sel a, i ≠ .xlate sel a) → i ≠ .tlbFlush → t.tlb = s.tlb) ∧
    ((∀ sel a, i ≠ .xlate sel a) → t.draws = s.draws) ∧
    t.platform = s.platform ∧ t.program = s.program ∧ t.allocs = s.allocs ∧ t.intMasked = s.intMasked ∧
    t.booted = s.booted ∧ t.halted = s.halted ∧ t.hostResp = s.hostResp ∧ t.listing = s.listing

/-- R212: an operation that ends with another status than `OK` changes neither `PCR` nor memory, gives result 0, and
leaves the cache alone, but for entries that `XLATE`'s eviction removed. -/
def Obligations.FailedOperationChangesNoBlockState : Prop :=
  ∀ (i : Instr) (s t : State) (r : Response), exec i s = .next t → t.resp = some r → r.st ≠ .ok →
    r.res = 0#64 ∧ t.pcr = s.pcr ∧ t.mem = s.mem ∧ (∀ e ∈ t.tlb, e ∈ s.tlb) ∧
    ((∀ sel a, i ≠ .xlate sel a) → t.tlb = s.tlb)

/-! ### canonical_addr_validator -/

/-- R91: `VA.TRY` returns its operand when bits 63:39 all equal bit 38, and otherwise raises `INVALID_ADDRESS`. -/
def Obligations.VaTryAcceptsExactlyTheCanonical : Prop :=
  ∀ (a b : Word) (s : State),
    decode ⟨0x0001#16, a, b⟩ = .ok (.vaTry a) ∧
    ((∀ k, 39 ≤ k → k < 64 → a.getLsbD k = a.getLsbD 38) →
      exec (.vaTry a) s = .next { s with resp := some ⟨.ok, a⟩ }) ∧
    ((∃ k, 39 ≤ k ∧ k < 64 ∧ a.getLsbD k ≠ a.getLsbD 38) →
      exec (.vaTry a) s = .next { s with resp := some ⟨.invalidAddress, 0#64⟩ })

/-- R92: `VA.TRUNC` never fails; bits 38:0 of the result are the operand's, bits 63:39 copy its bit 38; a canonical
operand is returned unchanged. -/
def Obligations.VaTruncReplicatesBit38 : Prop :=
  ∀ (a b : Word) (s : State),
    decode ⟨0x0002#16, a, b⟩ = .ok (.vaTrunc a) ∧
    ∃ r : Word, exec (.vaTrunc a) s = .next { s with resp := some ⟨.ok, r⟩ } ∧
      (∀ k, k < 39 → r.getLsbD k = a.getLsbD k) ∧ (∀ k, 39 ≤ k → k < 64 → r.getLsbD k = a.getLsbD 38) ∧
      ((∀ k, 39 ≤ k → k < 64 → a.getLsbD k = a.getLsbD 38) → r = a)

/-- R94: `VA.UNSAFE` returns its operand, whatever it is. -/
def Obligations.VaUnsafePassesThrough : Prop :=
  ∀ (a b : Word) (s : State),
    decode ⟨0x0003#16, a, b⟩ = .ok (.vaUnsafe a) ∧
    exec (.vaUnsafe a) s = .next { s with resp := some ⟨.ok, a⟩ }

/-- R95 to R98: the extractors return bits 38:30, 29:21, 20:12 and 11:0, zero-extended. -/
def Obligations.VaFieldExtractors : Prop :=
  ∀ (a b : Word) (s : State),
    decode ⟨0x0004#16, a, b⟩ = .ok (.vaVpn2 a) ∧ decode ⟨0x0005#16, a, b⟩ = .ok (.vaVpn1 a) ∧
    decode ⟨0x0006#16, a, b⟩ = .ok (.vaVpn0 a) ∧ decode ⟨0x0007#16, a, b⟩ = .ok (.vaOff a) ∧
    exec (.vaVpn2 a) s = .next { s with resp := some ⟨.ok, BitVec.ofNat 64 (a.toNat / 2 ^ 30 % 512)⟩ } ∧
    exec (.vaVpn1 a) s = .next { s with resp := some ⟨.ok, BitVec.ofNat 64 (a.toNat / 2 ^ 21 % 512)⟩ } ∧
    exec (.vaVpn0 a) s = .next { s with resp := some ⟨.ok, BitVec.ofNat 64 (a.toNat / 2 ^ 12 % 512)⟩ } ∧
    exec (.vaOff a) s = .next { s with resp := some ⟨.ok, BitVec.ofNat 64 (a.toNat % 4096)⟩ }

/-- The law of table V1 (spec/95_test_vectors.md): the four fields put together are bits 38:0 of the address. -/
def Obligations.VaFieldsReassembleTheAddress : Prop :=
  ∀ v : Word, (((vpn v .l2).setWidth 64 <<< 30) ||| ((vpn v .l1).setWidth 64 <<< 21) |||
    ((vpn v .l0).setWidth 64 <<< 12) ||| ((pageOffset v).setWidth 64) : Word) = (v.setWidth 39).setWidth 64

/-- R14 (b), (c): truncation is idempotent and gives a canonical address; an address is canonical exactly when
truncation leaves it, and exactly when it lies in the low or the high 2^38 addresses. -/
def Obligations.CanonicalAddressesAreTheTwoHalves : Prop :=
  ∀ v : Word, sext39 (sext39 v) = sext39 v ∧ canon (sext39 v) = true ∧ (canon v = true ↔ sext39 v = v) ∧
    (canon v = true ↔ (v.toNat ≤ 0x0000003FFFFFFFFF ∨ 0xFFFFFFC000000000 ≤ v.toNat))

/-! ### ptentry_encoder_decoder -/

/-- R110: `PTE.NEW` returns the zero word, which is invalid, no leaf, and holds frame 0 and no flags. -/
def Obligations.PteNewIsTheZeroWord : Prop :=
  ∀ (a b : Word) (s : State),
    decode ⟨0x0008#16, a, b⟩ = .ok .pteNew ∧
    exec .pteNew s = .next { s with resp := some ⟨.ok, 0#64⟩ } ∧
    isValid 0#64 = false ∧ isLeaf 0#64 = false ∧ pteAddr 0#64 = 0#64 ∧ pteFlags 0#64 = 0#8

/-- R111: `PTE.SET` of a frame that is page-aligned and below 2^56 returns the frame number in bits 53:10 over the flags
in bits 7:0, which is `(a >> 2) | flags`; any other frame is refused. -/
def Obligations.PteSetPacksFrameAndFlags : Prop :=
  ∀ (flags : FlagByte) (a b : Word) (s : State),
    decode ⟨flags ++ 0x09#8, a, b⟩ = .ok (.pteSet flags a) ∧
    (a.toNat % 4096 = 0 → a.toNat < 2 ^ 56 →
      exec (.pteSet flags a) s =
        .next { s with resp := some ⟨.ok, BitVec.ofNat 64 (a.toNat / 4096 * 1024 + flags.toNat)⟩ } ∧
      BitVec.ofNat 64 (a.toNat / 4096 * 1024 + flags.toNat) = (a >>> 2) ||| flags.setWidth 64) ∧
    (a.toNat % 4096 ≠ 0 ∨ 2 ^ 56 ≤ a.toNat →
      exec (.pteSet flags a) s = .next { s with resp := some ⟨.contractViolation, 0#64⟩ })

/-- R112, R113: `PTE.ADDR` returns bits 53:10 shifted back to a byte address, `PTE.FLAGS` bits 7:0, whatever the other
bits hold. -/
def Obligations.PteAddrAndFlagsUnpack : Prop :=
  ∀ (a b : Word) (s : State),
    decode ⟨0x000A#16, a, b⟩ = .ok (.pteAddr a) ∧ decode ⟨0x000B#16, a, b⟩ = .ok (.pteFlags a) ∧
    exec (.pteAddr a) s =
      .next { s with resp := some ⟨.ok, BitVec.ofNat 64 (a.toNat / 2 ^ 10 % 2 ^ 44 * 4096)⟩ } ∧
    exec (.pteFlags a) s = .next { s with resp := some ⟨.ok, BitVec.ofNat 64 (a.toNat % 256)⟩ }

/-- R114, R115: `PTE.SETFLAGS` replaces bits 7:0 and keeps bits 63:8; `PTE.SETUNUSED` clears bits 7:0 and keeps bits
63:8, so that the result is invalid and holds the same frame. -/
def Obligations.PteSetFlagsAndSetUnusedKeepTheRest : Prop :=
  ∀ (flags : FlagByte) (a b : Word) (s : State),
    decode ⟨flags ++ 0x0C#8, a, b⟩ = .ok (.pteSetFlags flags a) ∧
    decode ⟨0x000D#16, a, b⟩ = .ok (.pteSetUnused a) ∧
    exec (.pteSetFlags flags a) s =
      .next { s with resp := some ⟨.ok, BitVec.ofNat 64 (a.toNat / 256 * 256 + flags.toNat)⟩ } ∧
    exec (.pteSetUnused a) s = .next { s with resp := some ⟨.ok, BitVec.ofNat 64 (a.toNat / 256 * 256)⟩ } ∧
    isValid (BitVec.ofNat 64 (a.toNat / 256 * 256)) = false ∧
    pteAddr (BitVec.ofNat 64 (a.toNat / 256 * 256)) = pteAddr a

/-- R116, both directions: setting a frame and flags and reading them back gives them; setting what was read from a word
gives the word with bits 63:54 and 9:8 cleared. -/
def Obligations.PteRoundTrip : Prop :=
  (∀ (p : Word) (f : FlagByte) (s : State), frameOk p = true → ∃ w : Word,
    exec (.pteSet f p) s = .next { s with resp := some ⟨.ok, w⟩ } ∧
    exec (.pteAddr w) s = .next { s with resp := some ⟨.ok, p⟩ } ∧
    exec (.pteFlags w) s = .next { s with resp := some ⟨.ok, f.setWidth 64⟩ }) ∧
  (∀ (w : Word) (s : State),
    exec (.pteSet (pteFlags w) (pteAddr w)) s = .next { s with resp := some ⟨.ok, w &&& 0x003FFFFFFFFFFCFF#64⟩ })

/-! ### pte_permission_check -/

/-- R130, R131: `PTE.ISVALID` returns bit 0; `PTE.ISLEAF` returns 1 exactly when bit 0 and one of bits 3:1 are set. -/
def Obligations.PteIsValidAndIsLeaf : Prop :=
  ∀ (a b : Word) (s : State),
    decode ⟨0x000E#16, a, b⟩ = .ok (.pteIsValid a) ∧ decode ⟨0x000F#16, a, b⟩ = .ok (.pteIsLeaf a) ∧
    exec (.pteIsValid a) s = .next { s with resp := some ⟨.ok, BitVec.ofNat 64 (a.toNat % 2)⟩ } ∧
    (a.toNat % 2 = 1 ∧ a.toNat / 2 % 8 ≠ 0 →
      exec (.pteIsLeaf a) s = .next { s with resp := some ⟨.ok, 1#64⟩ }) ∧
    (a.toNat % 2 = 0 ∨ a.toNat / 2 % 8 = 0 →
      exec (.pteIsLeaf a) s = .next { s with resp := some ⟨.ok, 0#64⟩ })

/-- R132: every word is exactly one of invalid, pointer and leaf, decided by bits 3:0 alone. -/
def Obligations.EveryWordIsInvalidPointerOrLeaf : Prop :=
  ∀ w : Word,
    (isValid w = false ∧ isLeaf w = false ∧ isPointer w = false ↔ w.toNat % 2 = 0) ∧
    (isValid w = true ∧ isLeaf w = false ∧ isPointer w = true ↔ w.toNat % 16 = 1) ∧
    (isValid w = true ∧ isLeaf w = true ∧ isPointer w = false ↔ w.toNat % 2 = 1 ∧ w.toNat % 16 ≠ 1)

/-- R133: `PTE.CHECK` returns 1 exactly when the entry is a leaf and the flag that names the access is set (bit 1 read,
bit 2 write, bit 3 execute); selector 3 is illegal, as a control word and as an operation. -/
def Obligations.PteCheckTestsLeafAndItsFlag : Prop :=
  ∀ (a b : Word) (s : State),
    decode ⟨0x0010#16, a, b⟩ = .ok (.pteCheck 0#2 a) ∧ decode ⟨0x0030#16, a, b⟩ = .ok (.pteCheck 1#2 a) ∧
    decode ⟨0x0050#16, a, b⟩ = .ok (.pteCheck 2#2 a) ∧ decode ⟨0x0070#16, a, b⟩ = .error .selReserved ∧
    exec (.pteCheck 3#2 a) s = .next { s with resp := some ⟨.illegalCommand, 0#64⟩ } ∧
    ∀ k : BitVec 2, k ≠ 3#2 →
      (a.getLsbD 0 = true ∧ a.getLsbD (1 + k.toNat) = true →
        exec (.pteCheck k a) s = .next { s with resp := some ⟨.ok, 1#64⟩ }) ∧
      (a.getLsbD 0 = false ∨ a.getLsbD (1 + k.toNat) = false →
        exec (.pteCheck k a) s = .next { s with resp := some ⟨.ok, 0#64⟩ })

/-! ### pagetable_walker -/

/-- R140: `PT.READ` of a frame, an index below 512 and an address that holds memory returns the eight bytes there, the
lowest address least significant; otherwise it raises `CONTRACT_VIOLATION`. -/
def Obligations.PtReadReturnsTheEntry : Prop :=
  ∀ (a b : Word) (s : State),
    decode ⟨0x0011#16, a, b⟩ = .ok (.ptRead a b) ∧
    (a.toNat % 4096 = 0 → a.toNat < 2 ^ 56 → b.toNat < 512 →
      memPopulated s.platform (a.toNat + 8 * b.toNat) = true →
      ∃ e : Word, exec (.ptRead a b) s = .next { s with resp := some ⟨.ok, e⟩ } ∧
        ∀ k, k < 8 → e.extractLsb' (8 * k) 8 = memByte s.mem (a.toNat + 8 * b.toNat + k)) ∧
    (a.toNat % 4096 ≠ 0 ∨ 2 ^ 56 ≤ a.toNat ∨ 512 ≤ b.toNat ∨
        memPopulated s.platform (a.toNat + 8 * b.toNat) = false →
      exec (.ptRead a b) s = .next { s with resp := some ⟨.contractViolation, 0#64⟩ })

/-- R142, R143, R145: `WALK` through valid tables: a leaf at level 2, 1 or 0 gives its frame plus the low 30, 21 or 12
bits of the address. -/
def Obligations.WalkEndsAtALeaf : Prop :=
  ∀ (sel : BitVec 2) (a b e2 e1 e0 : Word) (s : State),
    sel ≠ 3#2 → (sel = 0#2 → canon a = true) → frameOk b = true →
    s.holds (b.toNat + 8 * (a.toNat / 2 ^ 30 % 512)) e2 →
    (isLeaf e2 = true →
      exec (.walk sel a b) s =
        .next { s with resp := some ⟨.ok, BitVec.ofNat 64 ((pteAddr e2).toNat + a.toNat % 2 ^ 30)⟩ }) ∧
    (isPointer e2 = true → s.holds ((pteAddr e2).toNat + 8 * (a.toNat / 2 ^ 21 % 512)) e1 →
      (isLeaf e1 = true →
        exec (.walk sel a b) s =
          .next { s with resp := some ⟨.ok, BitVec.ofNat 64 ((pteAddr e1).toNat + a.toNat % 2 ^ 21)⟩ }) ∧
      (isPointer e1 = true → s.holds ((pteAddr e1).toNat + 8 * (a.toNat / 2 ^ 12 % 512)) e0 → isLeaf e0 = true →
        exec (.walk sel a b) s =
          .next { s with resp := some ⟨.ok, BitVec.ofNat 64 ((pteAddr e0).toNat + a.toNat % 2 ^ 12)⟩ }))

/-- R143, R146, R211: `WALK` ends with `UNMAPPED` at an invalid entry of any level and at a pointer at level 0. -/
def Obligations.WalkEndsUnmapped : Prop :=
  ∀ (sel : BitVec 2) (a b e2 e1 e0 : Word) (s : State),
    sel ≠ 3#2 → (sel = 0#2 → canon a = true) → frameOk b = true →
    s.holds (b.toNat + 8 * (a.toNat / 2 ^ 30 % 512)) e2 →
    (isValid e2 = false → exec (.walk sel a b) s = .next { s with resp := some ⟨.unmapped, 0#64⟩ }) ∧
    (isPointer e2 = true → s.holds ((pteAddr e2).toNat + 8 * (a.toNat / 2 ^ 21 % 512)) e1 →
      (isValid e1 = false → exec (.walk sel a b) s = .next { s with resp := some ⟨.unmapped, 0#64⟩ }) ∧
      (isPointer e1 = true → s.holds ((pteAddr e1).toNat + 8 * (a.toNat / 2 ^ 12 % 512)) e0 → isLeaf e0 = false →
        exec (.walk sel a b) s = .next { s with resp := some ⟨.unmapped, 0#64⟩ }))

/-- R142, R143, R215: `WALK`'s refusals, in their order: a reserved selector, then a non-canonical address with selector
0, then a root that is no frame, then a table address that holds no memory, at level 2, 1 or 0. -/
def Obligations.WalkRefusalsInOrder : Prop :=
  ∀ (sel : BitVec 2) (a b e2 e1 : Word) (s : State),
    exec (.walk 3#2 a b) s = .next { s with resp := some ⟨.illegalCommand, 0#64⟩ } ∧
    (canon a = false → exec (.walk 0#2 a b) s = .next { s with resp := some ⟨.invalidAddress, 0#64⟩ }) ∧
    (sel ≠ 3#2 → (sel = 0#2 → canon a = true) →
      (frameOk b = false → exec (.walk sel a b) s = .next { s with resp := some ⟨.contractViolation, 0#64⟩ }) ∧
      (frameOk b = true →
        (memPopulated s.platform (b.toNat + 8 * (a.toNat / 2 ^ 30 % 512)) = false →
          exec (.walk sel a b) s = .next { s with resp := some ⟨.contractViolation, 0#64⟩ }) ∧
        (s.holds (b.toNat + 8 * (a.toNat / 2 ^ 30 % 512)) e2 → isPointer e2 = true →
          (memPopulated s.platform ((pteAddr e2).toNat + 8 * (a.toNat / 2 ^ 21 % 512)) = false →
            exec (.walk sel a b) s = .next { s with resp := some ⟨.contractViolation, 0#64⟩ }) ∧
          (s.holds ((pteAddr e2).toNat + 8 * (a.toNat / 2 ^ 21 % 512)) e1 → isPointer e1 = true →
            memPopulated s.platform ((pteAddr e1).toNat + 8 * (a.toNat / 2 ^ 12 % 512)) = false →
              exec (.walk sel a b) s = .next { s with resp := some ⟨.contractViolation, 0#64⟩ }))))

/-- R149, R150: `WALK` reads at most three entries, and two states that agree on the platform and on those at most 24
bytes give the same response, whatever `PCR`, the cache and the rest of memory hold. -/
def Obligations.WalkDependsOnAtMost24Bytes : Prop :=
  ∀ (sel : BitVec 2) (a b : Word) (s t : State),
    (readsFrom s.platform s.mem a [.l2, .l1, .l0] b).length ≤ 3 ∧
    (t.platform = s.platform →
      (∀ addr ∈ readsFrom s.platform s.mem a [.l2, .l1, .l0] b, ∀ k < 8,
        memByte t.mem (addr + k) = memByte s.mem (addr + k)) →
      ∃ r, exec (.walk sel a b) s = .next { s with resp := some r } ∧
        exec (.walk sel a b) t = .next { t with resp := some r })

/-- R100, R143: selectors 1 and 2 translate every address alike, and selector 0 does the same for a canonical one. -/
def Obligations.ConstructorModesTranslateAlike : Prop :=
  ∀ (a b : Word) (s : State) (ch : Choice),
    exec (.walk 1#2 a b) s = exec (.walk 2#2 a b) s ∧ s.xlate ch 1#2 a = s.xlate ch 2#2 a ∧
    (canon a = true → exec (.walk 0#2 a b) s = exec (.walk 2#2 a b) s ∧ s.xlate ch 0#2 a = s.xlate ch 2#2 a)

/-! ### Top level -/

/-- R160, R215: `XLATE`'s refusals, in their order: a reserved selector, a non-canonical address with selector 0, paging
off. Each leaves all but the response as it was (the model's counter of choices apart, log 6). -/
def Obligations.XlateRefusalsInOrder : Prop :=
  ∀ (sel : BitVec 2) (a : Word) (s : State),
    exec (.xlate 3#2 a) s =
      .next { s with resp := some ⟨.illegalCommand, 0#64⟩, draws := s.draws + 1 } ∧
    (canon a = false → exec (.xlate 0#2 a) s =
      .next { s with resp := some ⟨.invalidAddress, 0#64⟩, draws := s.draws + 1 }) ∧
    (sel ≠ 3#2 → (sel = 0#2 → canon a = true) → pcrMode s.pcr ≠ 8#4 → exec (.xlate sel a) s =
      .next { s with resp := some ⟨.contractViolation, 0#64⟩, draws := s.draws + 1 })

/-- R160: with paging on and an empty cache, `XLATE` of an address that a level-2 leaf covers returns the leaf's frame
plus the low 30 bits, changes no memory and no `PCR`, and caches at most that leaf. -/
def Obligations.XlateThroughALevel2Leaf : Prop :=
  ∀ (sel : BitVec 2) (a e : Word) (s : State),
    sel ≠ 3#2 → (sel = 0#2 → canon a = true) → pcrMode s.pcr = 8#4 → s.cache = [] →
    s.holds (s.pcr.toNat % 2 ^ 44 * 4096 + 8 * (a.toNat / 2 ^ 30 % 512)) e → isLeaf e = true →
    ∃ t, exec (.xlate sel a) s = .next t ∧
      t.resp = some ⟨.ok, BitVec.ofNat 64 ((pteAddr e).toNat + a.toNat % 2 ^ 30)⟩ ∧
      t.pcr = s.pcr ∧ t.mem = s.mem ∧
      (t.cache = [] ∨ t.cache = [⟨.l2, BitVec.ofNat 27 (a.toNat / 2 ^ 30 % 512), e⟩])

/-- R167: where there is no cache or the cache is empty it is coherent, and where every cache entry is what a walk finds
now, every alternative of `XLATE` gives the response of `WALK` from the register's root. -/
def Obligations.XlateIsExactOnACoherentCache : Prop :=
  (∀ s : State, s.platform.tlbPresent = false ∨ s.tlb = [] → s.Coherent) ∧
  ∀ (sel : BitVec 2) (a : Word) (s : State), s.Coherent → pcrMode s.pcr = 8#4 →
    ∃ r, exec (.walk sel a (rootFrame s.pcr)) s = .next { s with resp := some r } ∧
      (∀ ch : Choice, (s.xlate ch sel a).resp = some r) ∧
      ∃ t, exec (.xlate sel a) s = .next t ∧ t.resp = some r

/-- R167, R163: after `TLB.FLUSH` the cache is coherent, and it stays so over every step that writes no memory and no
`PCR` (the block's reset is such a write), fills by `XLATE` included. -/
def Obligations.CoherenceIsKeptUntilTablesOrRootChange : Prop :=
  (∀ s : State, ∃ t, exec .tlbFlush s = .next t ∧ t.Coherent) ∧
  (∀ (s t : State) (act : HostAction) (rest : List HostAction), s.Coherent → s.program = act :: rest →
    keepsTables act = true → step s = .next t → t.Coherent)

/-- R160, R164 to R166: with paging on and a cache present, for every set of entries that goes, `XLATE` can use each
matching entry that is left, stale or not, and can miss, with a fill or without. -/
def Obligations.XlateAdmitsEveryAlternative : Prop :=
  ∀ (sel : BitVec 2) (a va : Word) (s u : State) (gone : List CacheEntry),
    construct sel a = .ok va → pcrMode s.pcr = 8#4 → s.platform.tlbPresent = true →
    u = { s with tlb := s.tlb.filter fun e => !gone.contains e } →
    (∀ e ∈ u.tlb, cacheMatches va e = true → ∃ ch, s.xlate ch sel a = u.answer (leafAddr e.lvl e.pte va)) ∧
    (∃ ch, s.xlate ch sel a = u.answerWalk va (walk s.platform s.mem va (rootFrame s.pcr))) ∧
    (∀ l e, walk s.platform s.mem va (rootFrame s.pcr) = .leaf l e →
      ∃ ch, s.xlate ch sel a = { u with tlb := cacheInsert ⟨l, tagOf va l, e⟩ u.tlb }.answer (leafAddr l e va))

/-- R160, R164, R165: and it can do nothing else: the response of every `XLATE` with paging on is that of a matching
cache entry or that of the walk, and the cache afterwards holds entries it held before and at most the walk's leaf. -/
def Obligations.XlateIsAHitOrAMiss : Prop :=
  ∀ (sel : BitVec 2) (a va : Word) (s : State) (ch : Choice),
    construct sel a = .ok va → pcrMode s.pcr = 8#4 →
    ((∃ e ∈ s.cache, cacheMatches va e = true ∧
        (s.xlate ch sel a).resp = some ⟨.ok, leafAddr e.lvl e.pte va⟩) ∨
      (s.xlate ch sel a).resp = (s.answerWalk va (walk s.platform s.mem va (rootFrame s.pcr))).resp) ∧
    (∀ f ∈ (s.xlate ch sel a).tlb, f ∈ s.tlb ∨
      ∃ l e, walk s.platform s.mem va (rootFrame s.pcr) = .leaf l e ∧ f = ⟨l, tagOf va l, e⟩)

/-- R161: `PCR.SET` with mode 0 or 8 writes all 64 bits at once and nothing else; any other mode is refused and the
register keeps its value. -/
def Obligations.PcrSetWritesTheRegister : Prop :=
  ∀ (a b : Word) (s : State),
    decode ⟨0x0014#16, a, b⟩ = .ok (.pcrSet a) ∧
    (a.toNat / 2 ^ 60 = 0 ∨ a.toNat / 2 ^ 60 = 8 →
      exec (.pcrSet a) s = .next { s with pcr := a, resp := some ⟨.ok, 0#64⟩ }) ∧
    (a.toNat / 2 ^ 60 ≠ 0 ∧ a.toNat / 2 ^ 60 ≠ 8 →
      exec (.pcrSet a) s = .next { s with resp := some ⟨.contractViolation, 0#64⟩ })

/-- R162, R163: `PCR.READ` returns the root frame number, bits 43:0, and nothing else of the register; `TLB.FLUSH`
empties the cache and changes nothing else. -/
def Obligations.PcrReadAndTlbFlush : Prop :=
  ∀ (a b : Word) (s : State),
    decode ⟨0x0015#16, a, b⟩ = .ok .pcrRead ∧ decode ⟨0x0016#16, a, b⟩ = .ok .tlbFlush ∧
    exec .pcrRead s = .next { s with resp := some ⟨.ok, BitVec.ofNat 64 (s.pcr.toNat % 2 ^ 44)⟩ } ∧
    exec .tlbFlush s = .next { s with tlb := [], resp := some ⟨.ok, 0#64⟩ }

/-! ### Reset and invariants -/

/-- R34, R240: after reset `PCR` is 0, the cache is a set of well-formed entries and empty where there is no cache, and
no response stands. (That memory lists nothing and the host has nothing to do are the model's, logs 1, 4.) -/
def Obligations.ResetState : Prop :=
  ∀ p : Platform, (State.resetOn p).pcr = 0#64 ∧ cacheWf (State.resetOn p).tlb ∧
    (p.tlbPresent = false → (State.resetOn p).tlb = []) ∧ (State.resetOn p).resp = none ∧
    (State.resetOn p).platform = p ∧ State.reset = State.resetOn Config.platform

/-- R240: a later reset of the block puts it in that state too; memory and all of the host's state stay (log 11: the
model's reading). Only the model's counter of choices moves beside (log 6). -/
def Obligations.BlockResetAction : Prop :=
  ∀ (s : State) (rest : List HostAction), s.halted = false → s.program = .reset :: rest →
    ∃ t, step s = .next t ∧ t.pcr = 0#64 ∧ cacheWf t.tlb ∧ (s.platform.tlbPresent = false → t.tlb = []) ∧
      t.resp = none ∧ t.mem = s.mem ∧ t.allocs = s.allocs ∧ t.program = rest ∧ t.platform = s.platform ∧
      t.intMasked = s.intMasked ∧ t.booted = s.booted ∧ t.halted = s.halted ∧ t.hostResp = s.hostResp ∧
      t.listing = s.listing

/-- The invariant holds at reset, whatever the platform (R25, R27, R30). -/
def Obligations.InvariantHoldsAtReset : Prop :=
  State.reset.Inv ∧ ∀ p : Platform, (State.resetOn p).Inv

/-- Every step keeps the invariant (R25: "`mode` holds only 0 or 8"; R27; R30): the mode stays legal, memory and cache
keep their canonical forms, and no entry appears where there is no cache. -/
def Obligations.StepKeepsTheInvariant : Prop :=
  ∀ s t : State, s.Inv → step s = .next t → t.Inv

/-- R9: the open parameters are parameters: no step changes them. -/
def Obligations.StepKeepsThePlatform : Prop :=
  ∀ s t : State, step s = .next t → t.platform = s.platform

/-! ### The host -/

/-- R12, R42, R51: `MemWrite(addr, n, v)` stores byte `k` of `v` at `addr + k` and leaves every other byte and all the
rest of the state. -/
def Obligations.HostMemWriteStoresLittleEndian : Prop :=
  ∀ (s : State) (addr : Word) (n v : Nat) (rest : List HostAction),
    s.halted = false → s.program = .memWrite addr n v :: rest → allPopulated s.platform addr.toNat n = true →
    ∃ m, step s = .next { s with program := rest, mem := m } ∧
      (∀ k, k < n → memByte m (addr.toNat + k) = BitVec.ofNat 8 (v / 256 ^ k)) ∧
      (∀ x, x < addr.toNat ∨ addr.toNat + n ≤ x → memByte m x = memByte s.mem x)

/-- R51, R140, R150: an entry that the host wrote is what `PT.READ` returns next. -/
def Obligations.PtReadSeesTheLastHostWrite : Prop :=
  ∀ (s : State) (f i w : Word) (rest : List HostAction),
    s.halted = false → frameOk f = true → i.toNat < 512 →
    s.program = .memWrite (entryAddr f i) 8 w.toNat :: rest →
    allPopulated s.platform (f.toNat + 8 * i.toNat) 8 = true →
    ∃ t, step s = .next t ∧ exec (.ptRead f i) t = .next { t with resp := some ⟨.ok, w⟩ }

/-- R180: `PT.ZERO f` with paging off makes every entry of the table the zero word and leaves every byte outside the
table and all the rest of the state. -/
def Obligations.PtZeroMakesEveryEntryInvalid : Prop :=
  ∀ (s : State) (f : Word) (rest : List HostAction),
    s.halted = false → s.program = .ptZero f :: rest → frameOk f = true →
    allPopulated s.platform f.toNat 4096 = true → pcrMode s.pcr ≠ 8#4 →
    ∃ m, step s = .next { s with program := rest, mem := m } ∧
      (∀ i, i < 512 → memRead8 m (f.toNat + 8 * i) = 0#64) ∧
      (∀ x, x < f.toNat ∨ f.toNat + 4096 ≤ x → memByte m x = memByte s.mem x)

/-- R180: that is what the procedure's 512 entry writes in ascending order do. -/
def Obligations.PtZeroIs512EntryWrites : Prop :=
  ∀ (m : Memory) (f : Nat),
    memZeroTable m f = (List.range 512).foldl (fun m i => memWrite8 m (f + 8 * i) 0#64) m

/-- R181: `PT.VALID_ENTRIES f` with paging off yields exactly the pairs of an index and a valid entry there, in
ascending order of the index, and writes nothing. -/
def Obligations.PtValidEntriesYieldsTheValidOnes : Prop :=
  ∀ (s : State) (f : Word) (rest : List HostAction),
    s.halted = false → s.program = .validEntries f :: rest → frameOk f = true →
    allPopulated s.platform f.toNat 4096 = true → pcrMode s.pcr ≠ 8#4 →
    ∃ l, step s = .next { s with program := rest, listing := l } ∧
      (∀ i e, (i, e) ∈ l ↔ i < 512 ∧ e = memRead8 s.mem (f.toNat + 8 * i) ∧ e.getLsbD 0 = true) ∧
      l.Pairwise (fun x y => x.1 < y.1)

/-- R183, R184: the outcomes of a `MAP` that the root table decides, with interrupts masked and paging off. A level-2
target that is invalid gets the leaf; a valid one is named and left; above a finer target, a leaf gives
`PARENT_ENTRY_HUGE_PAGE` and an invalid entry with no frame to be had `FRAME_ALLOCATION_FAILED`, both changing nothing.
With interrupts unmasked the Mapper is not run (R187; that this is a fault is the model's choice, log 15). -/
def Obligations.MapOutcomesAtTheRootTable : Prop :=
  ∀ (keep : Bool) (root page frame e : Word) (flags : FlagByte) (level : Level) (al : Nat) (s : State),
    frameOk root = true → pcrMode s.pcr ≠ 8#4 →
    allPopulated s.platform (root.toNat + 8 * (page.toNat / 2 ^ 30 % 512)) 8 = true →
    memRead8 s.mem (root.toNat + 8 * (page.toNat / 2 ^ 30 % 512)) = e →
    (s.intMasked = false → mapCall keep root page frame flags level al s = .error .mapperUnmasked) ∧
    (s.intMasked = true →
      (level = .l2 → isValid e = false → frameOk frame = true → ∃ m,
        mapCall keep root page frame flags level al s = .ok (⟨.ok, 0#64⟩, { s with mem := m }) ∧
        memRead8 m (root.toNat + 8 * (page.toNat / 2 ^ 30 % 512)) =
          BitVec.ofNat 64 (frame.toNat / 4096 * 1024 + flags.toNat) ∧
        ∀ x, x < root.toNat + 8 * (page.toNat / 2 ^ 30 % 512) ∨
            root.toNat + 8 * (page.toNat / 2 ^ 30 % 512) + 8 ≤ x → memByte m x = memByte s.mem x) ∧
      (level = .l2 → isValid e = true →
        mapCall keep root page frame flags level al s = .ok (⟨.pageAlreadyMapped, pteAddr e⟩, s)) ∧
      (level ≠ .l2 → isLeaf e = true →
        mapCall keep root page frame flags level al s = .ok (⟨.parentEntryHugePage, 0#64⟩, s)) ∧
      (level ≠ .l2 → isValid e = false → s.allocator al = [] →
        mapCall keep root page frame flags level al s = .ok (⟨.frameAllocationFailed, 0#64⟩, s)))

/-- R184, R185, R28: a `MAP` call touches memory and the allocator it was given only: no `PCR`, no cache (it does not
flush), no response of the block, no other allocator, nothing else of the host. Its status is one of five
(`CONTRACT_VIOLATION`, for a bad frame, is the model's reading: log 20). In memory it touches only the 8 bytes of the
entries on the page's path down to the target, and the 4096 bytes of the frames it can be given: the allocator's next one
for a target at level 1, next two for level 0, none for level 2.
With paging on, that the zeroing of a new table completes is the model's choice (log 28). -/
def Obligations.MapTouchesMemoryAndAllocatorOnly : Prop :=
  ∀ (keep : Bool) (root page frame : Word) (flags : FlagByte) (level : Level) (al : Nat) (s t : State) (r : Response),
    mapCall keep root page frame flags level al s = .ok (r, t) →
    t = { s with mem := t.mem, allocs := s.allocs.set al (t.allocator al) } ∧
    r.st ∈ [Status.ok, .contractViolation, .frameAllocationFailed, .parentEntryHugePage, .pageAlreadyMapped] ∧
    ∀ x, (∀ slot ∈ readsFrom s.platform s.mem page (levelsAbove level ++ [level]) root, x < slot ∨ slot + 8 ≤ x) →
      (∀ f ∈ (s.allocator al).take (levelsAbove level).length, x < f.toNat ∨ f.toNat + 4096 ≤ x) →
      memByte t.mem x = memByte s.mem x

/-- R186, with R143: after a `MAP` that ends `OK` with flags of a leaf, a walk from the same root finds exactly that leaf
at the level asked for, for every level, tables grown on the way included. The premise on the allocator is the one R182
asks a model to name.
With paging on, that the zeroing of a new table completes is the model's choice (log 28). -/
def Obligations.MapThenWalkFindsTheLeaf : Prop :=
  ∀ (keep : Bool) (root page frame v : Word) (flags : FlagByte) (level : Level) (al : Nat) (s t : State),
    s.freshFrames al root page → leafFlags flags = true →
    mapCall keep root page frame flags level al s = .ok (⟨.ok, v⟩, t) →
    walk t.platform t.mem page root = .leaf level (pteWord frame flags) ∧ pteAddr (pteWord frame flags) = frame

/-- T8 (R183, R184): a second `MAP` of the same page at the same level, with the same allocator or another, returns
`PAGE_ALREADY_MAPPED` with the first frame and changes nothing. With paging on it can also fault, where a table is not
mapped to itself (log 14); with paging off it cannot. -/
def Obligations.MapTwiceReportsTheFirstFrame : Prop :=
  ∀ (keep keep' : Bool) (root page frame frame' v : Word) (flags flags' : FlagByte) (level : Level) (al al' : Nat)
    (s t : State), s.freshFrames al root page → flags.getLsbD 0 = true →
    mapCall keep root page frame flags level al s = .ok (⟨.ok, v⟩, t) →
    (∀ q, mapCall keep' root page frame' flags' level al' t = .ok q → q = (⟨.pageAlreadyMapped, frame⟩, t)) ∧
    (pcrMode s.pcr ≠ 8#4 → mapCall keep' root page frame' flags' level al' t = .ok (⟨.pageAlreadyMapped, frame⟩, t))

/-- R188, R189, R190: `BOOT` lines up its steps in the fixed order; a second `BOOT` has no meaning; a mapping of step 2
that does not end `OK` halts the host, which then does nothing more. (Faults for the last two: the model's, log 19.) -/
def Obligations.BootOrderAndFailure : Prop :=
  (∀ (s : State) (rest : List HostAction), s.halted = false → s.program = .boot :: rest →
    (s.booted = false → s.platform.devSize ≤ 2 ^ (12 + 9 * s.platform.devLevel.num) →
      step s = .next { s with
        booted := true
        program := .ptZero s.platform.root :: .bootMap 0x80000000#64 s.platform.ramFlags .l2 ::
          .bootMap s.platform.devBase s.platform.devFlags s.platform.devLevel ::
          .command ⟨0x0014#16, pcrWord 8#4 s.platform.bootAsid ((s.platform.root >>> 12).setWidth 44), 0#64⟩ ::
          .command ⟨0x0016#16, 0#64, 0#64⟩ :: rest }) ∧
    (s.booted = true → step s = .fault .secondBoot)) ∧
  (∀ (s u : State) (page : Word) (flags : FlagByte) (level : Level) (rest : List HostAction) (r : Response),
    s.halted = false → s.program = .bootMap page flags level :: rest →
    mapCall (Config.keepsOrphans s.draws) s.platform.root page page flags level 0 { s with program := rest } = .ok (r, u) →
    r.st ≠ .ok → ∃ t, step s = .next t ∧ t.halted = true ∧ t.hostResp = some r ∧ step t = .fault .hostHalted)

/-- R188, R244, T6: on a platform whose root table is memory, whose RAM flags make a leaf and whose device region is one
level-2 page other than RAM's, the six steps of `BOOT` from a state with paging off and interrupts masked all succeed;
then `PCR` names the root with mode Sv39, the cache is empty, and `XLATE` of every RAM address returns that address. -/
def Obligations.BootThenXlateIsTheIdentityOnRam : Prop :=
  ∀ (s : State) (rest : List HostAction),
    s.halted = false → s.booted = false → s.intMasked = true → pcrMode s.pcr ≠ 8#4 → s.program = .boot :: rest →
    frameOk s.platform.root = true → allPopulated s.platform s.platform.root.toNat 4096 = true →
    leafFlags s.platform.ramFlags = true → s.platform.devLevel = .l2 → s.platform.devSize ≤ 2 ^ 30 →
    frameOk s.platform.devBase = true → s.platform.devBase.toNat / 2 ^ 30 % 512 ≠ 2 →
    ∃ t, Sys2Proof.core.run 6 s = .next t ∧ t.program = rest ∧
      t.pcr = pcrWord 8#4 s.platform.bootAsid ((s.platform.root >>> 12).setWidth 44) ∧ t.tlb = [] ∧
      ∀ va : Word, 0x80000000 ≤ va.toNat → va.toNat < 0xC0000000 →
        ∃ u, exec (.xlate 0#2 va) t = .next u ∧ u.resp = some ⟨.ok, va⟩

/-- R186: "no existing mapping is silently overwritten". Whatever a `MAP` call ends with, every word on an 8-byte boundary
that is valid as an entry, outside the frames the call can be given, reads as before: a table entry that maps a page or
points to a table stays.
With paging on, that the zeroing of a new table completes is the model's choice (log 28). -/
def Obligations.MapOverwritesNoValidEntry : Prop :=
  ∀ (keep : Bool) (root page frame : Word) (flags : FlagByte) (level : Level) (al : Nat) (s t : State) (r : Response)
    (a : Nat), mapCall keep root page frame flags level al s = .ok (r, t) → a % 8 = 0 →
    (∀ f ∈ (s.allocator al).take (levelsAbove level).length, a + 8 ≤ f.toNat ∨ f.toNat + 4096 ≤ a) →
    isValid (memRead8 s.mem a) = true → memRead8 t.mem a = memRead8 s.mem a

/-- R213: a run that produces `CONTRACT_VIOLATION` or `ILLEGAL_COMMAND`, as a response of the block or as the outcome of a
`MAP` (log 20), is no safe run; `UNMAPPED` and `INVALID_ADDRESS`, and every other outcome of a `MAP`, leave it safe. That
the run goes on after a violation, and that `MAP` can end with one, are the model's readings (logs 10, 20). -/
def Obligations.ViolationsEndASafeRun : Prop :=
  (∀ (k : Nat) (s t : State) (r : Response), step s = .next t → t.resp = some r ∨ t.hostResp = some r →
    r.st = .contractViolation ∨ r.st = .illegalCommand → ¬ SafeRun (k + 1) s) ∧
  (∀ (s t : State) (c : Command) (rest : List HostAction) (r : Response),
    s.halted = false → s.program = .command c :: rest → s.sound → step s = .next t → t.resp = some r →
    r.st = .ok ∨ r.st = .invalidAddress ∨ r.st = .unmapped → t.sound) ∧
  (∀ (k : Nat) (s u : State) (root page frame : Word) (flags : FlagByte) (level : Level) (al : Nat)
    (rest : List HostAction) (r : Response),
    s.halted = false → s.program = .map root page frame flags level al :: rest →
    mapCall (Config.keepsOrphans s.draws) root page frame flags level al { s with program := rest } = .ok (r, u) →
    (r.st = .contractViolation → ¬ SafeRun (k + 1) s) ∧
    (r.st ≠ .contractViolation → s.sound → ∃ t, step s = .next t ∧ t.hostResp = some r ∧ t.sound))
end

