-- ==== Sys2Proof/Laws/Bits.lean ====
section
/-! SUPPORT. The bit fields as arithmetic and as single bits: canonical addresses, frames, entry words, slots. -/

namespace Sys2Proof.Machine

/-! ### Canonical addresses (R13, R14) -/

theorem getLsbD_sext39 (v : Word) (k : Nat) :
    (sext39 v).getLsbD k = (decide (k < 64) && if k < 39 then v.getLsbD k else v.getLsbD 38) := by
  unfold sext39
  rw [BitVec.getLsbD_signExtend, BitVec.msb_setWidth]
  by_cases hk : k < 64 <;> by_cases h : k < 39 <;> simp [hk, h]

/-- `canon` bit by bit (R90). -/
theorem canon_iff_bits (v : Word) : canon v = true ↔ ∀ k, 39 ≤ k → k < 64 → v.getLsbD k = v.getLsbD 38 := by
  unfold canon
  rw [beq_iff_eq]
  constructor
  · intro h k h1 h2
    have := congrArg (fun x => BitVec.getLsbD x (k - 39)) h
    simp only [BitVec.getLsbD_extractLsb', show k - 39 < 25 by omega, decide_true, Bool.true_and,
      show 39 + (k - 39) = k by omega] at this
    rw [this]
    cases v.getLsbD 38
    · simp
    · rw [if_pos rfl, BitVec.getLsbD_allOnes]
      simpa using (show k - 39 < 25 by omega)
  · intro h
    refine BitVec.eq_of_getLsbD_eq fun i hi => ?_
    rw [BitVec.getLsbD_extractLsb', h (39 + i) (by omega) (by omega)]
    cases v.getLsbD 38
    · simp
    · rw [if_pos rfl, BitVec.getLsbD_allOnes, Bool.and_true]

/-- `canon(v)` is `sext_39(v) == v` (R13). -/
theorem canon_iff_sext39 (v : Word) : canon v = true ↔ sext39 v = v := by
  rw [canon_iff_bits]
  constructor
  · intro h
    refine BitVec.eq_of_getLsbD_eq fun i hi => ?_
    rw [getLsbD_sext39]
    by_cases h1 : i < 39
    · simp [hi, h1]
    · rw [if_neg h1, h i (by omega) hi]
      simp [hi]
  · intro h k h1 h2
    have := congrArg (fun x => BitVec.getLsbD x k) h
    simp only [getLsbD_sext39, h2, decide_true, Bool.true_and, if_neg (show ¬ k < 39 by omega)] at this
    exact this.symm

/-- Truncation gives a canonical address (R14 (b), R92). -/
theorem canon_sext39 (v : Word) : canon (sext39 v) = true := by
  rw [canon_iff_bits]
  intro k h1 h2
  rw [getLsbD_sext39, getLsbD_sext39]
  simp [h2, show ¬ k < 39 by omega]

/-- The fields below bit 39 do not see the bits above it (R143: "`walk` reads only bits 38:0 of `va`"). -/
theorem vpn_sext39 (v : Word) (l : Level) : vpn (sext39 v) l = vpn v l := by
  refine BitVec.eq_of_getLsbD_eq fun i hi => ?_
  have : l.shift + i < 39 := by cases l <;> simp [Level.shift, Level.num] <;> omega
  simp only [vpn, BitVec.getLsbD_extractLsb', getLsbD_sext39, hi, decide_true, Bool.true_and]
  simp [this, show l.shift + i < 64 by omega]

theorem low_sext39 (v : Word) (l : Level) : low (sext39 v) l = low v l := by
  refine BitVec.eq_of_getLsbD_eq fun i hi => ?_
  have : l.shift ≤ 30 := by cases l <;> simp [Level.shift, Level.num]
  simp only [low, BitVec.getLsbD_setWidth, BitVec.getLsbD_extractLsb', getLsbD_sext39, hi, decide_true,
    Bool.true_and, Nat.zero_add]
  by_cases h : i < l.shift
  · simp [h, show i < 39 by omega]
  · simp [h]

theorem tagOf_sext39 (v : Word) (l : Level) : tagOf (sext39 v) l = tagOf v l := by
  refine BitVec.eq_of_getLsbD_eq fun i hi => ?_
  simp only [tagOf, BitVec.getLsbD_setWidth, BitVec.getLsbD_extractLsb', getLsbD_sext39, hi, decide_true,
    Bool.true_and]
  by_cases h : i < 39 - l.shift
  · simp [h, show l.shift + i < 39 by omega, show l.shift + i < 64 by omega]
  · simp [h]

theorem leafAddr_sext39 (l : Level) (e v : Word) : leafAddr l e (sext39 v) = leafAddr l e v := by
  simp [leafAddr, low_sext39]

/-- A constructed address has the fields of the raw operand (R100). -/
theorem construct_fields {sel : BitVec 2} {raw va : Word} (h : construct sel raw = .ok va) :
    va = raw ∨ va = sext39 raw := by
  unfold construct at h
  split at h
  · split at h <;> simp_all
  · split at h
    · simp_all
    · split at h <;> simp_all

/-! ### Frames and entry words (R13, R14) -/

theorem frameOk_iff (f : Word) : frameOk f = true ↔ f.toNat % 4096 = 0 ∧ f.toNat < 2 ^ 56 := by
  unfold frameOk
  rw [Bool.and_eq_true, beq_iff_eq, beq_iff_eq, ← BitVec.toNat_inj, ← BitVec.toNat_inj]
  simp only [BitVec.extractLsb'_toNat, Nat.shiftRight_eq_div_pow, BitVec.toNat_ofNat]
  have := f.isLt
  omega

theorem pteAddr_toNat (w : Word) : (pteAddr w).toNat = w.toNat / 2 ^ 10 % 2 ^ 44 * 4096 := by
  unfold pteAddr
  simp only [BitVec.toNat_append, BitVec.extractLsb'_toNat, Nat.shiftRight_eq_div_pow, BitVec.toNat_ofNat,
    Nat.zero_mod, Nat.or_zero, Nat.shiftLeft_eq, Nat.zero_mul, Nat.zero_or]

/-- A frame that an entry holds is a frame (R43: "satisfies `frame_ok` by construction"). -/
theorem frameOk_pteAddr (w : Word) : frameOk (pteAddr w) = true := by
  rw [frameOk_iff, pteAddr_toNat]
  omega

theorem rootFrame_toNat (pcr : Word) : (rootFrame pcr).toNat = pcr.toNat % 2 ^ 44 * 4096 := by
  unfold rootFrame pcrPpn
  simp only [BitVec.toNat_append, BitVec.extractLsb'_toNat, BitVec.toNat_ofNat,
    Nat.zero_mod, Nat.or_zero, Nat.shiftLeft_eq, Nat.shiftRight_zero, Nat.zero_mul, Nat.zero_or]

/-- The root frame of the register is a frame (R160 (c)). -/
theorem frameOk_rootFrame (pcr : Word) : frameOk (rootFrame pcr) = true := by
  rw [frameOk_iff, rootFrame_toNat]
  omega

theorem getLsbD_pteWord (f : Word) (fl : FlagByte) (k : Nat) :
    (pteWord f fl).getLsbD k =
      if k < 8 then fl.getLsbD k else (decide (10 ≤ k) && decide (k < 54) && f.getLsbD (k + 2)) := by
  simp only [pteWord, BitVec.getLsbD_append, BitVec.getLsbD_extractLsb', BitVec.getLsbD_zero]
  by_cases h1 : k < 8
  · simp [h1]
  · by_cases h2 : k - 8 < 2
    · simp [h1, h2, show ¬ 10 ≤ k by omega]
    · by_cases h3 : k - 8 - 2 < 44
      · simp [h1, h2, h3, show 10 ≤ k by omega, show k < 54 by omega, show 12 + (k - 8 - 2) = k + 2 by omega]
      · simp [h1, h2, h3, show ¬ k < 54 by omega]

theorem getLsbD_pteAddr (w : Word) (k : Nat) :
    (pteAddr w).getLsbD k = (decide (12 ≤ k) && decide (k < 56) && w.getLsbD (k - 2)) := by
  simp only [pteAddr, BitVec.getLsbD_append, BitVec.getLsbD_extractLsb', BitVec.getLsbD_zero]
  by_cases h1 : k < 12
  · simp [h1]
  · by_cases h2 : k - 12 < 44
    · simp [h1, h2, show 12 ≤ k by omega, show k < 56 by omega, show 10 + (k - 12) = k - 2 by omega]
    · simp [h1, h2, show ¬ k < 56 by omega]

theorem frameOk_bits {f : Word} (h : frameOk f = true) {k : Nat} (hk : k < 12 ∨ 56 ≤ k) : f.getLsbD k = false := by
  simp only [frameOk, Bool.and_eq_true, beq_iff_eq] at h
  rcases hk with hk | hk
  · have := congrArg (fun x => BitVec.getLsbD x k) h.1
    simpa [BitVec.getLsbD_extractLsb', hk] using this
  · by_cases h64 : k < 64
    · have := congrArg (fun x => BitVec.getLsbD x (k - 56)) h.2
      simpa [BitVec.getLsbD_extractLsb', show k - 56 < 8 by omega, show 56 + (k - 56) = k by omega] using this
    · exact BitVec.getLsbD_of_ge _ _ (by omega)

/-- Round trip of the frame field (R116). -/
theorem pteAddr_pteWord {f : Word} (fl : FlagByte) (h : frameOk f = true) : pteAddr (pteWord f fl) = f := by
  refine BitVec.eq_of_getLsbD_eq fun k hk => ?_
  rw [getLsbD_pteAddr, getLsbD_pteWord]
  by_cases h1 : 12 ≤ k ∧ k < 56
  · rw [if_neg (by omega)]
    simp [h1.1, h1.2, show 10 ≤ k - 2 by omega, show k - 2 < 54 by omega, show k - 2 + 2 = k by omega]
  · rw [frameOk_bits h (show k < 12 ∨ 56 ≤ k by omega)]
    rcases (show k < 12 ∨ 56 ≤ k by omega) with h2 | h2
    · simp [show ¬ 12 ≤ k by omega]
    · simp [show ¬ k < 56 by omega]

/-- Round trip of the flags (R116). -/
theorem pteFlags_pteWord (f : Word) (fl : FlagByte) : pteFlags (pteWord f fl) = fl := by
  refine BitVec.eq_of_getLsbD_eq fun k hk => ?_
  simp [pteFlags, getLsbD_pteWord, hk]

@[simp] theorem isValid_pteWord (f : Word) (fl : FlagByte) : isValid (pteWord f fl) = fl.getLsbD 0 := by
  simp only [isValid, getLsbD_pteWord, Nat.reduceLT, if_true]

@[simp] theorem isLeaf_pteWord (f : Word) (fl : FlagByte) :
    isLeaf (pteWord f fl) = (fl.getLsbD 0 && (fl.getLsbD 1 || fl.getLsbD 2 || fl.getLsbD 3)) := by
  simp only [isLeaf, getLsbD_pteWord, Nat.reduceLT, if_true]

@[simp] theorem isValid_zero : isValid 0#64 = false := by decide

@[simp] theorem isLeaf_zero : isLeaf 0#64 = false := by decide

theorem isValid_of_isLeaf {w : Word} (h : isLeaf w = true) : isValid w = true := by
  simp only [isLeaf, Bool.and_eq_true] at h
  exact h.1

/-! ### Slots (R43, R49) -/

theorem slotAddr_toNat {f : Word} (h : frameOk f = true) (va : Word) (l : Level) :
    (slotAddr f va l).toNat = f.toNat + 8 * (vpn va l).toNat := by
  have h1 := ((frameOk_iff f).1 h).2
  have h2 := (vpn va l).isLt
  simp only [slotAddr, entryAddr, BitVec.toNat_add, BitVec.toNat_mul, BitVec.toNat_setWidth, BitVec.toNat_ofNat]
  omega

theorem entryAddr_toNat {f idx : Word} (h : frameOk f = true) (hi : idx.toNat < 512) :
    (entryAddr f idx).toNat = f.toNat + 8 * idx.toNat := by
  have h1 := ((frameOk_iff f).1 h).2
  simp only [entryAddr, BitVec.toNat_add, BitVec.toNat_mul, BitVec.toNat_ofNat]
  omega

/-- A slot lies in its table, whole (R49). -/
theorem slotAddr_bounds {f : Word} (h : frameOk f = true) (va : Word) (l : Level) :
    f.toNat ≤ (slotAddr f va l).toNat ∧ (slotAddr f va l).toNat + 8 ≤ f.toNat + 4096 ∧
      (slotAddr f va l).toNat % 8 = 0 := by
  have h1 := ((frameOk_iff f).1 h).1
  have h2 := (vpn va l).isLt
  rw [slotAddr_toNat h]
  omega

/-- Distinct frames are disjoint tables. -/
theorem frames_disjoint {f g : Word} (hf : frameOk f = true) (hg : frameOk g = true) (h : f ≠ g) :
    f.toNat + 4096 ≤ g.toNat ∨ g.toNat + 4096 ≤ f.toNat := by
  have h1 := ((frameOk_iff f).1 hf).1
  have h2 := ((frameOk_iff g).1 hg).1
  have h3 : f.toNat ≠ g.toNat := fun hh => h (BitVec.eq_of_toNat_eq hh)
  omega

/-! ### Tags (R27) -/

theorem tagOf_toNat_lt (v : Word) (l : Level) : (tagOf v l).toNat < 2 ^ (39 - l.shift) := by
  have := (v.extractLsb' l.shift (39 - l.shift)).isLt
  have h2 : (tagOf v l).toNat ≤ (v.extractLsb' l.shift (39 - l.shift)).toNat := by
    simp only [tagOf, BitVec.toNat_setWidth]
    exact Nat.mod_le _ _
  omega

/-- Addresses with the same tag at a level have the same index at that level and at every level above it. -/
theorem vpn_eq_of_tagOf_eq {v w : Word} {l k : Level} (h : tagOf v l = tagOf w l) (hk : l.num ≤ k.num) :
    vpn v k = vpn w k := by
  refine BitVec.eq_of_getLsbD_eq fun i hi => ?_
  have hs : l.shift ≤ k.shift := by simp only [Level.shift]; omega
  have hs3 : k.shift + 9 ≤ 39 := by cases k <;> simp [Level.shift, Level.num]
  have hs4 : 12 ≤ l.shift := by simp only [Level.shift]; omega
  have := congrArg (fun x => BitVec.getLsbD x (k.shift - l.shift + i)) h
  simp only [tagOf, BitVec.getLsbD_setWidth, BitVec.getLsbD_extractLsb',
    show k.shift - l.shift + i < 39 - l.shift by omega, show k.shift - l.shift + i < 27 by omega, decide_true,
    Bool.true_and, show l.shift + (k.shift - l.shift + i) = k.shift + i by omega] at this
  simp only [vpn, BitVec.getLsbD_extractLsb', hi, decide_true, Bool.true_and]
  exact this

end Sys2Proof.Machine
end

