-- ==== Sys2Proof/Laws/Cache.lean ====
section
/-! SUPPORT. The translation cache is a set: membership after each operation, the canonical form kept, and equal sets
are equal data. -/

namespace Sys2Proof.Machine

theorem level_num_inj {l k : Level} (h : l.num = k.num) : l = k := by
  cases l <;> cases k <;> simp_all [Level.num]

/-- Distinct entries have distinct keys. -/
theorem cacheKey_inj {e f : CacheEntry} (h : cacheKey e = cacheKey f) : e = f := by
  obtain ⟨l, t, w⟩ := e
  obtain ⟨k, u, x⟩ := f
  have ht := t.isLt
  have hu := u.isLt
  have hw := w.isLt
  have hx := x.isLt
  simp only [cacheKey] at h
  have h1 : w.toNat = x.toNat := by omega
  have h2 : t.toNat = u.toNat := by omega
  have h3 : l.num = k.num := by omega
  rw [level_num_inj h3, BitVec.eq_of_toNat_eq h2, BitVec.eq_of_toNat_eq h1]

/-- Insertion adds the entry and nothing else. -/
theorem mem_cacheInsert {e f : CacheEntry} {c : Cache} : f ∈ cacheInsert e c ↔ f = e ∨ f ∈ c := by
  induction c with
  | nil => simp [cacheInsert]
  | cons g c ih =>
    unfold cacheInsert
    split
    · simp
    · split
      · rename_i h1 h2
        have he := cacheKey_inj h2
        subst he
        simp
      · simp only [List.mem_cons, ih]
        exact or_left_comm

theorem cacheInsert_rising {e : CacheEntry} {c : Cache}
    (h : c.Pairwise (fun e f => cacheKey e < cacheKey f)) :
    (cacheInsert e c).Pairwise (fun e f => cacheKey e < cacheKey f) := by
  induction c with
  | nil => simp [cacheInsert]
  | cons g c ih =>
    obtain ⟨hg, hc⟩ := List.pairwise_cons.1 h
    unfold cacheInsert
    split
    · rename_i h1
      refine List.pairwise_cons.2 ⟨fun f hf => ?_, h⟩
      rcases List.mem_cons.1 hf with rfl | hf
      · exact h1
      · exact Nat.lt_trans h1 (hg f hf)
    · split
      · exact h
      · rename_i h1 h2
        refine List.pairwise_cons.2 ⟨fun f hf => ?_, ih hc⟩
        rcases mem_cacheInsert.1 hf with rfl | hf
        · omega
        · exact hg f hf

/-- Inserting a well-formed entry keeps the canonical form. -/
theorem cacheInsert_wf {e : CacheEntry} {c : Cache} (hc : cacheWf c) (he : cacheEntryWf e = true) :
    cacheWf (cacheInsert e c) := by
  refine ⟨cacheInsert_rising hc.1, fun f hf => ?_⟩
  rcases mem_cacheInsert.1 hf with rfl | hf
  · exact he
  · exact hc.2 f hf

theorem cacheWf_nil : cacheWf [] := ⟨List.Pairwise.nil, by simp⟩

/-- Any list gives a canonical cache. -/
theorem cacheOfList_wf (l : List CacheEntry) : cacheWf (cacheOfList l) := by
  induction l with
  | nil => exact cacheWf_nil
  | cons e l ih =>
    unfold cacheOfList
    split
    · exact cacheInsert_wf ih ‹_›
    · exact ih

/-- The cache of a list holds the list's well-formed entries. -/
theorem mem_cacheOfList {e : CacheEntry} {l : List CacheEntry} :
    e ∈ cacheOfList l ↔ e ∈ l ∧ cacheEntryWf e = true := by
  induction l with
  | nil => simp [cacheOfList]
  | cons f l ih =>
    unfold cacheOfList
    split
    · rw [mem_cacheInsert, ih, List.mem_cons]
      constructor
      · rintro (rfl | ⟨h1, h2⟩)
        · exact ⟨.inl rfl, ‹_›⟩
        · exact ⟨.inr h1, h2⟩
      · rintro ⟨rfl | h1, h2⟩
        · exact .inl rfl
        · exact .inr ⟨h1, h2⟩
    · rename_i hf
      rw [ih, List.mem_cons]
      constructor
      · rintro ⟨h1, h2⟩
        exact ⟨.inr h1, h2⟩
      · rintro ⟨rfl | h1, h2⟩
        · exact absurd h2 hf
        · exact ⟨h1, h2⟩

/-- Eviction keeps the canonical form. -/
theorem cacheEvict_wf {c : Cache} (ch : Choice) (h : cacheWf c) : cacheWf (cacheEvict ch c) :=
  ⟨h.1.filter _, fun e he => h.2 e (List.mem_filter.1 he).1⟩

theorem mem_cacheEvict {e : CacheEntry} {ch : Choice} {c : Cache} :
    e ∈ cacheEvict ch c ↔ e ∈ c ∧ e ∉ ch.evicted := by
  simp [cacheEvict]

/-- A hit is an entry of the cache that covers the address (R164). -/
theorem cacheHit_some {ch : Choice} {va : Word} {c : Cache} {e : CacheEntry} (h : cacheHit ch va c = some e) :
    e ∈ c ∧ cacheMatches va e = true := by
  have := List.mem_of_getElem? h
  simpa using this

/-- The entry that a walk's leaf gives is well-formed (R27, R165). -/
theorem cacheEntryWf_of_leaf (va : Word) (l : Level) {e : Word} (h : isLeaf e = true) :
    cacheEntryWf ⟨l, tagOf va l, e⟩ = true := by
  simp [cacheEntryWf, h, tagOf_toNat_lt]

/-- Equal sets are equal data. -/
theorem cache_ext {c d : Cache} (hc : cacheWf c) (hd : cacheWf d) (h : ∀ e, e ∈ c ↔ e ∈ d) : c = d := by
  refine List.Perm.eq_of_pairwise (le := fun e f => cacheKey e < cacheKey f) ?_ hc.1 hd.1 ?_
  · intro a b _ _ hab hba
    omega
  · refine (List.perm_ext_iff_of_nodup ?_ ?_).2 h
    · exact hc.1.imp fun hlt heq => by subst heq; omega
    · exact hd.1.imp fun hlt heq => by subst heq; omega

end Sys2Proof.Machine
end

