-- ==== Sys2Proof/Laws/Decode.lean ====
section
/-! SUPPORT. The fields of a control word put together from fields, and what each format's decoder answers. -/

namespace Sys2Proof

/-- The fields that a control word was made of are the fields it has (R60). -/
theorem cwOf_fields (flags : FlagByte) (sel : BitVec 2) (op : BitVec 5) :
    cwFlags (cwOf flags sel op) = flags ∧ cwSel (cwOf flags sel op) = sel ∧ cwOp (cwOf flags sel op) = op ∧
      cwReserved (cwOf flags sel op) = 0#1 := by
  refine ⟨?_, ?_, ?_, ?_⟩ <;> refine BitVec.eq_of_getLsbD_eq fun i hi => ?_ <;>
    simp only [cwOf, cwFlags, cwSel, cwOp, cwReserved, BitVec.getLsbD_extractLsb', BitVec.getLsbD_append, hi,
      decide_true, Bool.true_and]
  · simp [show ¬ 8 + i < 5 by omega, show ¬ 8 + i - 5 < 2 by omega, show ¬ 8 + i - 5 - 2 < 1 by omega,
      show 8 + i - 5 - 2 - 1 = i by omega]
  · simp [hi]
  · simp [hi]
  · obtain rfl : i = 0 := by omega
    simp

/-- Format N accepts clear `flags` and `sel` only (R76). -/
theorem decodeN_ok {flags : FlagByte} {sel : BitVec 2} {i j : Instr} :
    decodeN flags sel i = .ok j ↔ flags = 0#8 ∧ sel = 0#2 ∧ i = j := by
  unfold decodeN
  by_cases h1 : flags = 0#8 <;> by_cases h2 : sel = 0#2 <;> simp [h1, h2]

/-- Format F accepts a clear `sel` only (R76). -/
theorem decodeF_ok {sel : BitVec 2} {i j : Instr} : decodeF sel i = .ok j ↔ sel = 0#2 ∧ i = j := by
  unfold decodeF
  by_cases h : sel = 0#2 <;> simp [h]

/-- Format S accepts clear `flags` and a selector other than 3 (R76). -/
theorem decodeS_ok {flags : FlagByte} {sel : BitVec 2} {i j : Instr} :
    decodeS flags sel i = .ok j ↔ flags = 0#8 ∧ sel ≠ 3#2 ∧ i = j := by
  unfold decodeS
  by_cases h1 : flags = 0#8 <;> by_cases h2 : sel = 3#2 <;> simp [h1, h2]

end Sys2Proof
end

