-- ==== Sys2Proof/Laws/Memory.lean ====
section
/-! SUPPORT. Reads after writes, and that every memory operation keeps the canonical form. -/

namespace Sys2Proof.Machine

/-! ### Cells -/

theorem cellsAt_bounds {addr : Nat} {bytes : List Byte} {c : Host.Cell} (h : c ∈ cellsAt addr bytes) :
    addr ≤ c.1 ∧ c.1 < addr + bytes.length := by
  induction bytes generalizing addr with
  | nil => simp [cellsAt] at h
  | cons b bs ih =>
    simp only [cellsAt, List.mem_cons] at h
    rcases h with rfl | h
    · simp
    · have := ih h
      simp only [List.length_cons]
      omega

theorem cellsAt_rising (addr : Nat) (bytes : List Byte) :
    (cellsAt addr bytes).Pairwise (fun c d => c.1 < d.1) := by
  induction bytes generalizing addr with
  | nil => exact List.Pairwise.nil
  | cons b bs ih =>
    refine List.Pairwise.cons (fun c hc => ?_) (ih (addr + 1))
    have := cellsAt_bounds hc
    simp only
    omega

theorem lookup_cellsAt (addr a : Nat) (bytes : List Byte) :
    (cellsAt addr bytes).lookup a = if addr ≤ a then bytes[a - addr]? else none := by
  induction bytes generalizing addr with
  | nil => simp [cellsAt]
  | cons b bs ih =>
    rw [cellsAt, List.lookup_cons]
    by_cases h : a = addr
    · subst h; simp
    · have hb : (a == addr) = false := by simpa using h
      simp only [hb, ih]
      by_cases h1 : addr ≤ a
      · have h2 : addr + 1 ≤ a := by omega
        rw [if_pos h1, if_pos h2, show a - addr = (a - (addr + 1)) + 1 by omega, List.getElem?_cons_succ]
      · have h2 : ¬ addr + 1 ≤ a := by omega
        simp [h1, h2]

theorem lookup_filter (m : Memory) (p : Nat → Bool) (a : Nat) :
    (m.filter (fun c => p c.1)).lookup a = if p a then m.lookup a else none := by
  induction m with
  | nil => simp
  | cons c m ih =>
    obtain ⟨x, y⟩ := c
    rw [List.filter_cons]
    by_cases hx : a = x
    · subst hx
      cases hp : p a <;> simp [hp, ih]
    · have hb : (a == x) = false := by simpa using hx
      cases hp : p x <;> simp [hb, ih, List.lookup_cons]

theorem lookup_append (m n : Memory) (a : Nat) : (m ++ n).lookup a = (m.lookup a).or (n.lookup a) := by
  induction m with
  | nil => simp
  | cons c m ih =>
    obtain ⟨x, y⟩ := c
    rw [List.cons_append, List.lookup_cons, List.lookup_cons]
    cases a == x <;> simp [ih]

/-! ### A read after a write -/

/-- What a store does to every byte. -/
theorem memByte_memWrite (m : Memory) (addr a : Nat) (bytes : List Byte) :
    memByte (memWrite m addr bytes) a =
      if addr ≤ a then (bytes[a - addr]?).getD (memByte m a) else memByte m a := by
  have h1 := lookup_filter m (fun x => decide (x < addr)) a
  have h2 := lookup_filter m (fun x => decide (addr + bytes.length ≤ x)) a
  unfold memByte memWrite
  rw [lookup_append, lookup_append, h1, h2, lookup_cellsAt]
  by_cases h : addr ≤ a
  · have h3 : ¬ a < addr := by omega
    by_cases h4 : addr + bytes.length ≤ a
    · have h5 : bytes[a - addr]? = none := by rw [List.getElem?_eq_none]; omega
      simp [h, h3, h4, h5]
    · have h5 : bytes[a - addr]? = some bytes[a - addr] := by rw [List.getElem?_eq_getElem]
      simp [h, h3, h5]
  · have h3 : a < addr := by omega
    have h4 : ¬ addr + bytes.length ≤ a := by omega
    simp [h, h3, h4]

theorem memByte_memWrite_of_lt (m : Memory) {addr a : Nat} (bytes : List Byte) (h : a < addr) :
    memByte (memWrite m addr bytes) a = memByte m a := by
  rw [memByte_memWrite, if_neg (by omega)]

theorem memByte_memWrite_of_ge (m : Memory) {addr a : Nat} (bytes : List Byte) (h : addr + bytes.length ≤ a) :
    memByte (memWrite m addr bytes) a = memByte m a := by
  rw [memByte_memWrite, if_pos (by omega), List.getElem?_eq_none (by omega)]
  rfl

theorem memByte_memWrite_at (m : Memory) (addr : Nat) {k : Nat} (bytes : List Byte) (h : k < bytes.length) :
    memByte (memWrite m addr bytes) (addr + k) = bytes[k] := by
  rw [memByte_memWrite, if_pos (by omega), show addr + k - addr = k by omega, List.getElem?_eq_getElem h]
  rfl

@[simp] theorem leBytes_length (n v : Nat) : (leBytes n v).length = n := by
  induction n generalizing v with
  | zero => rfl
  | succ n ih => simp [leBytes, ih]

theorem leBytes_getElem (n v k : Nat) (h : k < (leBytes n v).length) :
    (leBytes n v)[k] = BitVec.ofNat 8 (v / 256 ^ k) := by
  induction n generalizing v k with
  | zero => simp [leBytes] at h
  | succ n ih =>
    cases k with
    | zero => simp [leBytes]
    | succ k =>
      simp only [leBytes, List.getElem_cons_succ]
      rw [ih, Nat.div_div_eq_div_mul, Nat.pow_succ, Nat.mul_comm]

/-- The little-endian entry read is eight bytes (R42). -/
theorem memRead8_congr {m n : Memory} {addr : Nat} (h : ∀ k < 8, memByte m (addr + k) = memByte n (addr + k)) :
    memRead8 m addr = memRead8 n addr := by
  have h0 := h 0 (by omega)
  have h1 := h 1 (by omega)
  have h2 := h 2 (by omega)
  have h3 := h 3 (by omega)
  have h4 := h 4 (by omega)
  have h5 := h 5 (by omega)
  have h6 := h 6 (by omega)
  have h7 := h 7 (by omega)
  simp only [Nat.add_zero] at h0
  unfold memRead8
  rw [h0, h1, h2, h3, h4, h5, h6, h7]

/-- Byte `k` of the entry read is the byte at `addr + k` (R42). -/
theorem memRead8_byte (m : Memory) (addr : Nat) {k : Nat} (h : k < 8) :
    (memRead8 m addr).extractLsb' (8 * k) 8 = memByte m (addr + k) := by
  unfold memRead8
  obtain rfl | rfl | rfl | rfl | rfl | rfl | rfl | rfl :
      k = 0 ∨ k = 1 ∨ k = 2 ∨ k = 3 ∨ k = 4 ∨ k = 5 ∨ k = 6 ∨ k = 7 := by omega
  all_goals
    refine BitVec.eq_of_getLsbD_eq fun i hi => ?_
    simp only [BitVec.getLsbD_extractLsb', BitVec.getLsbD_append, hi, decide_true, Bool.true_and, Nat.add_zero]
    simp only [show i < 8 from hi, show ¬ 8 * 1 + i < 8 by omega, show ¬ 8 * 2 + i < 8 by omega,
      show ¬ 8 * 3 + i < 8 by omega, show ¬ 8 * 4 + i < 8 by omega, show ¬ 8 * 5 + i < 8 by omega,
      show ¬ 8 * 6 + i < 8 by omega, show ¬ 8 * 7 + i < 8 by omega, if_false, if_true, Nat.mul_zero, Nat.zero_add]
    repeat' first
      | rfl
      | (rw [if_pos (by omega)]; congr 1; omega)
      | rw [if_neg (by omega)]
      | (congr 1; omega)

/-- Two words whose eight bytes agree are equal. -/
theorem word_eq_of_bytes {v w : Word}
    (h : ∀ k < 8, v.extractLsb' (8 * k) 8 = w.extractLsb' (8 * k) 8) : v = w := by
  refine BitVec.eq_of_getLsbD_eq fun i hi => ?_
  have hk := congrArg (fun x => BitVec.getLsbD x (i % 8)) (h (i / 8) (by omega))
  have hm : i % 8 < 8 := Nat.mod_lt _ (by omega)
  simpa [BitVec.getLsbD_extractLsb', hm, Nat.div_add_mod] using hk

/-- An entry write followed by the entry read at the same address gives the word back (R42). -/
theorem memRead8_memWrite8 (m : Memory) (addr : Nat) (w : Word) : memRead8 (memWrite8 m addr w) addr = w := by
  refine word_eq_of_bytes fun k hk => ?_
  rw [memRead8_byte _ _ hk, memWrite8, memByte_memWrite_at _ _ _ (by simpa using hk), leBytes_getElem]
  refine BitVec.eq_of_toNat_eq ?_
  rw [BitVec.toNat_ofNat, BitVec.extractLsb'_toNat, Nat.shiftRight_eq_div_pow, Nat.pow_mul]

/-- An entry write leaves every byte outside its eight alone. -/
theorem memByte_memWrite8_of_disjoint (m : Memory) {addr a : Nat} (w : Word) (h : a < addr ∨ addr + 8 ≤ a) :
    memByte (memWrite8 m addr w) a = memByte m a := by
  rcases h with h | h
  · exact memByte_memWrite_of_lt _ _ h
  · exact memByte_memWrite_of_ge _ _ (by simpa using h)

/-- An entry write leaves every entry read that shares no byte with it alone. -/
theorem memRead8_memWrite8_of_disjoint (m : Memory) {addr a : Nat} (w : Word) (h : a + 8 ≤ addr ∨ addr + 8 ≤ a) :
    memRead8 (memWrite8 m addr w) a = memRead8 m a :=
  memRead8_congr fun k hk => memByte_memWrite8_of_disjoint m w (by omega)

/-- Every byte of a zeroed table is 0 and every other byte stays (R180). -/
theorem memByte_memZeroTable (m : Memory) (addr a : Nat) :
    memByte (memZeroTable m addr) a = if addr ≤ a ∧ a < addr + 4096 then 0#8 else memByte m a := by
  rw [memZeroTable, memByte_memWrite]
  by_cases h : addr ≤ a
  · by_cases h2 : a < addr + 4096
    · rw [if_pos h, if_pos ⟨h, h2⟩, List.getElem?_replicate, if_pos (by omega)]
      rfl
    · rw [if_pos h, if_neg (by omega), List.getElem?_eq_none (by rw [List.length_replicate]; omega)]
      rfl
  · rw [if_neg h, if_neg (by omega)]

/-- Every entry of a zeroed table reads 0 (R180). -/
theorem memRead8_memZeroTable (m : Memory) {addr a : Nat} (h : addr ≤ a) (h' : a + 8 ≤ addr + 4096) :
    memRead8 (memZeroTable m addr) a = 0#64 := by
  refine word_eq_of_bytes fun k hk => ?_
  rw [memRead8_byte _ _ hk, memByte_memZeroTable, if_pos (by omega)]
  refine BitVec.eq_of_toNat_eq ?_
  simp

/-- Zeroing a table leaves every entry read outside it alone. -/
theorem memRead8_memZeroTable_of_disjoint (m : Memory) {addr a : Nat} (h : a + 8 ≤ addr ∨ addr + 4096 ≤ a) :
    memRead8 (memZeroTable m addr) a = memRead8 m a :=
  memRead8_congr fun k hk => by rw [memByte_memZeroTable, if_neg (by omega)]

/-! ### The canonical form -/

theorem wf_nil : Memory.wf [] := ⟨List.Pairwise.nil, by simp⟩

/-- A store inside the address space keeps the canonical form. -/
theorem wf_memWrite {m : Memory} (hm : Memory.wf m) {addr : Nat} {bytes : List Byte}
    (h : addr + bytes.length ≤ Config.physLimit) : Memory.wf (memWrite m addr bytes) := by
  obtain ⟨hr, hb⟩ := hm
  constructor
  · refine List.pairwise_append.2 ⟨List.pairwise_append.2 ⟨hr.filter _, cellsAt_rising _ _, ?_⟩, hr.filter _, ?_⟩
    · intro c hc d hd
      have h1 := (List.mem_filter.1 hc).2
      have h2 := cellsAt_bounds hd
      simp only [decide_eq_true_eq] at h1
      omega
    · intro c hc d hd
      have h2 := (List.mem_filter.1 hd).2
      simp only [decide_eq_true_eq] at h2
      rcases List.mem_append.1 hc with hc | hc
      · have h1 := (List.mem_filter.1 hc).2
        simp only [decide_eq_true_eq] at h1
        omega
      · have h1 := cellsAt_bounds hc
        omega
  · intro c hc
    rcases List.mem_append.1 hc with hc | hc
    · rcases List.mem_append.1 hc with hc | hc
      · exact hb c (List.mem_filter.1 hc).1
      · have := cellsAt_bounds hc
        omega
    · exact hb c (List.mem_filter.1 hc).1

theorem wf_memWrite8 {m : Memory} (hm : Memory.wf m) {addr : Nat} (w : Word)
    (h : addr + 8 ≤ Config.physLimit) : Memory.wf (memWrite8 m addr w) :=
  wf_memWrite hm (by simpa using h)

theorem wf_memZeroTable {m : Memory} (hm : Memory.wf m) {addr : Nat}
    (h : addr + 4096 ≤ Config.physLimit) : Memory.wf (memZeroTable m addr) := by
  rw [memZeroTable]
  exact wf_memWrite hm (by rwa [List.length_replicate])

/-- Equal memories are equal data: two canonical memories that list the same bytes at the same addresses are the same
list. -/
theorem memory_ext {m n : Memory} (hm : Memory.wf m) (hn : Memory.wf n) (h : ∀ a, m.lookup a = n.lookup a) : m = n := by
  obtain ⟨hm, -⟩ := hm
  obtain ⟨hn, -⟩ := hn
  induction m generalizing n with
  | nil =>
    cases n with
    | nil => rfl
    | cons d n =>
      have := h d.1
      rw [List.lookup_cons] at this
      simp at this
  | cons c m ih =>
    cases n with
    | nil =>
      have := h c.1
      rw [List.lookup_cons] at this
      simp at this
    | cons d n =>
      obtain ⟨hc, hm'⟩ := List.pairwise_cons.1 hm
      obtain ⟨hd, hn'⟩ := List.pairwise_cons.1 hn
      have none_of_lt : ∀ {l : Memory} {x : Nat}, (∀ e ∈ l, x < e.1) → l.lookup x = none := by
        intro l x hl
        induction l with
        | nil => rfl
        | cons e l ih' =>
          have h1 := hl e (by simp)
          have : (x == e.1) = false := by simp; omega
          rw [List.lookup_cons, this]
          exact ih' fun f hf => hl f (by simp [hf])
      have hcd : c.1 = d.1 := by
        rcases Nat.lt_trichotomy c.1 d.1 with hlt | heq | hgt
        · have := h c.1
          rw [List.lookup_cons, none_of_lt (l := d :: n) (by
            intro e he
            rcases List.mem_cons.1 he with rfl | he
            · exact hlt
            · exact Nat.lt_trans hlt (hd e he))] at this
          simp at this
        · exact heq
        · have := h d.1
          rw [List.lookup_cons (k := d.1) (as := n), none_of_lt (l := c :: m) (by
            intro e he
            rcases List.mem_cons.1 he with rfl | he
            · exact hgt
            · exact Nat.lt_trans hgt (hc e he))] at this
          simp at this
      have hv : c.2 = d.2 := by
        have := h c.1
        rw [List.lookup_cons, List.lookup_cons] at this
        simpa [hcd] using this
      have htail : m = n := by
        refine ih (fun a => ?_) hm' hn'
        by_cases ha : a = c.1
        · subst ha
          rw [none_of_lt hc, none_of_lt (by simpa [hcd] using hd)]
        · have := h a
          rw [List.lookup_cons, List.lookup_cons] at this
          have h1 : (a == c.1) = false := by simpa using ha
          have h2 : (a == d.1) = false := by simpa [← hcd] using ha
          simpa [h1, h2] using this
      rw [Prod.ext hcd hv, htail]

end Sys2Proof.Machine
end

