-- ==== Sys2Proof/Laws/State.lean ====
section
/-! SUPPORT. One lemma per field per update of the state, so that later proofs unfold no update. -/

namespace Sys2Proof.Machine

/-! ### `answer`, `raise`, `setPcr`, `flush`, `tick` -/

section
variable (s : State) (v : Word) (st : Status)

@[simp] theorem answer_pcr : (s.answer v).pcr = s.pcr := rfl
@[simp] theorem answer_tlb : (s.answer v).tlb = s.tlb := rfl
@[simp] theorem answer_mem : (s.answer v).mem = s.mem := rfl
@[simp] theorem answer_resp : (s.answer v).resp = some ⟨.ok, v⟩ := rfl
@[simp] theorem answer_platform : (s.answer v).platform = s.platform := rfl
@[simp] theorem answer_program : (s.answer v).program = s.program := rfl
@[simp] theorem answer_allocs : (s.answer v).allocs = s.allocs := rfl
@[simp] theorem answer_intMasked : (s.answer v).intMasked = s.intMasked := rfl
@[simp] theorem answer_booted : (s.answer v).booted = s.booted := rfl
@[simp] theorem answer_halted : (s.answer v).halted = s.halted := rfl
@[simp] theorem answer_hostResp : (s.answer v).hostResp = s.hostResp := rfl
@[simp] theorem answer_listing : (s.answer v).listing = s.listing := rfl
@[simp] theorem answer_draws : (s.answer v).draws = s.draws := rfl
@[simp] theorem answer_cache : (s.answer v).cache = s.cache := rfl

@[simp] theorem raise_pcr : (s.raise st).pcr = s.pcr := rfl
@[simp] theorem raise_tlb : (s.raise st).tlb = s.tlb := rfl
@[simp] theorem raise_mem : (s.raise st).mem = s.mem := rfl
@[simp] theorem raise_resp : (s.raise st).resp = some ⟨st, 0#64⟩ := rfl
@[simp] theorem raise_platform : (s.raise st).platform = s.platform := rfl
@[simp] theorem raise_program : (s.raise st).program = s.program := rfl
@[simp] theorem raise_allocs : (s.raise st).allocs = s.allocs := rfl
@[simp] theorem raise_intMasked : (s.raise st).intMasked = s.intMasked := rfl
@[simp] theorem raise_booted : (s.raise st).booted = s.booted := rfl
@[simp] theorem raise_halted : (s.raise st).halted = s.halted := rfl
@[simp] theorem raise_hostResp : (s.raise st).hostResp = s.hostResp := rfl
@[simp] theorem raise_listing : (s.raise st).listing = s.listing := rfl
@[simp] theorem raise_draws : (s.raise st).draws = s.draws := rfl
@[simp] theorem raise_cache : (s.raise st).cache = s.cache := rfl

@[simp] theorem setPcr_pcr : (s.setPcr v).pcr = v := rfl
@[simp] theorem setPcr_tlb : (s.setPcr v).tlb = s.tlb := rfl
@[simp] theorem setPcr_mem : (s.setPcr v).mem = s.mem := rfl
@[simp] theorem setPcr_resp : (s.setPcr v).resp = s.resp := rfl
@[simp] theorem setPcr_platform : (s.setPcr v).platform = s.platform := rfl
@[simp] theorem setPcr_program : (s.setPcr v).program = s.program := rfl
@[simp] theorem setPcr_allocs : (s.setPcr v).allocs = s.allocs := rfl
@[simp] theorem setPcr_intMasked : (s.setPcr v).intMasked = s.intMasked := rfl
@[simp] theorem setPcr_booted : (s.setPcr v).booted = s.booted := rfl
@[simp] theorem setPcr_halted : (s.setPcr v).halted = s.halted := rfl
@[simp] theorem setPcr_hostResp : (s.setPcr v).hostResp = s.hostResp := rfl
@[simp] theorem setPcr_listing : (s.setPcr v).listing = s.listing := rfl
@[simp] theorem setPcr_draws : (s.setPcr v).draws = s.draws := rfl

@[simp] theorem flush_pcr : s.flush.pcr = s.pcr := rfl
@[simp] theorem flush_tlb : s.flush.tlb = [] := rfl
@[simp] theorem flush_mem : s.flush.mem = s.mem := rfl
@[simp] theorem flush_resp : s.flush.resp = s.resp := rfl
@[simp] theorem flush_platform : s.flush.platform = s.platform := rfl
@[simp] theorem flush_program : s.flush.program = s.program := rfl
@[simp] theorem flush_allocs : s.flush.allocs = s.allocs := rfl
@[simp] theorem flush_intMasked : s.flush.intMasked = s.intMasked := rfl
@[simp] theorem flush_booted : s.flush.booted = s.booted := rfl
@[simp] theorem flush_halted : s.flush.halted = s.halted := rfl
@[simp] theorem flush_hostResp : s.flush.hostResp = s.hostResp := rfl
@[simp] theorem flush_listing : s.flush.listing = s.listing := rfl
@[simp] theorem flush_draws : s.flush.draws = s.draws := rfl

@[simp] theorem tick_pcr : s.tick.pcr = s.pcr := rfl
@[simp] theorem tick_tlb : s.tick.tlb = s.tlb := rfl
@[simp] theorem tick_mem : s.tick.mem = s.mem := rfl
@[simp] theorem tick_resp : s.tick.resp = s.resp := rfl
@[simp] theorem tick_platform : s.tick.platform = s.platform := rfl
@[simp] theorem tick_program : s.tick.program = s.program := rfl
@[simp] theorem tick_allocs : s.tick.allocs = s.allocs := rfl
@[simp] theorem tick_intMasked : s.tick.intMasked = s.intMasked := rfl
@[simp] theorem tick_booted : s.tick.booted = s.booted := rfl
@[simp] theorem tick_halted : s.tick.halted = s.halted := rfl
@[simp] theorem tick_hostResp : s.tick.hostResp = s.hostResp := rfl
@[simp] theorem tick_listing : s.tick.listing = s.listing := rfl
@[simp] theorem tick_draws : s.tick.draws = s.draws + 1 := rfl
@[simp] theorem tick_cache : s.tick.cache = s.cache := rfl

end

/-! ### The cache as `XLATE` sees it -/

theorem cache_of_present {s : State} (h : s.platform.tlbPresent = true) : s.cache = s.tlb := by simp [State.cache, h]

theorem cache_of_absent {s : State} (h : s.platform.tlbPresent = false) : s.cache = [] := by simp [State.cache, h]

/-- The cache that `XLATE` sees depends on the platform and the cache field only. -/
theorem cache_congr {s t : State} (h1 : t.platform = s.platform) (h2 : t.tlb = s.tlb) : t.cache = s.cache := by
  simp [State.cache, h1, h2]

/-- `evict` changes the cache only. -/
theorem evict_eq (s : State) (ch : Choice) :
    s.evict ch = { s with tlb := if s.platform.tlbPresent then cacheEvict ch s.tlb else s.tlb } := by
  unfold State.evict; split <;> rfl

/-- `fill` changes the cache only. -/
theorem fill_eq (s : State) (ch : Choice) (va : Word) (l : Level) (e : Word) :
    s.fill ch va l e =
      { s with tlb := if s.platform.tlbPresent && ch.fill then cacheInsert ⟨l, tagOf va l, e⟩ s.tlb else s.tlb } := by
  unfold State.fill; split <;> rfl

/-- The response to a walk changes the response only. -/
theorem answerWalk_eq (s : State) (va : Word) (r : WalkResult) :
    s.answerWalk va r = { s with resp := (s.answerWalk va r).resp } := by
  cases r <;> rfl

section
variable (s : State) (ch : Choice) (va : Word) (l : Level) (e : Word) (r : WalkResult)

@[simp] theorem evict_pcr : (s.evict ch).pcr = s.pcr := by simp [evict_eq]
@[simp] theorem evict_mem : (s.evict ch).mem = s.mem := by simp [evict_eq]
@[simp] theorem evict_resp : (s.evict ch).resp = s.resp := by simp [evict_eq]
@[simp] theorem evict_platform : (s.evict ch).platform = s.platform := by simp [evict_eq]
@[simp] theorem evict_program : (s.evict ch).program = s.program := by simp [evict_eq]
@[simp] theorem evict_allocs : (s.evict ch).allocs = s.allocs := by simp [evict_eq]
@[simp] theorem evict_intMasked : (s.evict ch).intMasked = s.intMasked := by simp [evict_eq]
@[simp] theorem evict_booted : (s.evict ch).booted = s.booted := by simp [evict_eq]
@[simp] theorem evict_halted : (s.evict ch).halted = s.halted := by simp [evict_eq]
@[simp] theorem evict_hostResp : (s.evict ch).hostResp = s.hostResp := by simp [evict_eq]
@[simp] theorem evict_listing : (s.evict ch).listing = s.listing := by simp [evict_eq]
@[simp] theorem evict_draws : (s.evict ch).draws = s.draws := by simp [evict_eq]
@[simp] theorem evict_cache : (s.evict ch).cache = cacheEvict ch s.cache := by
  cases h : s.platform.tlbPresent <;> simp [State.cache, evict_eq, h, cacheEvict]

@[simp] theorem fill_pcr : (s.fill ch va l e).pcr = s.pcr := by simp [fill_eq]
@[simp] theorem fill_mem : (s.fill ch va l e).mem = s.mem := by simp [fill_eq]
@[simp] theorem fill_resp : (s.fill ch va l e).resp = s.resp := by simp [fill_eq]
@[simp] theorem fill_platform : (s.fill ch va l e).platform = s.platform := by simp [fill_eq]
@[simp] theorem fill_program : (s.fill ch va l e).program = s.program := by simp [fill_eq]
@[simp] theorem fill_allocs : (s.fill ch va l e).allocs = s.allocs := by simp [fill_eq]
@[simp] theorem fill_intMasked : (s.fill ch va l e).intMasked = s.intMasked := by simp [fill_eq]
@[simp] theorem fill_booted : (s.fill ch va l e).booted = s.booted := by simp [fill_eq]
@[simp] theorem fill_halted : (s.fill ch va l e).halted = s.halted := by simp [fill_eq]
@[simp] theorem fill_hostResp : (s.fill ch va l e).hostResp = s.hostResp := by simp [fill_eq]
@[simp] theorem fill_listing : (s.fill ch va l e).listing = s.listing := by simp [fill_eq]
@[simp] theorem fill_draws : (s.fill ch va l e).draws = s.draws := by simp [fill_eq]
@[simp] theorem fill_cache : (s.fill ch va l e).cache =
    if s.platform.tlbPresent && ch.fill then cacheInsert ⟨l, tagOf va l, e⟩ s.cache else s.cache := by
  cases h : s.platform.tlbPresent <;> cases h' : ch.fill <;> simp [State.cache, fill_eq, h, h']

@[simp] theorem answerWalk_pcr : (s.answerWalk va r).pcr = s.pcr := by cases r <;> rfl
@[simp] theorem answerWalk_tlb : (s.answerWalk va r).tlb = s.tlb := by cases r <;> rfl
@[simp] theorem answerWalk_mem : (s.answerWalk va r).mem = s.mem := by cases r <;> rfl
@[simp] theorem answerWalk_platform : (s.answerWalk va r).platform = s.platform := by cases r <;> rfl
@[simp] theorem answerWalk_program : (s.answerWalk va r).program = s.program := by cases r <;> rfl
@[simp] theorem answerWalk_allocs : (s.answerWalk va r).allocs = s.allocs := by cases r <;> rfl
@[simp] theorem answerWalk_intMasked : (s.answerWalk va r).intMasked = s.intMasked := by cases r <;> rfl
@[simp] theorem answerWalk_booted : (s.answerWalk va r).booted = s.booted := by cases r <;> rfl
@[simp] theorem answerWalk_halted : (s.answerWalk va r).halted = s.halted := by cases r <;> rfl
@[simp] theorem answerWalk_hostResp : (s.answerWalk va r).hostResp = s.hostResp := by cases r <;> rfl
@[simp] theorem answerWalk_listing : (s.answerWalk va r).listing = s.listing := by cases r <;> rfl
@[simp] theorem answerWalk_draws : (s.answerWalk va r).draws = s.draws := by cases r <;> rfl
@[simp] theorem answerWalk_cache : (s.answerWalk va r).cache = s.cache := by cases r <;> rfl

/-- The response to a walk does not depend on the rest of the state. -/
theorem answerWalk_resp_congr (t : State) : (s.answerWalk va r).resp = (t.answerWalk va r).resp := by cases r <;> rfl

end

/-! ### The frame allocators -/

section
variable (s : State) (al : Nat) (fs : List Word) (f : Word)

@[simp] theorem setAllocator_pcr : (s.setAllocator al fs).pcr = s.pcr := rfl
@[simp] theorem setAllocator_tlb : (s.setAllocator al fs).tlb = s.tlb := rfl
@[simp] theorem setAllocator_mem : (s.setAllocator al fs).mem = s.mem := rfl
@[simp] theorem setAllocator_resp : (s.setAllocator al fs).resp = s.resp := rfl
@[simp] theorem setAllocator_platform : (s.setAllocator al fs).platform = s.platform := rfl
@[simp] theorem setAllocator_program : (s.setAllocator al fs).program = s.program := rfl
@[simp] theorem setAllocator_allocs : (s.setAllocator al fs).allocs = s.allocs.set al fs := rfl
@[simp] theorem setAllocator_intMasked : (s.setAllocator al fs).intMasked = s.intMasked := rfl
@[simp] theorem setAllocator_booted : (s.setAllocator al fs).booted = s.booted := rfl
@[simp] theorem setAllocator_halted : (s.setAllocator al fs).halted = s.halted := rfl
@[simp] theorem setAllocator_hostResp : (s.setAllocator al fs).hostResp = s.hostResp := rfl
@[simp] theorem setAllocator_listing : (s.setAllocator al fs).listing = s.listing := rfl
@[simp] theorem setAllocator_draws : (s.setAllocator al fs).draws = s.draws := rfl

/-- Giving a frame back changes the one allocator only. -/
theorem deallocateFrame_eq :
    deallocateFrame al f s = { s with allocs := s.allocs.set al (Config.deallocate al (s.allocator al) f) } := rfl

@[simp] theorem setAllocator_setAllocator (gs : List Word) :
    (s.setAllocator al fs).setAllocator al gs = s.setAllocator al gs := by
  simp [State.setAllocator]

@[simp] theorem setAllocator_self : s.setAllocator al (s.allocator al) = s := by
  have h : s.allocs.set al (s.allocator al) = s.allocs := by
    by_cases h : al < s.allocs.length
    · simp [State.allocator, h]
    · exact List.set_eq_of_length_le (Nat.le_of_not_lt h)
  simp only [State.setAllocator, h]

/-- The allocator of a number depends on the allocators only. -/
theorem allocator_congr {s t : State} (h : t.allocs = s.allocs) : t.allocator al = s.allocator al := by
  simp [State.allocator, h]

/-- An allocator that gives out a frame is one of the host's, and setting it sets it. -/
theorem setAllocator_allocator_same {g : Word} {gs : List Word} (h : s.allocator al = g :: gs) :
    (s.setAllocator al fs).allocator al = fs := by
  have hl : al < s.allocs.length := by
    by_contra hl
    simp [State.allocator, List.getD_eq_getElem?_getD, List.getElem?_eq_none (Nat.le_of_not_lt hl)] at h
  simp [State.allocator, hl]

/-- The other allocators stay. -/
theorem setAllocator_allocator_other {bl : Nat} (h : bl ≠ al) :
    (s.setAllocator al fs).allocator bl = s.allocator bl := by
  simp [State.allocator, List.getElem?_set_ne (Ne.symm h)]

end

/-! ### The block's reset -/

section
variable (s : State)

@[simp] theorem resetBlock_pcr : s.resetBlock.pcr = 0#64 := rfl
@[simp] theorem resetBlock_mem : s.resetBlock.mem = s.mem := rfl
@[simp] theorem resetBlock_resp : s.resetBlock.resp = none := rfl
@[simp] theorem resetBlock_platform : s.resetBlock.platform = s.platform := rfl
@[simp] theorem resetBlock_program : s.resetBlock.program = s.program := rfl
@[simp] theorem resetBlock_allocs : s.resetBlock.allocs = s.allocs := rfl
@[simp] theorem resetBlock_intMasked : s.resetBlock.intMasked = s.intMasked := rfl
@[simp] theorem resetBlock_booted : s.resetBlock.booted = s.booted := rfl
@[simp] theorem resetBlock_halted : s.resetBlock.halted = s.halted := rfl
@[simp] theorem resetBlock_hostResp : s.resetBlock.hostResp = s.hostResp := rfl
@[simp] theorem resetBlock_listing : s.resetBlock.listing = s.listing := rfl
@[simp] theorem resetBlock_tlb : s.resetBlock.tlb =
    if s.platform.tlbPresent then cacheOfList (Config.resetCache s.draws) else [] := rfl
@[simp] theorem resetBlock_draws : s.resetBlock.draws = s.draws + 1 := rfl

end

end Sys2Proof.Machine
end

