-- ==== Sys2Proof/Laws/Walk.lean ====
section
/-! SUPPORT. What the walk, the constructor selector and the translation can do, said once. -/

namespace Sys2Proof.Machine

/-! ### The constructor selector (R100) -/

/-- The four selector values (R75). -/
theorem sel_cases : ∀ sel : BitVec 2, sel = 0#2 ∨ sel = 1#2 ∨ sel = 2#2 ∨ sel = 3#2 := by decide

theorem construct_three (raw : Word) : construct 3#2 raw = .error .illegalCommand := rfl

theorem construct_zero_of_not_canon {raw : Word} (h : canon raw = false) :
    construct 0#2 raw = .error .invalidAddress := by simp [construct, h]

/-- Where neither cause of a refusal is there, an address is constructed. -/
theorem construct_ok {sel : BitVec 2} {raw : Word} (h : sel ≠ 3#2) (hc : sel = 0#2 → canon raw = true) :
    ∃ va, construct sel raw = .ok va ∧ (va = raw ∨ va = sext39 raw) := by
  rcases sel_cases sel with rfl | rfl | rfl | rfl
  · exact ⟨raw, by simp [construct, hc rfl], .inl rfl⟩
  · exact ⟨sext39 raw, rfl, .inr rfl⟩
  · exact ⟨raw, rfl, .inl rfl⟩
  · exact absurd rfl h

/-- A refused construction says which cause it was. -/
theorem construct_error {sel : BitVec 2} {raw : Word} {st : Status} (h : construct sel raw = .error st) :
    (sel = 3#2 ∧ st = .illegalCommand) ∨ (sel = 0#2 ∧ canon raw = false ∧ st = .invalidAddress) := by
  rcases sel_cases sel with rfl | rfl | rfl | rfl
  · by_cases hc : canon raw = true
    · simp [construct, hc] at h
    · simp only [Bool.not_eq_true] at hc
      simp [construct, hc] at h
      exact .inr ⟨rfl, hc, h.symm⟩
  · simp [construct] at h
  · simp [construct] at h
  · simp [construct] at h
    exact .inl ⟨rfl, h.symm⟩

/-! ### Reading an entry (R47) -/

theorem readEntry_of_populated {p : Platform} {m : Memory} {addr : Word} (h : memPopulated p addr.toNat = true) :
    readEntry p m addr = some (memRead8 m addr.toNat) := by simp [readEntry, h]

theorem readEntry_of_not_populated {p : Platform} {m : Memory} {addr : Word}
    (h : memPopulated p addr.toNat = false) : readEntry p m addr = none := by simp [readEntry, h]

theorem readEntry_some {p : Platform} {m : Memory} {addr e : Word} (h : readEntry p m addr = some e) :
    memPopulated p addr.toNat = true ∧ memRead8 m addr.toNat = e := by
  unfold readEntry at h
  split at h
  · exact ⟨‹_›, by simpa using h⟩
  · simp at h

/-! ### One level of the walk (R143) -/

section
variable {p : Platform} {m : Memory} {va frame e : Word} {l : Level} {ls : List Level}

theorem walkFrom_noMemory (h : readEntry p m (slotAddr frame va l) = none) :
    walkFrom p m va (l :: ls) frame = .noMemory := by simp [walkFrom, h]

theorem walkFrom_invalid (h : readEntry p m (slotAddr frame va l) = some e) (hv : isValid e = false) :
    walkFrom p m va (l :: ls) frame = .unmapped := by simp [walkFrom, h, hv]

theorem walkFrom_leaf (h : readEntry p m (slotAddr frame va l) = some e) (hl : isLeaf e = true) :
    walkFrom p m va (l :: ls) frame = .leaf l e := by simp [walkFrom, h, hl, isValid_of_isLeaf hl]

theorem walkFrom_pointer (h : readEntry p m (slotAddr frame va l) = some e) (hp : isPointer e = true) :
    walkFrom p m va (l :: ls) frame = walkFrom p m va ls (pteAddr e) := by
  simp only [isPointer, Bool.and_eq_true, Bool.not_eq_true'] at hp
  simp [walkFrom, h, hp.1, hp.2]

/-- At each level exactly one of four things happens (R144). -/
theorem walkFrom_cases (p : Platform) (m : Memory) (va frame : Word) (l : Level) (ls : List Level) :
    (readEntry p m (slotAddr frame va l) = none ∧ walkFrom p m va (l :: ls) frame = .noMemory) ∨
    ∃ e, readEntry p m (slotAddr frame va l) = some e ∧
      ((isValid e = false ∧ walkFrom p m va (l :: ls) frame = .unmapped) ∨
       (isLeaf e = true ∧ walkFrom p m va (l :: ls) frame = .leaf l e) ∨
       (isPointer e = true ∧ walkFrom p m va (l :: ls) frame = walkFrom p m va ls (pteAddr e))) := by
  cases h : readEntry p m (slotAddr frame va l) with
  | none => exact .inl ⟨rfl, walkFrom_noMemory h⟩
  | some e =>
    refine .inr ⟨e, rfl, ?_⟩
    by_cases hl : isLeaf e = true
    · exact .inr (.inl ⟨hl, walkFrom_leaf h hl⟩)
    · by_cases hv : isValid e = true
      · have hp : isPointer e = true := by simp [isPointer, hv, hl]
        exact .inr (.inr ⟨hp, walkFrom_pointer h hp⟩)
      · simp only [Bool.not_eq_true] at hv
        exact .inl ⟨hv, walkFrom_invalid h hv⟩

end

/-- A walk that ends at a leaf ends at a leaf word, at one of the levels visited. -/
theorem walkFrom_leaf_spec {p : Platform} {m : Memory} {va frame e : Word} {l : Level} {ls : List Level}
    (h : walkFrom p m va ls frame = .leaf l e) : isLeaf e = true ∧ l ∈ ls := by
  induction ls generalizing frame with
  | nil => simp [walkFrom] at h
  | cons k ls ih =>
    rcases walkFrom_cases p m va frame k ls with ⟨_, hw⟩ | ⟨e', _, ⟨_, hw⟩ | ⟨hl, hw⟩ | ⟨_, hw⟩⟩
    · simp [hw] at h
    · simp [hw] at h
    · rw [hw, WalkResult.leaf.injEq] at h
      exact ⟨h.2 ▸ hl, by simp [h.1]⟩
    · have := ih (hw ▸ h)
      exact ⟨this.1, List.mem_cons_of_mem _ this.2⟩

theorem walk_leaf_isLeaf {p : Platform} {m : Memory} {va root e : Word} {l : Level}
    (h : walk p m va root = .leaf l e) : isLeaf e = true := (walkFrom_leaf_spec h).1

theorem slotAddr_sext39 (frame v : Word) (l : Level) : slotAddr frame (sext39 v) l = slotAddr frame v l := by
  simp [slotAddr, vpn_sext39]

/-- The walk does not see bits 63:39 of the address (R143). -/
theorem walkFrom_sext39 (p : Platform) (m : Memory) (v frame : Word) (ls : List Level) :
    walkFrom p m (sext39 v) ls frame = walkFrom p m v ls frame := by
  induction ls generalizing frame with
  | nil => rfl
  | cons l ls ih => simp only [walkFrom, slotAddr_sext39, ih]

theorem walk_sext39 (p : Platform) (m : Memory) (v root : Word) : walk p m (sext39 v) root = walk p m v root :=
  walkFrom_sext39 p m v root _

/-- The response to a walk does not see them either. -/
theorem answerWalk_sext39 (s : State) (v : Word) (r : WalkResult) : s.answerWalk (sext39 v) r = s.answerWalk v r := by
  cases r <;> simp [State.answerWalk, leafAddr_sext39]

/-- Memories that agree on the entries a walk reads give the same walk (R149). -/
theorem walkFrom_congr {p : Platform} {m n : Memory} {va frame : Word} {ls : List Level}
    (h : ∀ addr ∈ readsFrom p m va ls frame, memRead8 n addr = memRead8 m addr) :
    walkFrom p n va ls frame = walkFrom p m va ls frame := by
  induction ls generalizing frame with
  | nil => rfl
  | cons l ls ih =>
    unfold walkFrom
    unfold readsFrom at h
    cases hr : readEntry p m (slotAddr frame va l) with
    | none =>
      have hn : readEntry p n (slotAddr frame va l) = none := by
        unfold readEntry at hr ⊢
        split at hr <;> simp_all
      simp [hn]
    | some e =>
      rw [hr] at h
      have he := readEntry_some hr
      have hn : readEntry p n (slotAddr frame va l) = some e := by
        rw [readEntry_of_populated he.1, h _ (by simp), he.2]
      simp only [hn]
      by_cases hp : isPointer e = true
      · rw [ih fun addr ha => h addr (by simp [hp, ha])]
      · simp only [isPointer, Bool.and_eq_true, Bool.not_eq_true', not_and, Bool.not_eq_false] at hp
        by_cases hv : isValid e = true
        · simp [hv, hp hv]
        · simp [hv]

/-- Addresses that agree on the tag of the level where a walk ends walk alike (R27, R165). -/
theorem walkFrom_leaf_of_tag {p : Platform} {m : Memory} {va vb frame e : Word} {l : Level} {ls : List Level}
    (hls : ls.Pairwise (fun j k => k.num < j.num)) (h : walkFrom p m va ls frame = .leaf l e)
    (ht : tagOf va l = tagOf vb l) : walkFrom p m vb ls frame = .leaf l e := by
  induction ls generalizing frame with
  | nil => simp [walkFrom] at h
  | cons k ls ih =>
    obtain ⟨hk, hls'⟩ := List.pairwise_cons.1 hls
    have hle : l.num ≤ k.num := by
      rcases List.mem_cons.1 (walkFrom_leaf_spec h).2 with rfl | hm
      · exact Nat.le_refl _
      · exact Nat.le_of_lt (hk l hm)
    have hslot : slotAddr frame vb k = slotAddr frame va k := by
      rw [slotAddr, slotAddr, vpn_eq_of_tagOf_eq ht hle]
    unfold walkFrom at h ⊢
    rw [hslot]
    cases hr : readEntry p m (slotAddr frame va k) with
    | none => simp [hr] at h
    | some e' =>
      simp only [hr] at h ⊢
      by_cases hv : isValid e' = true
      · by_cases hl : isLeaf e' = true
        · simpa [hv, hl] using h
        · simp only [hv, hl] at h ⊢
          exact ih hls' h
      · simp [hv] at h

/-- A cached leaf stands for every address it covers: the invariant behind the cache (R165, R167). -/
theorem walk_leaf_of_matches {p : Platform} {m : Memory} {va vb root e : Word} {l : Level}
    (h : walk p m va root = .leaf l e) (hm : cacheMatches vb ⟨l, tagOf va l, e⟩ = true) :
    walk p m vb root = .leaf l e := by
  simp only [cacheMatches, beq_iff_eq] at hm
  exact walkFrom_leaf_of_tag (by decide) h hm

/-- A walk visits at most as many entries as there are levels (R144). -/
theorem readsFrom_length (p : Platform) (m : Memory) (va frame : Word) (ls : List Level) :
    (readsFrom p m va ls frame).length ≤ ls.length := by
  induction ls generalizing frame with
  | nil => simp [readsFrom]
  | cons l ls ih =>
    unfold readsFrom
    cases readEntry p m (slotAddr frame va l) with
    | none => simp
    | some e =>
      by_cases hp : isPointer e = true
      · simpa [hp] using ih (pteAddr e)
      · simp [hp]

/-! ### Translation (R160) -/

/-- Everything `XLATE` can do once its preconditions hold: a hit on an entry that survived eviction, a walk that ends at
a leaf, with or without a fill, or a walk that does not. -/
theorem translate_cases (s : State) (ch : Choice) (va : Word) :
    (∃ e ∈ cacheEvict ch s.cache, cacheMatches va e = true ∧
      s.translate ch va = (s.evict ch).answer (leafAddr e.lvl e.pte va)) ∨
    (∃ l e, walk s.platform s.mem va (rootFrame s.pcr) = .leaf l e ∧
      s.translate ch va = ((s.evict ch).fill ch va l e).answer (leafAddr l e va)) ∨
    ((∀ l e, walk s.platform s.mem va (rootFrame s.pcr) ≠ .leaf l e) ∧
      s.translate ch va = (s.evict ch).answerWalk va (walk s.platform s.mem va (rootFrame s.pcr))) := by
  unfold State.translate
  cases h : cacheHit ch va (s.evict ch).cache with
  | some e =>
    rw [evict_cache] at h
    exact .inl ⟨e, (cacheHit_some h).1, (cacheHit_some h).2, by simp only [evict_cache, h]⟩
  | none =>
    right
    simp only [h, evict_platform, evict_mem, evict_pcr]
    cases hw : walk s.platform s.mem va (rootFrame s.pcr) with
    | leaf l e => exact .inl ⟨l, e, rfl, rfl⟩
    | unmapped => exact .inr ⟨by simp, rfl⟩
    | noMemory => exact .inr ⟨by simp, rfl⟩

/-- Everything `XLATE` can do (R160). -/
theorem xlate_cases (s : State) (ch : Choice) (sel : BitVec 2) (a : Word) :
    (∃ st, construct sel a = .error st ∧ s.xlate ch sel a = s.raise st) ∨
    (∃ va, construct sel a = .ok va ∧ pcrMode s.pcr ≠ 8#4 ∧ s.xlate ch sel a = s.raise .contractViolation) ∨
    (∃ va, construct sel a = .ok va ∧ pcrMode s.pcr = 8#4 ∧ s.xlate ch sel a = s.translate ch va) := by
  unfold State.xlate
  cases h : construct sel a with
  | error st => exact .inl ⟨st, rfl, rfl⟩
  | ok va =>
    right
    by_cases hm : pcrMode s.pcr = 8#4
    · exact .inr ⟨va, rfl, hm, by simp [Config.modeSv39, hm]⟩
    · exact .inl ⟨va, rfl, hm, by simp [Config.modeSv39, hm]⟩

/-- `XLATE` writes the response and the cache only. -/
theorem xlate_frame (s : State) (ch : Choice) (sel : BitVec 2) (a : Word) :
    s.xlate ch sel a = { s with resp := (s.xlate ch sel a).resp, tlb := (s.xlate ch sel a).tlb } := by
  rcases xlate_cases s ch sel a with ⟨st, _, h⟩ | ⟨va, _, _, h⟩ | ⟨va, _, _, h⟩
  · rw [h]; rfl
  · rw [h]; rfl
  · rw [h]
    rcases translate_cases s ch va with ⟨e, _, _, h⟩ | ⟨l, e, _, h⟩ | ⟨_, h⟩
    · rw [h, evict_eq]; rfl
    · rw [h, fill_eq, evict_eq]; rfl
    · rw [h, answerWalk_eq, evict_eq]

end Sys2Proof.Machine
end

