-- ==== Sys2Proof/Laws/HostProcedures.lean ====
section
/-! SUPPORT. What each host procedure can do, said once. -/

namespace Sys2Proof.Machine

/-! ### Access to memory -/

theorem allPopulated_bound {p : Platform} {addr n : Nat} (h : allPopulated p addr n = true) :
    addr + n ≤ Config.physLimit := by
  simp only [allPopulated, Bool.and_eq_true, decide_eq_true_eq] at h
  exact h.1

theorem allPopulated_byte {p : Platform} {addr n k : Nat} (h : allPopulated p addr n = true) (hk : k < n) :
    memPopulated p (addr + k) = true := by
  simp only [allPopulated, Bool.and_eq_true, List.all_eq_true, List.mem_range] at h
  exact h.2 k hk

theorem allPopulated_sub {p : Platform} {addr n a k : Nat} (h : allPopulated p addr n = true) (h1 : addr ≤ a)
    (h2 : a + k ≤ addr + n) : allPopulated p a k = true := by
  have hb := allPopulated_bound h
  simp only [allPopulated, Bool.and_eq_true, decide_eq_true_eq, List.all_eq_true, List.mem_range]
  refine ⟨by omega, fun i hi => ?_⟩
  have := allPopulated_byte h (k := a - addr + i) (by omega)
  rwa [show addr + (a - addr + i) = a + i by omega] at this

/-- A host procedure reaches memory exactly where it exists and is mapped to itself. -/
theorem hostReach_ok {s : State} {addr : Word} {n : Nat} {u : Unit} :
    hostReach s addr n = .ok u ↔ allPopulated s.platform addr.toNat n = true ∧ identityMapped s addr = true := by
  unfold hostReach
  cases allPopulated s.platform addr.toNat n <;> cases identityMapped s addr <;> simp

theorem identityMapped_of_off {s : State} (h : pcrMode s.pcr ≠ 8#4) (addr : Word) : identityMapped s addr = true := by
  simp [identityMapped, Config.modeSv39, h]

theorem hostLoad_ok {s : State} {slot e : Word} :
    hostLoad s slot = .ok e ↔
      allPopulated s.platform slot.toNat 8 = true ∧ identityMapped s slot = true ∧ memRead8 s.mem slot.toNat = e := by
  unfold hostLoad
  cases h : hostReach s slot 8 with
  | error f =>
    have : ¬ (allPopulated s.platform slot.toNat 8 = true ∧ identityMapped s slot = true) := fun hh => by
      rw [(hostReach_ok (u := ())).2 hh] at h
      simp at h
    simp only [reduceCtorEq, false_iff]
    exact fun hh => this ⟨hh.1, hh.2.1⟩
  | ok u =>
    have := hostReach_ok.1 h
    simp [this.1, this.2]

theorem hostStore_ok {s t : State} {slot w : Word} :
    hostStore s slot w = .ok t ↔
      allPopulated s.platform slot.toNat 8 = true ∧ identityMapped s slot = true ∧
        { s with mem := memWrite8 s.mem slot.toNat w } = t := by
  unfold hostStore
  cases h : hostReach s slot 8 with
  | error f =>
    have : ¬ (allPopulated s.platform slot.toNat 8 = true ∧ identityMapped s slot = true) := fun hh => by
      rw [(hostReach_ok (u := ())).2 hh] at h
      simp at h
    simp only [reduceCtorEq, false_iff]
    exact fun hh => this ⟨hh.1, hh.2.1⟩
  | ok u =>
    have := hostReach_ok.1 h
    simp [this.1, this.2]

theorem hostWrite_ok {s t : State} {addr : Word} {n v : Nat} :
    hostWrite addr n v s = .ok t ↔
      allPopulated s.platform addr.toNat n = true ∧ { s with mem := memWrite s.mem addr.toNat (leBytes n v) } = t := by
  unfold hostWrite
  cases h : allPopulated s.platform addr.toNat n <;> simp

theorem ptZero_ok {s t : State} {f : Word} :
    ptZero f s = .ok t ↔
      frameOk f = true ∧ allPopulated s.platform f.toNat 4096 = true ∧ identityMapped s f = true ∧
        { s with mem := memZeroTable s.mem f.toNat } = t := by
  unfold ptZero
  cases hf : frameOk f with
  | false => simp
  | true =>
    cases h : hostReach s f 4096 with
    | error x =>
      have : ¬ (allPopulated s.platform f.toNat 4096 = true ∧ identityMapped s f = true) := fun hh => by
        rw [(hostReach_ok (u := ())).2 hh] at h
        simp at h
      simp only [Bool.not_true, Bool.false_eq_true, if_false, reduceCtorEq, true_and, false_iff]
      exact fun hh => this ⟨hh.1, hh.2.1⟩
    | ok u =>
      have := hostReach_ok.1 h
      simp [this.1, this.2]

theorem ptValidEntries_ok {s t : State} {f : Word} :
    ptValidEntries f s = .ok t ↔
      frameOk f = true ∧ allPopulated s.platform f.toNat 4096 = true ∧ identityMapped s f = true ∧
        { s with listing := validEntriesOf s.mem f } = t := by
  unfold ptValidEntries
  cases hf : frameOk f with
  | false => simp
  | true =>
    cases h : hostReach s f 4096 with
    | error x =>
      have : ¬ (allPopulated s.platform f.toNat 4096 = true ∧ identityMapped s f = true) := fun hh => by
        rw [(hostReach_ok (u := ())).2 hh] at h
        simp at h
      simp only [Bool.not_true, Bool.false_eq_true, if_false, reduceCtorEq, true_and, false_iff]
      exact fun hh => this ⟨hh.1, hh.2.1⟩
    | ok u =>
      have := hostReach_ok.1 h
      simp [this.1, this.2]

/-! ### The Mapper -/

/-- Everything the target of a `MAP` can do (R183, R184). -/
theorem mapTarget_ok {page frame cur : Word} {flags : FlagByte} {level : Level} {s t : State} {r : Response}
    (h : mapTarget page frame flags level cur s = .ok (r, t)) :
    ∃ e, hostLoad s (slotAddr cur page level) = .ok e ∧
      ((isValid e = true ∧ r = ⟨.pageAlreadyMapped, pteAddr e⟩ ∧ t = s) ∨
       (isValid e = false ∧ frameOk frame = false ∧ r = ⟨.contractViolation, 0#64⟩ ∧ t = s) ∨
       (isValid e = false ∧ frameOk frame = true ∧ r = ⟨.ok, 0#64⟩ ∧
          hostStore s (slotAddr cur page level) (pteWord frame flags) = .ok t)) := by
  unfold mapTarget at h
  cases hl : hostLoad s (slotAddr cur page level) with
  | error x => simp [hl] at h
  | ok e =>
    refine ⟨e, rfl, ?_⟩
    simp only [hl] at h
    cases hv : isValid e with
    | true =>
      simp only [hv, if_true, Except.ok.injEq, Prod.mk.injEq] at h
      exact .inl ⟨rfl, h.1.symm, h.2.symm⟩
    | false =>
      right
      cases hf : frameOk frame with
      | false =>
        simp only [hv, hf, Bool.false_eq_true, if_false, Bool.not_false, if_true, Except.ok.injEq, Prod.mk.injEq] at h
        exact .inl ⟨rfl, rfl, h.1.symm, h.2.symm⟩
      | true =>
        simp only [hv, hf, Bool.false_eq_true, if_false, Bool.not_true] at h
        cases hs : hostStore s (slotAddr cur page level) (pteWord frame flags) with
        | error x => simp [hs] at h
        | ok u =>
          simp only [hs, Except.ok.injEq, Prod.mk.injEq] at h
          exact .inr ⟨rfl, rfl, h.1.symm, by rw [h.2]⟩

/-- Everything one level of a `MAP`'s descent can do (R183, R184, R186). -/
theorem mapDown_cons_ok {keep : Bool} {page frame cur : Word} {flags : FlagByte} {level l : Level} {ls : List Level}
    {al : Nat} {s t : State} {r : Response} (h : mapDown keep page frame flags level al (l :: ls) cur s = .ok (r, t)) :
    ∃ e, hostLoad s (slotAddr cur page l) = .ok e ∧
      ((isLeaf e = true ∧ r = ⟨.parentEntryHugePage, 0#64⟩ ∧ t = s) ∨
       (isPointer e = true ∧ mapDown keep page frame flags level al ls (pteAddr e) s = .ok (r, t)) ∨
       (isValid e = false ∧ s.allocator al = [] ∧ r = ⟨.frameAllocationFailed, 0#64⟩ ∧ t = s) ∨
       (isValid e = false ∧ ∃ f fs s1 s2 s3, s.allocator al = f :: fs ∧ ptZero f (s.setAllocator al fs) = .ok s1 ∧
          hostStore s1 (slotAddr cur page l) (pteWord f 1#8) = .ok s2 ∧
          mapDown keep page frame flags level al ls (pteAddr (pteWord f 1#8)) s2 = .ok (r, s3) ∧
          t = if r.st == .ok || keep then s3 else undoGrow al (slotAddr cur page l) e f s3)) := by
  unfold mapDown at h
  cases hl : hostLoad s (slotAddr cur page l) with
  | error x => simp [hl] at h
  | ok e =>
    refine ⟨e, rfl, ?_⟩
    simp only [hl] at h
    by_cases hle : isLeaf e = true
    · simp only [hle, if_true, Except.ok.injEq, Prod.mk.injEq] at h
      exact .inl ⟨hle, h.1.symm, h.2.symm⟩
    · right
      simp only [Bool.not_eq_true] at hle
      simp only [hle, Bool.false_eq_true, if_false] at h
      by_cases hv : isValid e = true
      · simp only [hv, if_true] at h
        exact .inl ⟨by simp [isPointer, hv, hle], h⟩
      · right
        simp only [Bool.not_eq_true] at hv
        simp only [hv, Bool.false_eq_true, if_false] at h
        cases ha : s.allocator al with
        | nil =>
          simp only [ha, Except.ok.injEq, Prod.mk.injEq] at h
          exact .inl ⟨hv, rfl, h.1.symm, h.2.symm⟩
        | cons f fs =>
          right
          simp only [ha] at h
          cases h1 : ptZero f (s.setAllocator al fs) with
          | error x => simp [h1] at h
          | ok s1 =>
            simp only [h1] at h
            cases h2 : hostStore s1 (slotAddr cur page l) (pteWord f 1#8) with
            | error x => simp [h2] at h
            | ok s2 =>
              simp only [h2] at h
              cases h3 : mapDown keep page frame flags level al ls (pteAddr (pteWord f 1#8)) s2 with
              | error x => simp [h3] at h
              | ok q =>
                obtain ⟨r', s3⟩ := q
                simp only [h3, Except.ok.injEq, Prod.mk.injEq] at h
                obtain ⟨rfl, h4⟩ := h
                exact ⟨hv, f, fs, s1, s2, s3, rfl, h1, h2, h3, h4.symm⟩

theorem mapCall_ok {keep : Bool} {root page frame : Word} {flags : FlagByte} {level : Level} {al : Nat} {s t : State}
    {r : Response} (h : mapCall keep root page frame flags level al s = .ok (r, t)) :
    s.intMasked = true ∧ frameOk root = true ∧
      mapDown keep page frame flags level al (levelsAbove level) root s = .ok (r, t) := by
  unfold mapCall at h
  cases hm : s.intMasked <;> cases hr : frameOk root <;> simp_all

theorem runMap_ok {root page frame : Word} {flags : FlagByte} {level : Level} {al : Nat} {s t : State}
    (h : runMap root page frame flags level al s = .ok t) :
    ∃ r u, mapCall (Config.keepsOrphans s.draws) root page frame flags level al s = .ok (r, u) ∧
      t = { u with hostResp := some r, draws := s.draws + 1 } := by
  unfold runMap at h
  cases hm : mapCall (Config.keepsOrphans s.draws) root page frame flags level al s with
  | error x => simp [hm] at h
  | ok q =>
    obtain ⟨r, u⟩ := q
    simp only [hm, Except.ok.injEq] at h
    exact ⟨r, u, rfl, h.symm⟩

theorem bootMap_ok {page : Word} {flags : FlagByte} {level : Level} {s t : State}
    (h : bootMap page flags level s = .ok t) :
    ∃ u, runMap s.platform.root page page flags level 0 s = .ok u ∧
      t = if u.hostResp == some ⟨.ok, 0#64⟩ then u else { u with halted := true } := by
  unfold bootMap at h
  cases hm : runMap s.platform.root page page flags level 0 s with
  | error x => simp [hm] at h
  | ok u =>
    simp only [hm, Except.ok.injEq] at h
    exact ⟨u, rfl, h.symm⟩

theorem boot_ok {s t : State} (h : boot s = .ok t) :
    s.booted = false ∧ t = { s with booted := true, program := bootScript s.platform ++ s.program } := by
  unfold boot at h
  cases hb : s.booted <;> simp_all

/-! ### The step -/

theorem ofHost_next {x : Except Fault State} {t : State} : ofHost x = .next t ↔ x = .ok t := by
  cases x <;> simp [ofHost]

/-- Everything a step can do: nothing where the host has nothing to do, else the host's next action. -/
theorem step_cases {s t : State} (h : step s = .next t) :
    s.halted = false ∧ ((s.program = [] ∧ t = s) ∨
      ∃ act rest, s.program = act :: rest ∧ runAction act { s with program := rest } = .next t) := by
  unfold step hostTurn at h
  cases hh : s.halted with
  | true => simp [hh] at h
  | false =>
    simp only [hh, Bool.false_eq_true, if_false] at h
    refine ⟨rfl, ?_⟩
    cases hp : s.program with
    | nil =>
      simp only [hp, Host.Outcome.next.injEq] at h
      exact .inl ⟨rfl, h.symm⟩
    | cons act rest =>
      simp only [hp] at h
      exact .inr ⟨act, rest, rfl, h⟩

/-- The step of a host that has not halted and has something to do. -/
theorem step_action {s : State} {act : HostAction} {rest : List HostAction} (hh : s.halted = false)
    (hp : s.program = act :: rest) : step s = runAction act { s with program := rest } := by
  simp [step, hostTurn, hh, hp]

end Sys2Proof.Machine
end

