-- ==== Sys2Proof/Laws/PerInstr.lean ====
section
/-! SUPPORT. Statements about every operation as syntax, one lemma for each constructor. -/

namespace Sys2Proof.Laws

/-- R64: the control word that the encoder writes selects the operation's own row of the table. -/
def EncodesOwnRow.Statement (i : Instr) : Prop :=
  WellFormed i = true → ∃ r ∈ opcodeTable, r.selects (encode i).cw = true ∧ r.mnemonic = i.mnemonic

/-- A format-F word of any flags selects its row. -/
theorem selects_F : ∀ flags : FlagByte, (cwOf flags 0#2 0x09#5 &&& 0x00FF#16 == 0x0009#16) = true ∧
    (cwOf flags 0#2 0x0C#5 &&& 0x00FF#16 == 0x000C#16) = true := by decide

/-- A format-S word of any selector selects its row. -/
theorem selects_S : ∀ sel : BitVec 2, (cwOf 0#8 sel 0x10#5 &&& 0xFF9F#16 == 0x0010#16) = true ∧
    (cwOf 0#8 sel 0x12#5 &&& 0xFF9F#16 == 0x0012#16) = true ∧
    (cwOf 0#8 sel 0x13#5 &&& 0xFF9F#16 == 0x0013#16) = true := by decide

theorem EncodesOwnRow.vaTry (a : Word) : EncodesOwnRow.Statement (.vaTry a) := fun _ =>
  ⟨⟨"VA.TRY", .N, 0x0001#16, 0xFFFF#16⟩, by decide,
    show (cwOf 0#8 0#2 0x01#5 &&& 0xFFFF#16 == 0x0001#16) = true by decide, rfl⟩

theorem EncodesOwnRow.vaTrunc (a : Word) : EncodesOwnRow.Statement (.vaTrunc a) := fun _ =>
  ⟨⟨"VA.TRUNC", .N, 0x0002#16, 0xFFFF#16⟩, by decide,
    show (cwOf 0#8 0#2 0x02#5 &&& 0xFFFF#16 == 0x0002#16) = true by decide, rfl⟩

theorem EncodesOwnRow.vaUnsafe (a : Word) : EncodesOwnRow.Statement (.vaUnsafe a) := fun _ =>
  ⟨⟨"VA.UNSAFE", .N, 0x0003#16, 0xFFFF#16⟩, by decide,
    show (cwOf 0#8 0#2 0x03#5 &&& 0xFFFF#16 == 0x0003#16) = true by decide, rfl⟩

theorem EncodesOwnRow.vaVpn2 (a : Word) : EncodesOwnRow.Statement (.vaVpn2 a) := fun _ =>
  ⟨⟨"VA.VPN2", .N, 0x0004#16, 0xFFFF#16⟩, by decide,
    show (cwOf 0#8 0#2 0x04#5 &&& 0xFFFF#16 == 0x0004#16) = true by decide, rfl⟩

theorem EncodesOwnRow.vaVpn1 (a : Word) : EncodesOwnRow.Statement (.vaVpn1 a) := fun _ =>
  ⟨⟨"VA.VPN1", .N, 0x0005#16, 0xFFFF#16⟩, by decide,
    show (cwOf 0#8 0#2 0x05#5 &&& 0xFFFF#16 == 0x0005#16) = true by decide, rfl⟩

theorem EncodesOwnRow.vaVpn0 (a : Word) : EncodesOwnRow.Statement (.vaVpn0 a) := fun _ =>
  ⟨⟨"VA.VPN0", .N, 0x0006#16, 0xFFFF#16⟩, by decide,
    show (cwOf 0#8 0#2 0x06#5 &&& 0xFFFF#16 == 0x0006#16) = true by decide, rfl⟩

theorem EncodesOwnRow.vaOff (a : Word) : EncodesOwnRow.Statement (.vaOff a) := fun _ =>
  ⟨⟨"VA.OFF", .N, 0x0007#16, 0xFFFF#16⟩, by decide,
    show (cwOf 0#8 0#2 0x07#5 &&& 0xFFFF#16 == 0x0007#16) = true by decide, rfl⟩

theorem EncodesOwnRow.pteNew : EncodesOwnRow.Statement .pteNew := fun _ =>
  ⟨⟨"PTE.NEW", .N, 0x0008#16, 0xFFFF#16⟩, by decide,
    show (cwOf 0#8 0#2 0x08#5 &&& 0xFFFF#16 == 0x0008#16) = true by decide, rfl⟩

theorem EncodesOwnRow.pteSet (flags : FlagByte) (a : Word) : EncodesOwnRow.Statement (.pteSet flags a) := fun _ =>
  ⟨⟨"PTE.SET", .F, 0x0009#16, 0x00FF#16⟩, by decide, (selects_F flags).1, rfl⟩

theorem EncodesOwnRow.pteAddr (a : Word) : EncodesOwnRow.Statement (.pteAddr a) := fun _ =>
  ⟨⟨"PTE.ADDR", .N, 0x000A#16, 0xFFFF#16⟩, by decide,
    show (cwOf 0#8 0#2 0x0A#5 &&& 0xFFFF#16 == 0x000A#16) = true by decide, rfl⟩

theorem EncodesOwnRow.pteFlags (a : Word) : EncodesOwnRow.Statement (.pteFlags a) := fun _ =>
  ⟨⟨"PTE.FLAGS", .N, 0x000B#16, 0xFFFF#16⟩, by decide,
    show (cwOf 0#8 0#2 0x0B#5 &&& 0xFFFF#16 == 0x000B#16) = true by decide, rfl⟩

theorem EncodesOwnRow.pteSetFlags (flags : FlagByte) (a : Word) : EncodesOwnRow.Statement (.pteSetFlags flags a) := fun _ =>
  ⟨⟨"PTE.SETFLAGS", .F, 0x000C#16, 0x00FF#16⟩, by decide, (selects_F flags).2, rfl⟩

theorem EncodesOwnRow.pteSetUnused (a : Word) : EncodesOwnRow.Statement (.pteSetUnused a) := fun _ =>
  ⟨⟨"PTE.SETUNUSED", .N, 0x000D#16, 0xFFFF#16⟩, by decide,
    show (cwOf 0#8 0#2 0x0D#5 &&& 0xFFFF#16 == 0x000D#16) = true by decide, rfl⟩

theorem EncodesOwnRow.pteIsValid (a : Word) : EncodesOwnRow.Statement (.pteIsValid a) := fun _ =>
  ⟨⟨"PTE.ISVALID", .N, 0x000E#16, 0xFFFF#16⟩, by decide,
    show (cwOf 0#8 0#2 0x0E#5 &&& 0xFFFF#16 == 0x000E#16) = true by decide, rfl⟩

theorem EncodesOwnRow.pteIsLeaf (a : Word) : EncodesOwnRow.Statement (.pteIsLeaf a) := fun _ =>
  ⟨⟨"PTE.ISLEAF", .N, 0x000F#16, 0xFFFF#16⟩, by decide,
    show (cwOf 0#8 0#2 0x0F#5 &&& 0xFFFF#16 == 0x000F#16) = true by decide, rfl⟩

theorem EncodesOwnRow.pteCheck (sel : BitVec 2) (a : Word) : EncodesOwnRow.Statement (.pteCheck sel a) := fun _ =>
  ⟨⟨"PTE.CHECK", .S, 0x0010#16, 0xFF9F#16⟩, by decide, (selects_S sel).1, rfl⟩

theorem EncodesOwnRow.ptRead (a : Word) (b : Word) : EncodesOwnRow.Statement (.ptRead a b) := fun _ =>
  ⟨⟨"PT.READ", .N, 0x0011#16, 0xFFFF#16⟩, by decide,
    show (cwOf 0#8 0#2 0x11#5 &&& 0xFFFF#16 == 0x0011#16) = true by decide, rfl⟩

theorem EncodesOwnRow.walk (sel : BitVec 2) (a : Word) (b : Word) : EncodesOwnRow.Statement (.walk sel a b) := fun _ =>
  ⟨⟨"WALK", .S, 0x0012#16, 0xFF9F#16⟩, by decide, (selects_S sel).2.1, rfl⟩

theorem EncodesOwnRow.xlate (sel : BitVec 2) (a : Word) : EncodesOwnRow.Statement (.xlate sel a) := fun _ =>
  ⟨⟨"XLATE", .S, 0x0013#16, 0xFF9F#16⟩, by decide, (selects_S sel).2.2, rfl⟩

theorem EncodesOwnRow.pcrSet (a : Word) : EncodesOwnRow.Statement (.pcrSet a) := fun _ =>
  ⟨⟨"PCR.SET", .N, 0x0014#16, 0xFFFF#16⟩, by decide,
    show (cwOf 0#8 0#2 0x14#5 &&& 0xFFFF#16 == 0x0014#16) = true by decide, rfl⟩

theorem EncodesOwnRow.pcrRead : EncodesOwnRow.Statement .pcrRead := fun _ =>
  ⟨⟨"PCR.READ", .N, 0x0015#16, 0xFFFF#16⟩, by decide,
    show (cwOf 0#8 0#2 0x15#5 &&& 0xFFFF#16 == 0x0015#16) = true by decide, rfl⟩

theorem EncodesOwnRow.tlbFlush : EncodesOwnRow.Statement .tlbFlush := fun _ =>
  ⟨⟨"TLB.FLUSH", .N, 0x0016#16, 0xFFFF#16⟩, by decide,
    show (cwOf 0#8 0#2 0x16#5 &&& 0xFFFF#16 == 0x0016#16) = true by decide, rfl⟩

end Sys2Proof.Laws
end

