-- ==== Sys2Proof/Tests/Slice0.lean ====
section
/-! SUPPORT. Tests: ill-formed terms refused, every constructor's decoding, worked examples of spec/ (part 2 of
spec/95_test_vectors.md unless a comment says otherwise), and for each statement with hypotheses a state and operands
that meet them. -/

namespace Sys2Proof.Tests

open Sys2Proof Sys2Proof.Machine

/-! ### Helpers -/

/-- The platform of table V5: memory from 0x80000000 to 0x8FFFFFFF, root table at 0x80200000. -/
def plat : Platform where
  populated := [⟨0x80000000, 0x10000000⟩]
  tlbPresent := true
  root := 0x80200000#64
  ramFlags := 0x0F#8
  devBase := 0x10000000#64
  devSize := 0x1000
  devLevel := .l2
  devFlags := 0x07#8
  bootAsid := 0#16
  allocators := [[0x80201000#64, 0x80202000#64], [0x80203000#64]]

/-- Memory that holds the given entry words. -/
def words (ws : List (Nat × Word)) : Memory := ws.foldl (fun m w => memWrite8 m w.1 w.2) []

/-- A state with the given register, memory, cache and host actions. -/
def st (pcr : Word) (ws : List (Nat × Word)) (tlb : Cache) (program : List HostAction) : State where
  pcr := pcr
  tlb := tlb
  mem := words ws
  resp := none
  platform := plat
  program := program
  allocs := plat.allocators
  intMasked := true
  booted := false
  halted := false
  hostResp := none
  listing := []
  draws := 1

/-- The tree of table V5, and a root entry 3 that is its misaligned level-2 leaf. -/
def v5 : List (Nat × Word) :=
  [(0x80200000, 0x20080401#64), (0x80200008, 0#64), (0x80200018, 0x2000040F#64), (0x80201010, 0x20100007#64),
   (0x80201018, 0#64), (0x80201400, 0x20080801#64), (0x80202018, 0x21D95017#64), (0x80202020, 0x20080C01#64), (0x80202028, 0#64)]

/-- Paging off, the tree of V5. -/
def off : State := st 0#64 v5 [] []

/-- Paging on with the root of V5. -/
def on : State := st 0x8000000000080200#64 v5 [] []

/-- The entry that line 8 of V6 may cache. -/
def entry0 : CacheEntry := ⟨.l0, 0x10003#27, 0x21D95017#64⟩

/-- The response that an operation leaves. -/
def answerOf : Host.Outcome State Fault Refusal → Option Response
  | .next s => s.resp
  | .fault _ => none
  | .refused _ => none

/-- The response `OK` with a result. -/
def okWith (v : Word) : Option Response := some ⟨.ok, v⟩

/-- A response with another status. -/
def failWith (s : Status) : Option Response := some ⟨s, 0#64⟩

/-! ### Ill-formed operations are refused (R75, R76) -/

theorem test_wf_pteCheck_sel3 : WellFormed (.pteCheck 3#2 0#64) = false := by decide
theorem test_wf_walk_sel3 : WellFormed (.walk 3#2 0#64 0#64) = false := by decide
theorem test_wf_xlate_sel3 : WellFormed (.xlate 3#2 0#64) = false := by decide
theorem test_wf_selectors : WellFormed (.pteCheck 2#2 0#64) = true ∧ WellFormed (.walk 2#2 0#64 0#64) = true ∧
    WellFormed (.xlate 2#2 0#64) = true := by decide
theorem test_wf_all_flags : ∀ f : FlagByte, WellFormed (.pteSet f 0#64) = true ∧ WellFormed (.pteSetFlags f 0#64) = true := by
  decide

/-! ### Every constructor's word, from the pattern column of R64 -/

theorem test_dec_vaTry : decode ⟨0b0000000000000001#16, 7#64, 9#64⟩ = .ok (.vaTry 7#64) := by decide
theorem test_dec_vaTrunc : decode ⟨0b0000000000000010#16, 7#64, 9#64⟩ = .ok (.vaTrunc 7#64) := by decide
theorem test_dec_vaUnsafe : decode ⟨0b0000000000000011#16, 7#64, 9#64⟩ = .ok (.vaUnsafe 7#64) := by decide
theorem test_dec_vaVpn2 : decode ⟨0b0000000000000100#16, 7#64, 9#64⟩ = .ok (.vaVpn2 7#64) := by decide
theorem test_dec_vaVpn1 : decode ⟨0b0000000000000101#16, 7#64, 9#64⟩ = .ok (.vaVpn1 7#64) := by decide
theorem test_dec_vaVpn0 : decode ⟨0b0000000000000110#16, 7#64, 9#64⟩ = .ok (.vaVpn0 7#64) := by decide
theorem test_dec_vaOff : decode ⟨0b0000000000000111#16, 7#64, 9#64⟩ = .ok (.vaOff 7#64) := by decide
theorem test_dec_pteNew : decode ⟨0b0000000000001000#16, 7#64, 9#64⟩ = .ok .pteNew := by decide
theorem test_dec_pteSet : decode ⟨0b0001011100001001#16, 7#64, 9#64⟩ = .ok (.pteSet 0x17#8 7#64) := by decide
theorem test_dec_pteAddr : decode ⟨0b0000000000001010#16, 7#64, 9#64⟩ = .ok (.pteAddr 7#64) := by decide
theorem test_dec_pteFlags : decode ⟨0b0000000000001011#16, 7#64, 9#64⟩ = .ok (.pteFlags 7#64) := by decide
theorem test_dec_pteSetFlags : decode ⟨0b1100111100001100#16, 7#64, 9#64⟩ = .ok (.pteSetFlags 0xCF#8 7#64) := by decide
theorem test_dec_pteSetUnused : decode ⟨0b0000000000001101#16, 7#64, 9#64⟩ = .ok (.pteSetUnused 7#64) := by decide
theorem test_dec_pteIsValid : decode ⟨0b0000000000001110#16, 7#64, 9#64⟩ = .ok (.pteIsValid 7#64) := by decide
theorem test_dec_pteIsLeaf : decode ⟨0b0000000000001111#16, 7#64, 9#64⟩ = .ok (.pteIsLeaf 7#64) := by decide
theorem test_dec_pteCheck : decode ⟨0b0000000000110000#16, 7#64, 9#64⟩ = .ok (.pteCheck 1#2 7#64) := by decide
theorem test_dec_ptRead : decode ⟨0b0000000000010001#16, 7#64, 9#64⟩ = .ok (.ptRead 7#64 9#64) := by decide
theorem test_dec_walk : decode ⟨0b0000000001010010#16, 7#64, 9#64⟩ = .ok (.walk 2#2 7#64 9#64) := by decide
theorem test_dec_xlate : decode ⟨0b0000000000110011#16, 7#64, 9#64⟩ = .ok (.xlate 1#2 7#64) := by decide
theorem test_dec_pcrSet : decode ⟨0b0000000000010100#16, 7#64, 9#64⟩ = .ok (.pcrSet 7#64) := by decide
theorem test_dec_pcrRead : decode ⟨0b0000000000010101#16, 7#64, 9#64⟩ = .ok .pcrRead := by decide
theorem test_dec_tlbFlush : decode ⟨0b0000000000010110#16, 7#64, 9#64⟩ = .ok .tlbFlush := by decide

/-- R76: one word for each cause of a refusal, and the all-zero word. -/
theorem test_dec_refused : decode ⟨0x0081#16, 0#64, 0#64⟩ = .error .reservedBitSet ∧
    decode ⟨0x0000#16, 0#64, 0#64⟩ = .error .reservedOp ∧ decode ⟨0x0017#16, 0#64, 0#64⟩ = .error .reservedOp ∧
    decode ⟨0x001F#16, 0#64, 0#64⟩ = .error .reservedOp ∧ decode ⟨0x0101#16, 0#64, 0#64⟩ = .error .flagsNotZero ∧
    decode ⟨0x0021#16, 0#64, 0#64⟩ = .error .selNotZero ∧ decode ⟨0x0029#16, 0#64, 0#64⟩ = .error .selNotZero ∧
    decode ⟨0x0112#16, 0#64, 0#64⟩ = .error .flagsNotZero ∧ decode ⟨0x0072#16, 0#64, 0#64⟩ = .error .selReserved := by
  decide

theorem test_decodeTableWord : decodeTableWord 16 0x0011 = some (.ptRead 0#64 0#64) ∧
    decodeTableWord 80 0x50001 = some (.vaTry 5#64) ∧ decodeTableWord 16 0x0070 = none := by decide

/-! ### Operations, from the tables V1 to V6 -/

theorem test_vaTry : answerOf (exec (.vaTry 0xFFFFFFC000000000#64) off) = okWith 0xFFFFFFC000000000#64 ∧
    answerOf (exec (.vaTry 0xFFFFFF8000000000#64) off) = failWith .invalidAddress := by decide
theorem test_vaTrunc : answerOf (exec (.vaTrunc 0xDEADBEEFCAFEF00D#64) off) = okWith 0xFFFFFFEFCAFEF00D#64 ∧
    answerOf (exec (.vaTrunc 0x0000008000000000#64) off) = okWith 0#64 := by decide
theorem test_vaUnsafe : answerOf (exec (.vaUnsafe 0x0000004000001234#64) off) = okWith 0x0000004000001234#64 := by decide
theorem test_va_fields : answerOf (exec (.vaVpn2 0xDEADBEEFCAFEF00D#64) off) = okWith 447#64 ∧
    answerOf (exec (.vaVpn1 0xDEADBEEFCAFEF00D#64) off) = okWith 87#64 ∧
    answerOf (exec (.vaVpn0 0xDEADBEEFCAFEF00D#64) off) = okWith 495#64 ∧
    answerOf (exec (.vaOff 0xDEADBEEFCAFEF00D#64) off) = okWith 0xD#64 := by decide
theorem test_pteNew : answerOf (exec .pteNew off) = okWith 0#64 := by decide
theorem test_pteSet : answerOf (exec (.pteSet 0x17#8 0x87654000#64) off) = okWith 0x21D95017#64 ∧
    answerOf (exec (.pteSet 0xFF#8 0x00FFFFFFFFFFF000#64) off) = okWith 0x003FFFFFFFFFFCFF#64 := by decide
theorem test_pteSet_refused : answerOf (exec (.pteSet 1#8 0x80000800#64) off) = failWith .contractViolation ∧
    answerOf (exec (.pteSet 1#8 0x0100000000000000#64) off) = failWith .contractViolation := by decide
theorem test_pteAddr : answerOf (exec (.pteAddr 0xAA8000002000030F#64) off) = okWith 0x80000000#64 := by decide
theorem test_pteFlags : answerOf (exec (.pteFlags 0x00000000200800CF#64) off) = okWith 0xCF#64 := by decide
theorem test_pteSetFlags : answerOf (exec (.pteSetFlags 1#8 0xAA8000002000030F#64) off) = okWith 0xAA80000020000301#64 := by
  decide
theorem test_pteSetUnused : answerOf (exec (.pteSetUnused 0xFFFFFFFFFFFFFFFF#64) off) = okWith 0xFFFFFFFFFFFFFF00#64 := by
  decide
theorem test_pteIsValid : answerOf (exec (.pteIsValid 0x2000000E#64) off) = okWith 0#64 ∧
    answerOf (exec (.pteIsValid 0x20000001#64) off) = okWith 1#64 := by decide
theorem test_pteIsLeaf : answerOf (exec (.pteIsLeaf 0xD1#64) off) = okWith 0#64 ∧
    answerOf (exec (.pteIsLeaf 0x05#64) off) = okWith 1#64 := by decide
theorem test_pteCheck : answerOf (exec (.pteCheck 0#2 0x0B#64) off) = okWith 1#64 ∧
    answerOf (exec (.pteCheck 1#2 0x0B#64) off) = okWith 0#64 ∧
    answerOf (exec (.pteCheck 2#2 0x0B#64) off) = okWith 1#64 ∧
    answerOf (exec (.pteCheck 2#2 0x0E#64) off) = okWith 0#64 := by decide
theorem test_ptRead : answerOf (exec (.ptRead 0x80202000#64 3#64) off) = okWith 0x21D95017#64 := by decide
theorem test_ptRead_refused : answerOf (exec (.ptRead 0x80202000#64 0x200#64) off) = failWith .contractViolation ∧
    answerOf (exec (.ptRead 0x80202004#64 3#64) off) = failWith .contractViolation ∧
    answerOf (exec (.ptRead 0x70000000#64 0#64) off) = failWith .contractViolation := by decide

/-- Three reads; two reads; a misaligned level-2 leaf, whose frame adds with a carry (R147). -/
theorem test_walk : answerOf (exec (.walk 0#2 0x10003ABC#64 0x80200000#64) off) = okWith 0x87654ABC#64 ∧
    answerOf (exec (.walk 0#2 0x00512345#64 0x80200000#64) off) = okWith 0x80512345#64 ∧
    answerOf (exec (.walk 0#2 0xFFFFF000#64 0x80200000#64) off) = okWith 0xC0000000#64 ∧
    answerOf (exec (.walk 1#2 0xFFFFFF8010003ABC#64 0x80200000#64) off) = okWith 0x87654ABC#64 := by decide

/-- A pointer at level 0 (R146), an invalid root entry, and the order of the refusals (R215). -/
theorem test_walk_refused : answerOf (exec (.walk 0#2 0x10004000#64 0x80200000#64) off) = failWith .unmapped ∧
    answerOf (exec (.walk 0#2 0x40000000#64 0x80200000#64) off) = failWith .unmapped ∧
    answerOf (exec (.walk 0#2 0x0000004000000000#64 0x80200800#64) off) = failWith .invalidAddress ∧
    answerOf (exec (.walk 0#2 0x10003ABC#64 0x80200800#64) off) = failWith .contractViolation ∧
    answerOf (exec (.walk 0#2 0x10003ABC#64 0x70000000#64) off) = failWith .contractViolation := by decide

/-- Line 8 of V6: a miss that fills, and a hit on the entry it filled. -/
theorem test_xlate : (on.xlate ⟨[], 0, true⟩ 0#2 0x10003ABC#64).resp = okWith 0x87654ABC#64 ∧
    (on.xlate ⟨[], 0, true⟩ 0#2 0x10003ABC#64).tlb = [entry0] ∧
    ({ on with mem := [], tlb := [entry0] }.xlate ⟨[], 0, false⟩ 0#2 0x10003ABC#64).resp = okWith 0x87654ABC#64 := by
  decide

/-- Lines 2 and 3 of V6: paging off, and the address tested first. -/
theorem test_xlate_refused : answerOf (exec (.xlate 0#2 0x10003ABC#64) off) = failWith .contractViolation ∧
    answerOf (exec (.xlate 0#2 0x0000004000000000#64) off) = failWith .invalidAddress := by decide
theorem test_pcrSet : exec (.pcrSet 0x8ABC000000080200#64) off =
      .next { off with pcr := 0x8ABC000000080200#64, resp := okWith 0#64 } ∧
    exec (.pcrSet 0x1000000000080200#64) off = .next { off with resp := failWith .contractViolation } := ⟨rfl, rfl⟩
theorem test_pcrRead : answerOf (exec .pcrRead { on with pcr := 0x8ABC000000080200#64 }) = okWith 0x80200#64 := by decide
theorem test_tlbFlush : exec .tlbFlush { on with tlb := [entry0] } = .next { on with tlb := [], resp := okWith 0#64 } := rfl

/-! ### Reset, the step, and the host -/

theorem test_reset_pcr : State.reset.pcr = 0#64 ∧ State.reset.mem = [] ∧ State.reset.resp = none := ⟨rfl, rfl, rfl⟩
theorem test_step_runs_word : step (State.reset.withFetchWord 16 0x0015) = exec .pcrRead State.reset := rfl
theorem test_step_idle : step off = .next off := rfl

/-- T9: a finer page under a level-2 leaf. -/
theorem test_map_parent_huge : mapCall true 0x80200000#64 0xC0000000#64 0x80000000#64 0x07#8 .l0 0 off =
    .ok (⟨.parentEntryHugePage, 0#64⟩, off) := by decide +kernel

/-- R183: a table grown with the allocator's first frame and zeroed, and the leaf written. -/
theorem test_map_grows :
    (mapCall true 0x80200000#64 0x40200000#64 0x40000000#64 0x0B#8 .l1 0 off).toOption.map
      (fun r => (r.2.allocs, memRead8 r.2.mem 0x80200008, memRead8 r.2.mem 0x80201008, memRead8 r.2.mem 0x80201010)) =
    some ([[0x80202000#64], [0x80203000#64]], 0x20080401#64, 0x1000000B#64, 0#64) := by decide +kernel

/-- Line 8 of P4: the second allocator's one frame is used and stays as an empty orphan; the first one keeps its own. -/
theorem test_map_second_allocator :
    (mapCall true 0x80200000#64 0x40000000#64 0x90000000#64 0x07#8 .l0 1 off).toOption.map
      (fun r => (r.1.st, r.2.allocs, memRead8 r.2.mem 0x80200008, memRead8 r.2.mem 0x80203000)) =
    some (.frameAllocationFailed, [[0x80201000#64, 0x80202000#64], []], 0x20080C01#64, 0#64) := by decide +kernel

/-- R186: without orphans kept, a failing call leaves no table behind. -/
theorem test_map_rollback :
    (mapCall false 0x80200000#64 0x40003000#64 0x87654000#64 0x17#8 .l0 0 { off with allocs := [[0x80208000#64]] }).toOption.map
      (fun r => (r.1.st, memRead8 r.2.mem 0x80200008)) =
    some (.frameAllocationFailed, 0#64) := by decide +kernel

/-! ### Witnesses: states and operands that meet the hypotheses of the statements of the same name -/

theorem witness_DecodeEncodeRoundTrip : WellFormed (.walk 2#2 0xFFFFFFFFFFFFFFFF#64 1#64) = true ∧
    WellFormed (.pteSet 0xFF#8 0#64) = true ∧ WellFormed .tlbFlush = true := by decide

theorem witness_DecodedOperationReencodesToItsWord :
    decode ⟨0xFF0C#16, 5#64, 6#64⟩ = .ok (.pteSetFlags 0xFF#8 5#64) := by decide

theorem witness_LegalWordsAreTheTableRows : decode ⟨0x0050#16, 5#64, 6#64⟩ = .ok (.pteCheck 2#2 5#64) := by decide

theorem witness_NoControlWordMatchesTwoRows :
    ⟨"PTE.SET", .F, 0x0009#16, 0x00FF#16⟩ ∈ opcodeTable ∧
    OpcodeRow.selects ⟨"PTE.SET", .F, 0x0009#16, 0x00FF#16⟩ 0xFF09#16 = true := by decide

theorem witness_UnreadOperandsAreIgnored : (cwOp 0x0013#16 ≠ 0x11#5 ∧ cwOp 0x0013#16 ≠ 0x12#5) ∧
    cwOp 0x0008#16 = 0x08#5 ∧ cwOp 0x0015#16 = 0x15#5 ∧ cwOp 0x0016#16 = 0x16#5 := by decide

/-- A state whose host has one command to send. -/
def sending (s : State) (c : Command) : State := { s with program := [.command c] }

theorem witness_StepRunsTheDecodedOperation :
    (sending off ⟨0x0011#16, 5#64, 6#64⟩).halted = false ∧
    (sending off ⟨0x0011#16, 5#64, 6#64⟩).program = .command ⟨0x0011#16, 5#64, 6#64⟩ :: [] ∧
    decode ⟨0x0011#16, 5#64, 6#64⟩ = .ok (.ptRead 5#64 6#64) := by decide

theorem witness_IllegalWordChangesNothing :
    (sending off ⟨0x0070#16, 5#64, 6#64⟩).halted = false ∧
    (sending off ⟨0x0070#16, 5#64, 6#64⟩).program = .command ⟨0x0070#16, 5#64, 6#64⟩ :: [] ∧
    ∀ i, decode ⟨0x0070#16, 5#64, 6#64⟩ ≠ .ok i := by
  refine ⟨rfl, rfl, fun i h => ?_⟩
  rw [show decode ⟨0x0070#16, 5#64, 6#64⟩ = .error .selReserved by decide] at h
  cases h

theorem witness_OperationsThatEndOnlyWithOk : Instr.mnemonic (.vaTrunc 0#64) ∈ ["VA.TRUNC", "VA.UNSAFE", "VA.VPN2",
    "VA.VPN1", "VA.VPN0", "VA.OFF", "PTE.NEW", "PTE.ADDR", "PTE.FLAGS", "PTE.SETFLAGS", "PTE.SETUNUSED", "PTE.ISVALID",
    "PTE.ISLEAF", "PCR.READ", "TLB.FLUSH"] ∧ Instr.mnemonic .tlbFlush = "TLB.FLUSH" ∧
    (∀ r, { off with resp := failWith .contractViolation }.hostResp = some r → wentWrong r.st = false) :=
  ⟨by decide, by decide, fun _ h => by simp [off, st] at h⟩

theorem witness_BlockNeverWritesMemory : ∃ t, exec (.walk 0#2 0x10003ABC#64 0x80200000#64) off = .next t := ⟨_, rfl⟩

theorem witness_OperationFrame : (∃ t, exec (.vaTry 0#64) on = .next t) ∧
    (∀ a, Instr.vaTry 0#64 ≠ .pcrSet a) ∧ (∀ sel a, Instr.vaTry 0#64 ≠ .xlate sel a) ∧ Instr.vaTry 0#64 ≠ .tlbFlush := by
  refine ⟨⟨_, rfl⟩, ?_, ?_, ?_⟩ <;> simp

theorem witness_FailedOperationChangesNoBlockState :
    (∃ t, exec (.xlate 0#2 0#64) off = .next t ∧ t.resp = some ⟨.contractViolation, 0#64⟩) ∧
    (∃ t, exec (.vaTry 0x0000004000000000#64) off = .next t ∧ t.resp = some ⟨.invalidAddress, 0#64⟩) ∧
    ∀ sel a, Instr.vaTry 0x0000004000000000#64 ≠ .xlate sel a := by
  refine ⟨⟨_, rfl, by decide⟩, ⟨_, rfl, by decide⟩, ?_⟩
  simp

theorem witness_VaTryAcceptsExactlyTheCanonical :
    (∀ k, 39 ≤ k → k < 64 → (0x0000003FFFFFFFFF#64 : Word).getLsbD k = (0x0000003FFFFFFFFF#64 : Word).getLsbD 38) ∧
    (∀ k, 39 ≤ k → k < 64 → (0xFFFFFFC000000000#64 : Word).getLsbD k = (0xFFFFFFC000000000#64 : Word).getLsbD 38) ∧
    (∃ k, 39 ≤ k ∧ k < 64 ∧ (0x0000004000000000#64 : Word).getLsbD k ≠ (0x0000004000000000#64 : Word).getLsbD 38) ∧
    (∃ k, 39 ≤ k ∧ k < 64 ∧ (0xFFFFFFBFFFFFFFFF#64 : Word).getLsbD k ≠ (0xFFFFFFBFFFFFFFFF#64 : Word).getLsbD 38) :=
  ⟨(canon_iff_bits _).1 (by decide), (canon_iff_bits _).1 (by decide), ⟨39, by decide⟩, ⟨63, by decide⟩⟩

theorem witness_VaTruncReplicatesBit38 :
    ∀ k, 39 ≤ k → k < 64 → (0xFFFFFFC000000000#64 : Word).getLsbD k = (0xFFFFFFC000000000#64 : Word).getLsbD 38 :=
  (canon_iff_bits _).1 (by decide)

theorem witness_PteSetPacksFrameAndFlags :
    ((0x00FFFFFFFFFFF000#64 : Word).toNat % 4096 = 0 ∧ (0x00FFFFFFFFFFF000#64 : Word).toNat < 2 ^ 56) ∧
    (0x0000000000000001#64 : Word).toNat % 4096 ≠ 0 ∧ 2 ^ 56 ≤ (0x0100000000000000#64 : Word).toNat := by decide

theorem witness_PteRoundTrip : frameOk 0x00FFFFFFFFFFF000#64 = true ∧ frameOk 0#64 = true := by decide

theorem witness_PteIsValidAndIsLeaf :
    ((0x3#64 : Word).toNat % 2 = 1 ∧ (0x3#64 : Word).toNat / 2 % 8 ≠ 0) ∧ (0xE#64 : Word).toNat % 2 = 0 ∧
    (0xF1#64 : Word).toNat / 2 % 8 = 0 := by decide

theorem witness_PteCheckTestsLeafAndItsFlag : (2#2 : BitVec 2) ≠ 3#2 ∧
    ((0x9#64 : Word).getLsbD 0 = true ∧ (0x9#64 : Word).getLsbD (1 + (2#2 : BitVec 2).toNat) = true) ∧
    (0xE#64 : Word).getLsbD 0 = false ∧ (0x7#64 : Word).getLsbD (1 + (2#2 : BitVec 2).toNat) = false := by decide

theorem witness_PtReadReturnsTheEntry :
    ((0x80202000#64 : Word).toNat % 4096 = 0 ∧ (0x80202000#64 : Word).toNat < 2 ^ 56 ∧ (511#64 : Word).toNat < 512 ∧
      memPopulated off.platform ((0x80202000#64 : Word).toNat + 8 * (511#64 : Word).toNat) = true) ∧
    (0x80202004#64 : Word).toNat % 4096 ≠ 0 ∧ 2 ^ 56 ≤ (0x0100000000000000#64 : Word).toNat ∧
    512 ≤ (512#64 : Word).toNat ∧ memPopulated off.platform (0x7FFFF000 + 8 * 511) = false := by decide

/-- A table path leads to entry words, and the selector and root are good. -/
theorem witness_WalkEndsAtALeaf : (0#2 : BitVec 2) ≠ 3#2 ∧ canon 0xC0000000#64 = true ∧ canon 0x00512345#64 = true ∧
    canon 0x10003ABC#64 = true ∧ frameOk 0x80200000#64 = true ∧
    (off.holds (0x80200000 + 8 * (0xC0000000 / 2 ^ 30 % 512)) 0x2000040F#64 ∧ isLeaf 0x2000040F#64 = true) ∧
    (off.holds (0x80200000 + 8 * (0x00512345 / 2 ^ 30 % 512)) 0x20080401#64 ∧ isPointer 0x20080401#64 = true) ∧
    (off.holds ((pteAddr 0x20080401#64).toNat + 8 * (0x00512345 / 2 ^ 21 % 512)) 0x20100007#64 ∧
      isLeaf 0x20100007#64 = true) ∧
    (off.holds ((pteAddr 0x20080401#64).toNat + 8 * (0x10003ABC / 2 ^ 21 % 512)) 0x20080801#64 ∧
      isPointer 0x20080801#64 = true) ∧
    (off.holds ((pteAddr 0x20080801#64).toNat + 8 * (0x10003ABC / 2 ^ 12 % 512)) 0x21D95017#64 ∧
      isLeaf 0x21D95017#64 = true) := by
  simp only [State.holds]
  decide

theorem witness_WalkEndsUnmapped :
    (off.holds (0x80200000 + 8 * (0x40000000 / 2 ^ 30 % 512)) 0#64 ∧ isValid 0#64 = false) ∧
    (off.holds (0x80200000 + 8 * (0x00600000 / 2 ^ 30 % 512)) 0x20080401#64 ∧ isPointer 0x20080401#64 = true) ∧
    off.holds ((pteAddr 0x20080401#64).toNat + 8 * (0x00600000 / 2 ^ 21 % 512)) 0#64 ∧
    (off.holds ((pteAddr 0x20080401#64).toNat + 8 * (0x10004000 / 2 ^ 21 % 512)) 0x20080801#64 ∧
      isPointer 0x20080801#64 = true) ∧
    (off.holds ((pteAddr 0x20080801#64).toNat + 8 * (0x10004000 / 2 ^ 12 % 512)) 0x20080C01#64 ∧
      isLeaf 0x20080C01#64 = false) := by
  simp only [State.holds]
  decide

/-- A tree with pointers to a table where there is no memory, at level 2 (entry 4) and at level 1 (entry 5). -/
def broken : State := st 0#64 (v5 ++ [(0x80200020, 0x1C000001#64), (0x80201028, 0x1C000001#64)]) [] []

theorem witness_WalkRefusalsInOrder : canon 0x0000004000000000#64 = false ∧ frameOk 0x80200800#64 = false ∧
    frameOk 0x70000000#64 = true ∧ memPopulated broken.platform (0x70000000 + 8 * (0x10003ABC / 2 ^ 30 % 512)) = false ∧
    (broken.holds (0x80200000 + 8 * (0x100000000 / 2 ^ 30 % 512)) 0x1C000001#64 ∧ isPointer 0x1C000001#64 = true ∧
      memPopulated broken.platform ((pteAddr 0x1C000001#64).toNat + 8 * (0x100000000 / 2 ^ 21 % 512)) = false) ∧
    (broken.holds (0x80200000 + 8 * (0x00A00000 / 2 ^ 30 % 512)) 0x20080401#64 ∧ isPointer 0x20080401#64 = true ∧
      broken.holds ((pteAddr 0x20080401#64).toNat + 8 * (0x00A00000 / 2 ^ 21 % 512)) 0x1C000001#64 ∧
      memPopulated broken.platform ((pteAddr 0x1C000001#64).toNat + 8 * (0x00A00000 / 2 ^ 12 % 512)) = false) := by
  simp only [State.holds]
  decide

/-- The other state has another register, another cache and another word of memory. -/
theorem witness_WalkDependsOnAtMost24Bytes :
    { on with tlb := [entry0], mem := memWrite8 off.mem 0x80202020 5#64 }.platform = off.platform ∧
    ∀ addr ∈ readsFrom off.platform off.mem 0x10003ABC#64 [.l2, .l1, .l0] 0x80200000#64, ∀ k < 8,
      memByte (memWrite8 off.mem 0x80202020 5#64) (addr + k) = memByte off.mem (addr + k) := by
  refine ⟨rfl, fun addr ha k hk => memByte_memWrite8_of_disjoint _ _ ?_⟩
  rw [show readsFrom off.platform off.mem 0x10003ABC#64 [.l2, .l1, .l0] 0x80200000#64 =
    [0x80200000, 0x80201400, 0x80202018] by decide] at ha
  simp only [List.mem_cons, List.not_mem_nil, or_false] at ha
  omega

theorem witness_ConstructorModesTranslateAlike : canon 0xFFFFFFC000000000#64 = true := by decide

theorem witness_XlateRefusalsInOrder : canon 0x0000008000000000#64 = false ∧ canon 0#64 = true ∧
    pcrMode off.pcr ≠ 8#4 := by decide

theorem witness_XlateThroughALevel2Leaf : pcrMode on.pcr = 8#4 ∧ on.cache = [] ∧ canon 0xFFFFF000#64 = true ∧
    on.holds (on.pcr.toNat % 2 ^ 44 * 4096 + 8 * (0xFFFFF000 / 2 ^ 30 % 512)) 0x2000040F#64 ∧
    isLeaf 0x2000040F#64 = true := by
  simp only [State.holds]
  decide

/-- Paging on, and a cache entry that a walk still finds. -/
def cached : State := { on with tlb := [entry0] }

theorem cached_coherent : cached.Coherent := by
  intro e he va hm
  have he' : e = entry0 := by simpa [State.cache, cached, on, st, plat] using he
  subst he'
  exact walk_leaf_of_matches (l := .l0) (e := 0x21D95017#64) (va := 0x10003ABC#64)
    (show walk cached.platform cached.mem 0x10003ABC#64 (rootFrame cached.pcr) = .leaf .l0 0x21D95017#64 by decide) hm

theorem witness_XlateIsExactOnACoherentCache : (cached.Coherent ∧ pcrMode cached.pcr = 8#4 ∧ cached.cache ≠ []) ∧
    on.tlb = [] ∧ { cached with platform := { plat with tlbPresent := false } }.platform.tlbPresent = false :=
  ⟨⟨cached_coherent, by decide, by decide⟩, rfl, rfl⟩

theorem witness_CoherenceIsKeptUntilTablesOrRootChange :
    (sending cached ⟨0x0013#16, 0x00512345#64, 0#64⟩).Coherent ∧
    keepsTables (.command ⟨0x0013#16, 0x00512345#64, 0#64⟩) = true ∧
    ∃ t, step (sending cached ⟨0x0013#16, 0x00512345#64, 0#64⟩) = .next t :=
  ⟨cached_coherent, by decide, _, rfl⟩

/-- One entry goes, another that covers the address is left. -/
theorem witness_XlateAdmitsEveryAlternative : construct 0#2 0x10003ABC#64 = .ok 0x10003ABC#64 ∧
    pcrMode cached.pcr = 8#4 ∧ cached.platform.tlbPresent = true ∧
    entry0 ∈ cached.tlb.filter (fun e => !([] : List CacheEntry).contains e) ∧
    cacheMatches 0x10003ABC#64 entry0 = true ∧
    walk cached.platform cached.mem 0x10003ABC#64 (rootFrame cached.pcr) = .leaf .l0 0x21D95017#64 := by decide

theorem witness_XlateIsAHitOrAMiss : construct 1#2 0xFFFFFF8010003ABC#64 = .ok 0x10003ABC#64 ∧
    pcrMode cached.pcr = 8#4 := by decide

theorem witness_PcrSetWritesTheRegister : (0x0FFFFFFFFFFFFFFF#64 : Word).toNat / 2 ^ 60 = 0 ∧
    (0x8FFFFFFFFFFFFFFF#64 : Word).toNat / 2 ^ 60 = 8 ∧
    ((0x1000000000000000#64 : Word).toNat / 2 ^ 60 ≠ 0 ∧ (0x1000000000000000#64 : Word).toNat / 2 ^ 60 ≠ 8) ∧
    ((0xF000000000000000#64 : Word).toNat / 2 ^ 60 ≠ 0 ∧ (0xF000000000000000#64 : Word).toNat / 2 ^ 60 ≠ 8) := by decide

theorem witness_ResetState : { plat with tlbPresent := false }.tlbPresent = false := rfl

theorem witness_BlockResetAction : { on with program := [.reset] }.halted = false ∧
    { on with program := [.reset] }.program = .reset :: [] ∧
    { on with platform := { plat with tlbPresent := false } }.platform.tlbPresent = false := ⟨rfl, rfl, rfl⟩

theorem witness_StepKeepsTheInvariant : (sending cached ⟨0x0014#16, 0#64, 0#64⟩).Inv ∧
    ∃ t, step (sending cached ⟨0x0014#16, 0#64, 0#64⟩) = .next t := by
  refine ⟨?_, _, rfl⟩
  unfold State.Inv
  decide +kernel

theorem witness_StepKeepsThePlatform : ∃ t, step { off with program := [.map 0x80200000#64 0xC0000000#64 0#64 7#8 .l2 0] } =
    .next t := ⟨_, rfl⟩

/-- A write of the last byte that is memory, and of eight bytes across a page border. -/
theorem witness_HostMemWriteStoresLittleEndian :
    { off with program := [.memWrite 0x8FFFFFFF#64 1 0xAB] }.halted = false ∧
    allPopulated off.platform (0x8FFFFFFF#64 : Word).toNat 1 = true ∧
    allPopulated off.platform (0x80200FFC#64 : Word).toNat 8 = true := by decide

theorem witness_PtReadSeesTheLastHostWrite : frameOk 0x8FFFF000#64 = true ∧ (511#64 : Word).toNat < 512 ∧
    { off with program := [.memWrite (entryAddr 0x8FFFF000#64 511#64) 8 (7#64 : Word).toNat] }.program =
      .memWrite (entryAddr 0x8FFFF000#64 511#64) 8 (7#64 : Word).toNat :: [] ∧
    allPopulated off.platform ((0x8FFFF000#64 : Word).toNat + 8 * (511#64 : Word).toNat) 8 = true := by decide

theorem witness_PtZeroMakesEveryEntryInvalid : { off with program := [.ptZero 0x8FFFF000#64] }.program =
      .ptZero 0x8FFFF000#64 :: [] ∧ off.halted = false ∧ frameOk 0x8FFFF000#64 = true ∧
    allPopulated off.platform (0x8FFFF000#64 : Word).toNat 4096 = true ∧ pcrMode off.pcr ≠ 8#4 := by decide +kernel

theorem witness_PtValidEntriesYieldsTheValidOnes : { off with program := [.validEntries 0x80200000#64] }.program =
      .validEntries 0x80200000#64 :: [] ∧ off.halted = false ∧ frameOk 0x80200000#64 = true ∧
    allPopulated off.platform (0x80200000#64 : Word).toNat 4096 = true ∧ pcrMode off.pcr ≠ 8#4 := by decide +kernel

/-- An invalid slot and one that holds a leaf; with frames and without; interrupts masked and not. -/
theorem witness_MapOutcomesAtTheRootTable : frameOk 0x80200000#64 = true ∧ pcrMode off.pcr ≠ 8#4 ∧
    allPopulated off.platform (0x80200000 + 8 * (0x40000000 / 2 ^ 30 % 512)) 8 = true ∧
    allPopulated off.platform (0x80200000 + 8 * (0xC0000000 / 2 ^ 30 % 512)) 8 = true ∧
    (memRead8 off.mem (0x80200000 + 8 * (0x40000000 / 2 ^ 30 % 512)) = 0#64 ∧ isValid 0#64 = false) ∧
    (memRead8 off.mem (0x80200000 + 8 * (0xC0000000 / 2 ^ 30 % 512)) = 0x2000040F#64 ∧ isLeaf 0x2000040F#64 = true) ∧
    off.intMasked = true ∧ { off with intMasked := false }.intMasked = false ∧ off.allocator 2 = [] := by
  decide

theorem ok_of_status {x : Except Fault (Response × State)}
    (h : x.toOption.map (fun r => r.1.st) = some Status.ok) : ∃ v t, x = .ok (⟨.ok, v⟩, t) := by
  cases x with
  | error f => simp [Except.toOption] at h
  | ok r =>
    obtain ⟨⟨st, v⟩, t⟩ := r
    simp only [Except.toOption, Option.map_some, Option.some.injEq] at h
    exact ⟨v, t, by rw [h]⟩

theorem map_grown_ok : (mapCall true 0x80200000#64 0x40200000#64 0x87600000#64 0x17#8 .l1 0 off).toOption.map
    (fun r => r.1.st) = some .ok := by decide +kernel

/-- A call that grows a table; the bytes around the one slot on the path and after the one frame. -/
theorem witness_MapTouchesMemoryAndAllocatorOnly :
    (∃ v t, mapCall true 0x80200000#64 0x40200000#64 0x87600000#64 0x17#8 .l1 0 off = .ok (⟨.ok, v⟩, t)) ∧
    readsFrom off.platform off.mem 0x40200000#64 (levelsAbove .l1 ++ [.l1]) 0x80200000#64 = [0x80200008] ∧
    (off.allocator 0).take (levelsAbove .l1).length = [0x80201000#64] ∧
    (0x80200007 < 0x80200008 ∧ 0x80200008 + 8 ≤ 0x80200010 ∧ (0x80201000#64 : Word).toNat + 4096 ≤ 0x80202000) := by
  refine ⟨ok_of_status map_grown_ok, ?_⟩
  decide +kernel

/-- A table is grown on the way. -/
theorem witness_MapThenWalkFindsTheLeaf : off.freshFrames 0 0x80200000#64 0x40200000#64 ∧ leafFlags 0x17#8 = true ∧
    ∃ v t, mapCall true 0x80200000#64 0x40200000#64 0x87600000#64 0x17#8 .l1 0 off = .ok (⟨.ok, v⟩, t) := by
  refine ⟨⟨by decide, ?_⟩, by decide, ok_of_status map_grown_ok⟩
  rw [show tablesFrom off.platform off.mem 0x40200000#64 [.l2, .l1, .l0] 0x80200000#64 = [0x80200000#64] by decide]
  exact fun f hf => by rcases List.mem_pair.1 hf with rfl | rfl <;> decide

/-- The allocator of the next witness: a frame that is no table of V5. -/
def off' : State := { off with allocs := [[0x80208000#64]] }

theorem map_deep_ok : (mapCall false 0x80200000#64 0x10005000#64 0x87654000#64 0x01#8 .l0 0 off').toOption.map
    (fun r => r.1.st) = some .ok := by decide

/-- Two tables are followed; the flags make a pointer. -/
theorem witness_MapTwiceReportsTheFirstFrame : off'.freshFrames 0 0x80200000#64 0x10005000#64 ∧
    (0x01#8 : FlagByte).getLsbD 0 = true ∧ pcrMode off'.pcr ≠ 8#4 ∧
    ∃ v t, mapCall false 0x80200000#64 0x10005000#64 0x87654000#64 0x01#8 .l0 0 off' = .ok (⟨.ok, v⟩, t) := by
  refine ⟨⟨by decide, ?_⟩, by decide, by decide, ok_of_status map_deep_ok⟩
  rw [show tablesFrom off'.platform off'.mem 0x10005000#64 [.l2, .l1, .l0] 0x80200000#64 =
    [0x80200000#64, 0x80201000#64, 0x80202000#64] by decide]
  exact fun f hf => by rcases List.mem_singleton.1 hf with rfl; decide

/-- A first `BOOT`, a second one, and a mapping of step 2 that finds its slot taken. -/
theorem witness_BootOrderAndFailure :
    ({ off with program := [.boot] }.halted = false ∧ { off with program := [.boot] }.booted = false ∧
      off.platform.devSize ≤ 2 ^ (12 + 9 * off.platform.devLevel.num)) ∧
    { off with program := [.boot], booted := true }.booted = true ∧
    mapCall (Config.keepsOrphans off.draws) off.platform.root 0xC0000000#64 0xC0000000#64 7#8 .l2 0 off =
      .ok (⟨.pageAlreadyMapped, 0x80001000#64⟩, off) := by
  refine ⟨by decide, by decide, rfl⟩

theorem witness_BootThenXlateIsTheIdentityOnRam :
    ({ off with program := [.boot] }.halted = false ∧ { off with program := [.boot] }.booted = false ∧
      off.intMasked = true ∧ pcrMode off.pcr ≠ 8#4 ∧ frameOk off.platform.root = true ∧
      allPopulated off.platform off.platform.root.toNat 4096 = true ∧ leafFlags off.platform.ramFlags = true ∧
      off.platform.devLevel = .l2 ∧ off.platform.devSize ≤ 2 ^ 30 ∧ frameOk off.platform.devBase = true ∧
      off.platform.devBase.toNat / 2 ^ 30 % 512 ≠ 2) ∧
    0x80000000 ≤ (0x80000000#64 : Word).toNat ∧ (0xBFFFFFFF#64 : Word).toNat < 0xC0000000 := by decide +kernel

/-- A call that grows a table, and a valid entry beside the slot that it writes. -/
theorem witness_MapOverwritesNoValidEntry :
    (∃ v t, mapCall true 0x80200000#64 0x40200000#64 0x87600000#64 0x17#8 .l1 0 off = .ok (⟨.ok, v⟩, t)) ∧
    (off.allocator 0).take (levelsAbove .l1).length = [0x80201000#64] ∧
    0x80200000 % 8 = 0 ∧ 0x80200000 + 8 ≤ (0x80201000#64 : Word).toNat ∧
    isValid (memRead8 off.mem 0x80200000) = true := by
  refine ⟨ok_of_status map_grown_ok, ?_⟩
  decide +kernel

/-- An illegal command, one that is answered `UNMAPPED`, a `MAP` of a bad frame and one that finds its slot taken. -/
theorem witness_ViolationsEndASafeRun :
    (step (sending off ⟨0#16, 0#64, 0#64⟩) = .next { off with resp := failWith .illegalCommand }) ∧
    (sending off ⟨0x0012#16, 0x40000000#64, 0x80200000#64⟩).sound ∧
    (step (sending off ⟨0x0012#16, 0x40000000#64, 0x80200000#64⟩) = .next { off with resp := failWith .unmapped }) ∧
    (mapCall (Config.keepsOrphans off.draws) 0x80200000#64 0x40000000#64 0x80000800#64 7#8 .l2 0 off =
      .ok (⟨.contractViolation, 0#64⟩, off)) ∧
    (mapCall (Config.keepsOrphans off.draws) 0x80200000#64 0xC0000000#64 0x80000000#64 7#8 .l2 0 off =
      .ok (⟨.pageAlreadyMapped, 0x80001000#64⟩, off)) := by
  refine ⟨rfl, ⟨fun _ h => ?_, fun _ h => ?_⟩, rfl, rfl, rfl⟩ <;> simp [sending, off, st] at h

end Sys2Proof.Tests
end

/-! PROOFS. The statements of spec/00_scope.md: canonical addresses as ranges (R14), the step of a host command (R16, R23),
the host's memory write (R12, R42), and the open parameters (R9). The platform is kept because of two frame lemmas: an
operation of the block writes the register, the cache, the response and the choice counter only (`exec_frame`), a call of
the Mapper writes memory and the allocators only (`mapCall_frame`). -/

namespace Sys2Proof.Machine

/-! ### Canonical addresses as ranges (R14) -/

/-- `canon` on the number (R13): bits 63:38 are all clear or all set. -/
theorem canon_iff_toNat (v : Word) :
    canon v = true ↔ v.toNat / 2 ^ 38 = 0 ∨ v.toNat / 2 ^ 38 = 2 ^ 26 - 1 := by
  have hv := v.isLt
  have hbit : v.getLsbD 38 = decide (v.toNat / 2 ^ 38 % 2 = 1) := by
    rw [← BitVec.testBit_toNat, Nat.testBit_eq_decide_div_mod_eq]
  unfold canon
  rw [beq_iff_eq, ← BitVec.toNat_inj, BitVec.extractLsb'_toNat, Nat.shiftRight_eq_div_pow, hbit]
  by_cases h : v.toNat / 2 ^ 38 % 2 = 1
  · simp only [h, decide_true, if_true, BitVec.toNat_allOnes]
    omega
  · simp only [h, decide_false, Bool.false_eq_true, if_false, BitVec.toNat_ofNat]
    omega

/-- Settles O20: with `canon` read as a fixed point of `sext39`, and as a range of numbers. -/
theorem canonicalAddressesAreTheTwoHalves : Obligations.CanonicalAddressesAreTheTwoHalves := by
  intro v
  have hv := v.isLt
  refine ⟨(canon_iff_sext39 _).1 (canon_sext39 v), canon_sext39 v, canon_iff_sext39 v, ?_⟩
  rw [canon_iff_toNat]
  omega

/-! ### The step of a command -/

/-- A legal control word runs its operation (R60). -/
theorem issue_of_decode {c : Command} {i : Instr} (h : decode c = .ok i) (s : State) : issue c s = exec i s := by
  simp only [issue, h]

/-- An illegal control word ends with `ILLEGAL_COMMAND` (R76). -/
theorem issue_of_decode_error {c : Command} {e : DecodeError} (h : decode c = .error e) (s : State) :
    issue c s = .next (s.raise .illegalCommand) := by
  simp only [issue, h]

/-- Everything a command can do: its operation, or the refusal. -/
theorem issue_cases {c : Command} {s t : State} (h : issue c s = .next t) :
    (∃ i, decode c = .ok i ∧ exec i s = .next t) ∨ t = s.raise .illegalCommand := by
  cases hc : decode c with
  | ok i => exact .inl ⟨i, rfl, issue_of_decode hc s ▸ h⟩
  | error e =>
    rw [issue_of_decode_error hc, Host.Outcome.next.injEq] at h
    exact .inr h.symm

/-- Settles O8: the step is the host's next action, and a legal command runs its operation. -/
theorem stepRunsTheDecodedOperation : Obligations.StepRunsTheDecodedOperation := by
  intro s c rest i hh hp hd
  calc step s = runAction (.command c) { s with program := rest } := step_action hh hp
    _ = exec i { s with program := rest } := issue_of_decode hd _

/-! ### The host's memory write -/

/-- Byte `k` of the stored value is at `addr + k` (R42). -/
theorem memByte_memWrite_leBytes (m : Memory) (addr v : Nat) {n k : Nat} (h : k < n) :
    memByte (memWrite m addr (leBytes n v)) (addr + k) = BitVec.ofNat 8 (v / 256 ^ k) := by
  rw [memByte_memWrite_at m addr (leBytes n v) (by simpa using h), leBytes_getElem]

/-- A store of `n` bytes leaves every byte outside them. -/
theorem memByte_memWrite_leBytes_of_outside (m : Memory) {addr n a : Nat} (v : Nat) (h : a < addr ∨ addr + n ≤ a) :
    memByte (memWrite m addr (leBytes n v)) a = memByte m a := by
  rcases h with h | h
  · exact memByte_memWrite_of_lt m _ h
  · exact memByte_memWrite_of_ge m _ (by simpa using h)

/-- The step of the host's write to bytes that are memory. -/
theorem step_memWrite {s : State} {addr : Word} {n v : Nat} {rest : List HostAction} (hh : s.halted = false)
    (hp : s.program = .memWrite addr n v :: rest) (ha : allPopulated s.platform addr.toNat n = true) :
    step s = .next { s with program := rest, mem := memWrite s.mem addr.toNat (leBytes n v) } := by
  rw [step_action hh hp]
  exact ofHost_next.2 (hostWrite_ok.2 ⟨ha, rfl⟩)

/-- Settles O48: the memory after the step is the little-endian store of the value. -/
theorem hostMemWriteStoresLittleEndian : Obligations.HostMemWriteStoresLittleEndian := by
  intro s addr n v rest hh hp ha
  exact ⟨_, step_memWrite hh hp ha, fun k hk => memByte_memWrite_leBytes s.mem addr.toNat v hk,
    fun x hx => memByte_memWrite_leBytes_of_outside s.mem v hx⟩

/-! ### What an operation of the block writes -/

/-- An operation writes the register, the cache, the response and the choice counter, and nothing else (R44, R211). -/
theorem exec_frame {i : Instr} {s t : State} (h : exec i s = .next t) :
    t = { s with pcr := t.pcr, tlb := t.tlb, resp := t.resp, draws := t.draws } := by
  cases i with
  | vaTrunc a | vaUnsafe a | vaVpn2 a | vaVpn1 a | vaVpn0 a | vaOff a | pteAddr a | pteFlags a | pteSetUnused a
  | pteIsValid a | pteIsLeaf a =>
    cases h; rfl
  | pteNew | pcrRead | tlbFlush => cases h; rfl
  | pteSetFlags flags a => cases h; rfl
  | vaTry a => cases h; split <;> rfl
  | pteSet flags a => cases h; split <;> rfl
  | pteCheck sel a => cases h; split <;> rfl
  | pcrSet a => cases h; split <;> rfl
  | ptRead a b =>
    cases h
    split
    · rfl
    · split
      · rfl
      · split <;> rfl
  | walk sel a b =>
    cases h
    split
    · rfl
    · split
      · rfl
      · rw [answerWalk_eq]
  | xlate sel a => cases h; rw [xlate_frame]; rfl

/-- A command writes no more than an operation does, legal or not. -/
theorem issue_frame {c : Command} {s t : State} (h : issue c s = .next t) :
    t = { s with pcr := t.pcr, tlb := t.tlb, resp := t.resp, draws := t.draws } := by
  rcases issue_cases h with ⟨i, _, hi⟩ | rfl
  · exact exec_frame hi
  · rfl

/-! ### What a call of the Mapper writes -/

/-- The target of a `MAP` writes memory only (R183). -/
theorem mapTarget_frame {page frame cur : Word} {flags : FlagByte} {level : Level} {s t : State} {r : Response}
    (h : mapTarget page frame flags level cur s = .ok (r, t)) : t = { s with mem := t.mem } := by
  obtain ⟨e, _, ⟨_, _, rfl⟩ | ⟨_, _, _, rfl⟩ | ⟨_, _, _, hs⟩⟩ := mapTarget_ok h
  · rfl
  · rfl
  · obtain ⟨_, _, rfl⟩ := hostStore_ok.1 hs
    rfl

/-- The descent of a `MAP` writes memory and the allocators only (R183, R186). -/
theorem mapDown_frame {keep : Bool} {page frame cur : Word} {flags : FlagByte} {level : Level} {al : Nat}
    {ls : List Level} {s t : State} {r : Response} (h : mapDown keep page frame flags level al ls cur s = .ok (r, t)) :
    t = { s with mem := t.mem, allocs := t.allocs } := by
  induction ls generalizing cur s t with
  | nil => rw [mapTarget_frame h]
  | cons l ls ih =>
    obtain ⟨e, _, ⟨_, _, rfl⟩ | ⟨_, hd⟩ | ⟨_, _, _, rfl⟩ | ⟨_, f, fs, s1, s2, s3, _, hz, hs, hd, rfl⟩⟩ := mapDown_cons_ok h
    · rfl
    · exact ih hd
    · rfl
    · obtain ⟨_, _, _, rfl⟩ := ptZero_ok.1 hz
      obtain ⟨_, _, rfl⟩ := hostStore_ok.1 hs
      rw [ih hd]
      split <;> rfl

theorem mapCall_frame {keep : Bool} {root page frame : Word} {flags : FlagByte} {level : Level} {al : Nat}
    {s t : State} {r : Response} (h : mapCall keep root page frame flags level al s = .ok (r, t)) :
    t = { s with mem := t.mem, allocs := t.allocs } := by
  obtain ⟨_, _, hd⟩ := mapCall_ok h
  exact mapDown_frame hd

/-! ### The open parameters stay (R9) -/

section
variable {s t : State}

theorem issue_platform {c : Command} (h : issue c s = .next t) : t.platform = s.platform := by
  rw [issue_frame h]

theorem runMap_platform {root page frame : Word} {flags : FlagByte} {level : Level} {al : Nat}
    (h : runMap root page frame flags level al s = .ok t) : t.platform = s.platform := by
  obtain ⟨r, u, hm, rfl⟩ := runMap_ok h
  rw [mapCall_frame hm]

theorem bootMap_platform {page : Word} {flags : FlagByte} {level : Level} (h : bootMap page flags level s = .ok t) :
    t.platform = s.platform := by
  obtain ⟨u, hu, rfl⟩ := bootMap_ok h
  rw [← runMap_platform hu]
  split <;> rfl

/-- No action of the host changes the open parameters. -/
theorem runAction_platform {act : HostAction} (h : runAction act s = .next t) : t.platform = s.platform := by
  cases act with
  | command c => exact issue_platform h
  | memWrite addr n v =>
    obtain ⟨_, rfl⟩ := hostWrite_ok.1 (ofHost_next.1 h)
    rfl
  | ptZero f =>
    obtain ⟨_, _, _, rfl⟩ := ptZero_ok.1 (ofHost_next.1 h)
    rfl
  | validEntries f =>
    obtain ⟨_, _, _, rfl⟩ := ptValidEntries_ok.1 (ofHost_next.1 h)
    rfl
  | map root page frame flags level al => exact runMap_platform (ofHost_next.1 h)
  | mapTo page frame flags level al => exact runMap_platform (ofHost_next.1 h)
  | deallocate al f => cases h; rfl
  | maskInterrupts on => cases h; rfl
  | boot =>
    obtain ⟨_, rfl⟩ := boot_ok (ofHost_next.1 h)
    rfl
  | bootMap page flags level => exact bootMap_platform (ofHost_next.1 h)
  | reset => cases h; rfl

end

/-- Settles O47: by the cases of a step, and the frame of each action. -/
theorem stepKeepsThePlatform : Obligations.StepKeepsThePlatform := by
  intro s t h
  obtain ⟨_, ⟨_, rfl⟩ | ⟨act, rest, _, ha⟩⟩ := step_cases h
  · rfl
  · exact runAction_platform (s := { s with program := rest }) ha

end Sys2Proof.Machine

/-! PROOFS. The statements of spec/10_state.md: the state at reset (R26, R29, R34, R240), what each operation leaves
unchanged (R25, R28, R44), and the invariant (R25, R27, R30). Three rules say what the invariant asks of a new register,
a new memory and a new cache; every action of the host is a chain of such writes, and no other field matters to it. -/

namespace Sys2Proof.Machine

/-! ### The cache after a reset (R29, R240) -/

/-- Where there is a cache, a reset leaves well-formed entries; where there is none, it leaves none. -/
theorem resetTlb_wf (present : Bool) (l : List CacheEntry) : cacheWf (if present then cacheOfList l else []) := by
  cases present with
  | false => exact cacheWf_nil
  | true => exact cacheOfList_wf l

theorem resetTlb_absent {present : Bool} (h : present = false) (l : List CacheEntry) :
    (if present then cacheOfList l else []) = [] := by
  simp [h]

/-- `PCR` at reset holds the mode bare (R26). -/
theorem modeLegal_pcrMode_zero : modeLegal (pcrMode 0#64) = true := by decide

/-- Settles O43: from the fields of the reset state. -/
theorem resetState : Obligations.ResetState := by
  intro p
  exact ⟨rfl, resetTlb_wf _ _, fun h => resetTlb_absent h _, rfl, rfl, rfl⟩

theorem resetOn_inv (p : Platform) : (State.resetOn p).Inv :=
  ⟨modeLegal_pcrMode_zero, wf_nil, resetTlb_wf _ _, fun h => resetTlb_absent h _⟩

/-- Settles O45: for every platform, so for the one of `State.reset` too. -/
theorem invariantHoldsAtReset : Obligations.InvariantHoldsAtReset :=
  ⟨resetOn_inv _, resetOn_inv⟩

/-! ### What an operation writes (R25, R28) -/

/-- Everything an operation can do: it gives a response and no more, or it is one of the three that write the block's
state: `XLATE`, an accepted `PCR.SET`, `TLB.FLUSH`. -/
theorem exec_cases {i : Instr} {s t : State} (h : exec i s = .next t) :
    t = { s with resp := t.resp } ∨
    (∃ sel a, i = .xlate sel a ∧ t = (s.xlate (Config.choice s.draws) sel a).tick) ∨
    (∃ a, i = .pcrSet a ∧ modeLegal (pcrMode a) = true ∧ t = (s.setPcr a).answer 0#64) ∨
    (i = .tlbFlush ∧ t = s.flush.answer 0#64) := by
  cases i with
  | xlate sel a => cases h; exact .inr (.inl ⟨sel, a, rfl, rfl⟩)
  | tlbFlush => cases h; exact .inr (.inr (.inr ⟨rfl, rfl⟩))
  | pcrSet a =>
    cases h
    by_cases hm : modeLegal (pcrMode a) = true
    · exact .inr (.inr (.inl ⟨a, rfl, hm, if_pos hm⟩))
    · exact .inl (by rw [if_neg hm]; rfl)
  | vaTrunc a | vaUnsafe a | vaVpn2 a | vaVpn1 a | vaVpn0 a | vaOff a | pteAddr a | pteFlags a | pteSetUnused a
  | pteIsValid a | pteIsLeaf a =>
    cases h; exact .inl rfl
  | pteNew | pcrRead => cases h; exact .inl rfl
  | pteSetFlags flags a => cases h; exact .inl rfl
  | vaTry a => cases h; left; split <;> rfl
  | pteSet flags a => cases h; left; split <;> rfl
  | pteCheck sel a => cases h; left; split <;> rfl
  | ptRead a b =>
    cases h
    left
    split
    · rfl
    · split
      · rfl
      · split <;> rfl
  | walk sel a b =>
    cases h
    left
    split
    · rfl
    · split
      · rfl
      · rw [answerWalk_eq]

section
variable {i : Instr} {s t : State}

/-- Only `PCR.SET` writes the register (R25). -/
theorem exec_pcr (h : exec i s = .next t) (hi : ∀ a, i ≠ .pcrSet a) : t.pcr = s.pcr := by
  rcases exec_cases h with ht | ⟨sel, a, rfl, rfl⟩ | ⟨a, rfl, _, rfl⟩ | ⟨rfl, rfl⟩
  · rw [ht]
  · rw [tick_pcr, xlate_frame]
  · exact absurd rfl (hi a)
  · rfl

/-- Only `XLATE` and `TLB.FLUSH` write the cache (R28). -/
theorem exec_tlb (h : exec i s = .next t) (hx : ∀ sel a, i ≠ .xlate sel a) (hf : i ≠ .tlbFlush) : t.tlb = s.tlb := by
  rcases exec_cases h with ht | ⟨sel, a, rfl, rfl⟩ | ⟨a, rfl, _, rfl⟩ | ⟨rfl, rfl⟩
  · rw [ht]
  · exact absurd rfl (hx sel a)
  · rfl
  · exact absurd rfl hf

/-- Only `XLATE` moves the counter of choices (log 6). -/
theorem exec_draws (h : exec i s = .next t) (hx : ∀ sel a, i ≠ .xlate sel a) : t.draws = s.draws := by
  rcases exec_cases h with ht | ⟨sel, a, rfl, rfl⟩ | ⟨a, rfl, _, rfl⟩ | ⟨rfl, rfl⟩
  · rw [ht]
  · exact absurd rfl (hx sel a)
  · rfl
  · rfl

end

/-- Settles O13: `exec_frame` for memory and the host's state, `exec_cases` for the block's three fields. -/
theorem operationFrame : Obligations.OperationFrame := by
  intro i s t h
  refine ⟨fun addr => by rw [exec_frame h], exec_pcr h, exec_tlb h, exec_draws h, ?_⟩
  rw [exec_frame h]
  exact ⟨rfl, rfl, rfl, rfl, rfl, rfl, rfl, rfl⟩

/-! ### One rule for each field that the invariant speaks of -/

section
variable {s t : State}

/-- A new register keeps the invariant if its mode is legal (R25). -/
theorem inv_withPcr {v : Word} (hs : s.Inv) (hv : modeLegal (pcrMode v) = true) : { s with pcr := v }.Inv := by
  obtain ⟨_, hmem, htlb, habsent⟩ := hs
  exact ⟨hv, hmem, htlb, habsent⟩

/-- A new memory keeps it if it is in canonical form (R30). -/
theorem inv_withMem {m : Memory} (hs : s.Inv) (hm : Memory.wf m) : { s with mem := m }.Inv := by
  obtain ⟨hmode, _, htlb, habsent⟩ := hs
  exact ⟨hmode, hm, htlb, habsent⟩

/-- A new cache keeps it if it is in canonical form, and empty where there is no cache (R27). -/
theorem inv_withTlb {c : Cache} (hs : s.Inv) (hc : cacheWf c) (hn : s.platform.tlbPresent = false → c = []) :
    { s with tlb := c }.Inv := by
  obtain ⟨hmode, hmem, _, _⟩ := hs
  exact ⟨hmode, hmem, hc, hn⟩

/-- No other field matters, but for the platform, which no step writes. -/
theorem inv_congr (hs : s.Inv) (hpcr : t.pcr = s.pcr) (hmem : t.mem = s.mem) (htlb : t.tlb = s.tlb)
    (hplat : t.platform = s.platform) : t.Inv := by
  unfold State.Inv
  rw [hpcr, hmem, htlb, hplat]
  exact hs

/-- The response is no part of the invariant. -/
theorem inv_answer (v : Word) (hs : s.Inv) : (s.answer v).Inv := hs

theorem inv_raise (st : Status) (hs : s.Inv) : (s.raise st).Inv := hs

/-- Nor is the counter of choices. -/
theorem inv_tick (hs : s.Inv) : s.tick.Inv := hs

theorem mem_wf_of_inv (hs : s.Inv) : Memory.wf s.mem := by
  obtain ⟨_, hmem, _, _⟩ := hs
  exact hmem

theorem tlb_wf_of_inv (hs : s.Inv) : cacheWf s.tlb := by
  obtain ⟨_, _, htlb, _⟩ := hs
  exact htlb

/-! ### The block's operations keep the invariant -/

theorem inv_flush (hs : s.Inv) : s.flush.Inv := inv_withTlb hs cacheWf_nil fun _ => rfl

/-- Eviction removes entries of a cache that is there (R166). -/
theorem inv_evict (ch : Choice) (hs : s.Inv) : (s.evict ch).Inv := by
  unfold State.evict
  split
  case isTrue hp => exact inv_withTlb hs (cacheEvict_wf ch (tlb_wf_of_inv hs)) fun ha => by simp [ha] at hp
  case isFalse => exact hs

/-- A fill with a leaf adds a well-formed entry to a cache that is there (R27, R165). -/
theorem inv_fill (ch : Choice) (va : Word) (l : Level) {e : Word} (hs : s.Inv) (he : isLeaf e = true) :
    (s.fill ch va l e).Inv := by
  unfold State.fill
  have hwf := cacheInsert_wf (tlb_wf_of_inv hs) (cacheEntryWf_of_leaf va l he)
  split
  case isTrue hp => exact inv_withTlb hs hwf fun ha => by simp [ha] at hp
  case isFalse => exact hs

theorem inv_answerWalk (va : Word) (r : WalkResult) (hs : s.Inv) : (s.answerWalk va r).Inv := by
  rw [answerWalk_eq]
  exact hs

/-- A translation evicts, and fills only with the leaf that its walk found. -/
theorem inv_translate (ch : Choice) (va : Word) (hs : s.Inv) : (s.translate ch va).Inv := by
  rcases translate_cases s ch va with ⟨e, _, _, ht⟩ | ⟨l, e, hw, ht⟩ | ⟨_, ht⟩
  · rw [ht]
    exact inv_answer _ (inv_evict ch hs)
  · rw [ht]
    exact inv_answer _ (inv_fill ch va l (inv_evict ch hs) (walk_leaf_isLeaf hw))
  · rw [ht]
    exact inv_answerWalk va _ (inv_evict ch hs)

theorem inv_xlate (ch : Choice) (sel : BitVec 2) (a : Word) (hs : s.Inv) : (s.xlate ch sel a).Inv := by
  rcases xlate_cases s ch sel a with ⟨_, _, ht⟩ | ⟨_, _, _, ht⟩ | ⟨va, _, _, ht⟩
  · rw [ht]
    exact inv_raise _ hs
  · rw [ht]
    exact inv_raise _ hs
  · rw [ht]
    exact inv_translate ch va hs

/-- Every operation of the block keeps the invariant: `PCR.SET` because it refuses an illegal mode (R161). -/
theorem exec_inv {i : Instr} (hs : s.Inv) (h : exec i s = .next t) : t.Inv := by
  rcases exec_cases h with ht | ⟨sel, a, _, rfl⟩ | ⟨a, _, hm, rfl⟩ | ⟨_, rfl⟩
  · rw [ht]
    exact hs
  · exact inv_tick (inv_xlate _ sel a hs)
  · exact inv_answer _ (inv_withPcr hs hm)
  · exact inv_answer _ (inv_flush hs)

theorem issue_inv {c : Command} (hs : s.Inv) (h : issue c s = .next t) : t.Inv := by
  rcases issue_cases h with ⟨i, _, hi⟩ | rfl
  · exact exec_inv hs hi
  · exact inv_raise _ hs

theorem inv_resetBlock (hs : s.Inv) : s.resetBlock.Inv := by
  have hmem : Memory.wf s.mem := mem_wf_of_inv hs
  exact ⟨modeLegal_pcrMode_zero, hmem, resetTlb_wf _ _, fun h => resetTlb_absent h _⟩

/-! ### The host's writes keep the invariant (R30) -/

/-- A host write reaches bytes that are memory, so none at or above 2^56. -/
theorem hostWrite_inv {addr : Word} {n v : Nat} (hs : s.Inv) (h : hostWrite addr n v s = .ok t) : t.Inv := by
  obtain ⟨ha, rfl⟩ := hostWrite_ok.1 h
  exact inv_withMem hs (wf_memWrite (mem_wf_of_inv hs) (by simpa using allPopulated_bound ha))

theorem hostStore_inv {slot w : Word} (hs : s.Inv) (h : hostStore s slot w = .ok t) : t.Inv := by
  obtain ⟨ha, _, rfl⟩ := hostStore_ok.1 h
  exact inv_withMem hs (wf_memWrite8 (mem_wf_of_inv hs) w (allPopulated_bound ha))

theorem ptZero_inv {f : Word} (hs : s.Inv) (h : ptZero f s = .ok t) : t.Inv := by
  obtain ⟨_, ha, _, rfl⟩ := ptZero_ok.1 h
  exact inv_withMem hs (wf_memZeroTable (mem_wf_of_inv hs) (allPopulated_bound ha))

/-- No allocator is part of the invariant (R182). -/
theorem inv_setAllocator (al : Nat) (fs : List Word) (hs : s.Inv) : (s.setAllocator al fs).Inv :=
  inv_congr hs rfl rfl rfl rfl

theorem inv_deallocateFrame (al : Nat) (f : Word) (hs : s.Inv) : (deallocateFrame al f s).Inv :=
  inv_setAllocator al _ hs

/-- Taking back a table stores the old word in its slot, below 2^56 (R186). -/
theorem inv_undoGrow (al : Nat) {slot : Word} (old f : Word) (hs : s.Inv)
    (ha : slot.toNat + 8 ≤ Config.physLimit) : (undoGrow al slot old f s).Inv :=
  inv_deallocateFrame al f (inv_withMem hs (wf_memWrite8 (mem_wf_of_inv hs) old ha))

theorem mapTarget_inv {page frame cur : Word} {flags : FlagByte} {level : Level} {r : Response} (hs : s.Inv)
    (h : mapTarget page frame flags level cur s = .ok (r, t)) : t.Inv := by
  obtain ⟨e, _, ⟨_, _, rfl⟩ | ⟨_, _, _, rfl⟩ | ⟨_, _, _, ht⟩⟩ := mapTarget_ok h
  · exact hs
  · exact hs
  · exact hostStore_inv hs ht

/-- By induction on the levels: growth zeroes a table and stores its pointer before the descent goes on, and a rollback
stores to the slot that the descent has read. -/
theorem mapDown_inv {keep : Bool} {page frame cur : Word} {flags : FlagByte} {level : Level} {al : Nat}
    {ls : List Level} {r : Response} (hs : s.Inv)
    (h : mapDown keep page frame flags level al ls cur s = .ok (r, t)) : t.Inv := by
  induction ls generalizing cur s t with
  | nil => exact mapTarget_inv hs h
  | cons l ls ih =>
    obtain ⟨e, hl, ⟨_, _, rfl⟩ | ⟨_, hd⟩ | ⟨_, _, _, rfl⟩ | ⟨_, f, fs, s1, s2, s3, _, hz, hw, hd, rfl⟩⟩ := mapDown_cons_ok h
    · exact hs
    · exact ih hs hd
    · exact hs
    · have hs1 : s1.Inv := ptZero_inv (inv_setAllocator al fs hs) hz
      have hs3 : s3.Inv := ih (hostStore_inv hs1 hw) hd
      split
      · exact hs3
      · obtain ⟨ha, _, _⟩ := hostLoad_ok.1 hl
        exact inv_undoGrow al e f hs3 (allPopulated_bound ha)

/-! ### Every action of the host keeps the invariant -/

/-- The outcome of a `MAP` and the counter of choices are no part of the invariant (R184, log 6). -/
theorem runMap_inv {root page frame : Word} {flags : FlagByte} {level : Level} {al : Nat} (hs : s.Inv)
    (h : runMap root page frame flags level al s = .ok t) : t.Inv := by
  obtain ⟨r, u, hc, rfl⟩ := runMap_ok h
  obtain ⟨_, _, hd⟩ := mapCall_ok hc
  exact inv_congr (mapDown_inv hs hd) rfl rfl rfl rfl

theorem bootMap_inv {page : Word} {flags : FlagByte} {level : Level} (hs : s.Inv)
    (h : bootMap page flags level s = .ok t) : t.Inv := by
  obtain ⟨u, hu, rfl⟩ := bootMap_ok h
  have hui : u.Inv := runMap_inv hs hu
  split
  · exact hui
  · exact inv_congr hui rfl rfl rfl rfl

theorem runAction_inv {act : HostAction} (hs : s.Inv) (h : runAction act s = .next t) : t.Inv := by
  cases act with
  | command c => exact issue_inv hs h
  | memWrite addr n v => exact hostWrite_inv hs (ofHost_next.1 h)
  | ptZero f => exact ptZero_inv hs (ofHost_next.1 h)
  | validEntries f =>
    obtain ⟨_, _, _, rfl⟩ := ptValidEntries_ok.1 (ofHost_next.1 h)
    exact inv_congr hs rfl rfl rfl rfl
  | map root page frame flags level al => exact runMap_inv hs (ofHost_next.1 h)
  | mapTo page frame flags level al => exact runMap_inv hs (ofHost_next.1 h)
  | deallocate al f => cases h; exact inv_deallocateFrame al f hs
  | maskInterrupts on => cases h; exact inv_congr hs rfl rfl rfl rfl
  | boot =>
    obtain ⟨_, rfl⟩ := boot_ok (ofHost_next.1 h)
    exact inv_congr hs rfl rfl rfl rfl
  | bootMap page flags level => exact bootMap_inv hs (ofHost_next.1 h)
  | reset => cases h; exact inv_resetBlock hs

end

/-- Settles O46: by the cases of a step; taking the action off the list of actions touches no field of the invariant. -/
theorem stepKeepsTheInvariant : Obligations.StepKeepsTheInvariant := by
  intro s t hs h
  obtain ⟨_, ⟨_, rfl⟩ | ⟨act, rest, _, ha⟩⟩ := step_cases h
  · exact hs
  · exact runAction_inv (s := { s with program := rest }) (inv_congr hs rfl rfl rfl rfl) ha

end Sys2Proof.Machine

/-! PROOFS. The statements of spec/20_memory.md: no operation writes memory (R44), and `PT.READ` returns the entry that
the host wrote last (R42, R51, R140). The second joins two rules: the host's 8-byte write is a store of the entry, and
the table read, where it is not refused, answers the eight bytes at the entry's address. -/

namespace Sys2Proof.Machine

/-- Settles O12: memory is none of the fields an operation writes. -/
theorem blockNeverWritesMemory : Obligations.BlockNeverWritesMemory := by
  intro i s t h
  have hmem : t.mem = s.mem := by rw [exec_frame h]
  exact ⟨hmem, fun addr => by rw [hmem]⟩

/-! ### The table read (R140) -/

/-- The address of an entry whose bytes all exist holds memory. -/
theorem memPopulated_entryAddr {p : Platform} {f idx : Word} (hf : frameOk f = true) (hi : idx.toNat < 512)
    (ha : allPopulated p (f.toNat + 8 * idx.toNat) 8 = true) : memPopulated p (entryAddr f idx).toNat = true := by
  rw [entryAddr_toNat hf hi]
  exact allPopulated_byte (k := 0) ha (by decide)

/-- `PT.READ` past its three tests: a good frame, an index below 512, an address that holds memory. -/
theorem exec_ptRead_of_holds {f idx e : Word} {s : State} (hf : frameOk f = true) (hi : idx.toNat < 512)
    (h : s.holds (entryAddr f idx).toNat e) : exec (.ptRead f idx) s = .next (s.answer e) := by
  obtain ⟨ha, he⟩ := h
  have hidx : decide (512 ≤ idx.toNat) = false := decide_eq_false (by omega)
  simp only [exec, execPtRead, hf, hidx, readEntry_of_populated ha, he, Bool.not_true, Bool.false_eq_true, if_false]

/-- The step of the host's write of one entry (R51). -/
theorem step_memWrite_entry {s : State} {f idx w : Word} {rest : List HostAction} (hh : s.halted = false)
    (hf : frameOk f = true) (hi : idx.toNat < 512) (hp : s.program = .memWrite (entryAddr f idx) 8 w.toNat :: rest)
    (ha : allPopulated s.platform (f.toNat + 8 * idx.toNat) 8 = true) :
    step s = .next { s with program := rest, mem := memWrite8 s.mem (entryAddr f idx).toNat w } :=
  step_memWrite hh hp (by rwa [entryAddr_toNat hf hi])

/-- Settles O49: the read after the store of the entry, at the same address. -/
theorem ptReadSeesTheLastHostWrite : Obligations.PtReadSeesTheLastHostWrite := by
  intro s f i w rest hh hf hi hp ha
  exact ⟨_, step_memWrite_entry hh hf hi hp ha,
    exec_ptRead_of_holds hf hi ⟨memPopulated_entryAddr hf hi ha, memRead8_memWrite8 s.mem _ w⟩⟩

end Sys2Proof.Machine

/-! PROOFS. The statements of spec/30_encoding.md and spec/60_exceptions.md R211, R215. The decoder, the encoder and the
table of R64 are three readings of one relation, `Instr.AdmitsWord`: a control word is a legal word of an operation's
mnemonic. The decoder answers an operation for exactly the words some operation admits (`decode_of_admitsWord`,
`admitsWord_of_decode`), the encoder writes a word its operation admits (`admitsWord_encode`), and an operation's row
selects the words it admits, and in format S those with selector 3 besides (`row_selects_iff`). -/

namespace Sys2Proof

/-! ### The fields of a control word (R60) -/

section
variable (flags : FlagByte) (sel : BitVec 2) (op : BitVec 5) (w m : BitVec 16)

@[simp] theorem cwFlags_cwOf : cwFlags (cwOf flags sel op) = flags := by
  obtain ⟨hflags, _, _, _⟩ := cwOf_fields flags sel op
  exact hflags

@[simp] theorem cwSel_cwOf : cwSel (cwOf flags sel op) = sel := by
  obtain ⟨_, hsel, _, _⟩ := cwOf_fields flags sel op
  exact hsel

@[simp] theorem cwOp_cwOf : cwOp (cwOf flags sel op) = op := by
  obtain ⟨_, _, hop, _⟩ := cwOf_fields flags sel op
  exact hop

@[simp] theorem cwReserved_cwOf : cwReserved (cwOf flags sel op) = 0#1 := by
  obtain ⟨_, _, _, hres⟩ := cwOf_fields flags sel op
  exact hres

@[simp] theorem cwFlags_and : cwFlags (w &&& m) = cwFlags w &&& cwFlags m := BitVec.extractLsb'_and ..

@[simp] theorem cwSel_and : cwSel (w &&& m) = cwSel w &&& cwSel m := BitVec.extractLsb'_and ..

@[simp] theorem cwOp_and : cwOp (w &&& m) = cwOp w &&& cwOp m := BitVec.extractLsb'_and ..

@[simp] theorem cwReserved_and : cwReserved (w &&& m) = cwReserved w &&& cwReserved m := BitVec.extractLsb'_and ..

end

/-- The four fields are all of a control word. -/
theorem cw_eq_iff {w v : BitVec 16} :
    w = v ↔ cwFlags w = cwFlags v ∧ cwReserved w = cwReserved v ∧ cwSel w = cwSel v ∧ cwOp w = cwOp v := by
  refine ⟨fun h => by simp [h], fun h => ?_⟩
  simp only [cwFlags, cwReserved, cwSel, cwOp, ← BitVec.toNat_inj, BitVec.extractLsb'_toNat,
    Nat.shiftRight_eq_div_pow] at h
  have hw := w.isLt
  have hv := v.isLt
  exact BitVec.eq_of_toNat_eq (by omega)

/-! ### The formats (R60) -/

/-- The decoder of a format. -/
def Format.decode : Format → FlagByte → BitVec 2 → Instr → Except DecodeError Instr
  | .N, flags, sel, i => decodeN flags sel i
  | .F, _, sel, i => decodeF sel i
  | .S, flags, sel, i => decodeS flags sel i

/-- What R76 asks of `flags` and `sel` in each format. -/
def Format.Admits (f : Format) (flags : FlagByte) (sel : BitVec 2) : Prop :=
  (f ≠ .F → flags = 0#8) ∧ (f ≠ .S → sel = 0#2) ∧ (f = .S → sel ≠ 3#2)

section
variable {flags : FlagByte} {sel : BitVec 2}

@[simp] theorem Format.admits_N : Format.Admits .N flags sel ↔ flags = 0#8 ∧ sel = 0#2 := by simp [Format.Admits]

@[simp] theorem Format.admits_F : Format.Admits .F flags sel ↔ sel = 0#2 := by simp [Format.Admits]

@[simp] theorem Format.admits_S : Format.Admits .S flags sel ↔ flags = 0#8 ∧ sel ≠ 3#2 := by simp [Format.Admits]

/-- A format's decoder answers the operation it is given, where the fields are admitted. -/
theorem Format.decode_ok {f : Format} {i j : Instr} : f.decode flags sel i = .ok j ↔ f.Admits flags sel ∧ i = j := by
  cases f with
  | N => rw [Format.decode, decodeN_ok, Format.admits_N, and_assoc]
  | F => rw [Format.decode, decodeF_ok, Format.admits_F]
  | S => rw [Format.decode, decodeS_ok, Format.admits_S, and_assoc]

end

/-- The bits of a control word that a row of the format fixes (R64). -/
def Format.mask : Format → BitVec 16
  | .N => 0xFFFF#16
  | .F => 0x00FF#16
  | .S => 0xFF9F#16

/-- Each field of a mask is all ones or all zeros: `flags` is dropped in format F, `sel` in format S, and no more. -/
theorem Format.mask_fields (f : Format) :
    cwReserved f.mask = BitVec.allOnes 1 ∧ cwOp f.mask = BitVec.allOnes 5 ∧
      cwFlags f.mask = (if f = .F then 0#8 else BitVec.allOnes 8) ∧
      cwSel f.mask = (if f = .S then 0#2 else BitVec.allOnes 2) := by
  cases f <;> decide

/-- A field is 0 under a mask that may drop it where it is 0 or dropped. -/
theorem and_dropMask_eq_zero_iff {n : Nat} {p : Prop} [Decidable p] {x : BitVec n} :
    x &&& (if p then 0#n else BitVec.allOnes n) = 0#n ↔ (¬ p → x = 0#n) := by
  by_cases h : p
  · rw [if_pos h, BitVec.and_zero]
    exact iff_of_true rfl fun hn => absurd h hn
  · rw [if_neg h, BitVec.and_allOnes]
    exact ⟨fun hx _ => hx, fun hx => hx h⟩

/-- Under its format's mask a control word is the row's value where the reserved bit is clear, `op` is the row's, and
the fields that the format does not use are 0. -/
theorem Format.and_mask_eq_iff {f : Format} {w : BitVec 16} {op : BitVec 5} :
    w &&& f.mask = cwOf 0#8 0#2 op ↔
      cwReserved w = 0#1 ∧ cwOp w = op ∧ (f ≠ .F → cwFlags w = 0#8) ∧ (f ≠ .S → cwSel w = 0#2) := by
  obtain ⟨hres, hop, hflags, hsel⟩ := f.mask_fields
  simp only [cw_eq_iff, cwFlags_and, cwReserved_and, cwSel_and, cwOp_and, hres, hop, hflags, hsel, cwFlags_cwOf,
    cwReserved_cwOf, cwSel_cwOf, cwOp_cwOf, BitVec.and_allOnes]
  rw [and_dropMask_eq_zero_iff, and_dropMask_eq_zero_iff]
  tauto

/-! ### The control words of an operation (R64, R65) -/

/-- The format of an operation's row. -/
def Instr.format : Instr → Format
  | .pteSet _ _ | .pteSetFlags _ _ => .F
  | .pteCheck _ _ | .walk _ _ _ | .xlate _ _ => .S
  | _ => .N

/-- The `op` that the encoder writes. -/
def Instr.op (i : Instr) : BitVec 5 := cwOp (encode i).cw

/-- A legal control word of the operation's mnemonic. -/
def Instr.AdmitsWord (k : Instr) (w : BitVec 16) : Prop :=
  cwReserved w = 0#1 ∧ cwOp w = k.op ∧ k.format.Admits (cwFlags w) (cwSel w)

/-- The operation of the same mnemonic with the fields and operands of a command (R65). -/
def Instr.withFieldsOf (c : Command) : Instr → Instr
  | .vaTry _ => .vaTry c.a
  | .vaTrunc _ => .vaTrunc c.a
  | .vaUnsafe _ => .vaUnsafe c.a
  | .vaVpn2 _ => .vaVpn2 c.a
  | .vaVpn1 _ => .vaVpn1 c.a
  | .vaVpn0 _ => .vaVpn0 c.a
  | .vaOff _ => .vaOff c.a
  | .pteNew => .pteNew
  | .pteSet _ _ => .pteSet (cwFlags c.cw) c.a
  | .pteAddr _ => .pteAddr c.a
  | .pteFlags _ => .pteFlags c.a
  | .pteSetFlags _ _ => .pteSetFlags (cwFlags c.cw) c.a
  | .pteSetUnused _ => .pteSetUnused c.a
  | .pteIsValid _ => .pteIsValid c.a
  | .pteIsLeaf _ => .pteIsLeaf c.a
  | .pteCheck _ _ => .pteCheck (cwSel c.cw) c.a
  | .ptRead _ _ => .ptRead c.a c.b
  | .walk _ _ _ => .walk (cwSel c.cw) c.a c.b
  | .xlate _ _ => .xlate (cwSel c.cw) c.a
  | .pcrSet _ => .pcrSet c.a
  | .pcrRead => .pcrRead
  | .tlbFlush => .tlbFlush

/-- One operation of each mnemonic, in the order of R64. -/
def operations : List Instr :=
  [.vaTry 0#64, .vaTrunc 0#64, .vaUnsafe 0#64, .vaVpn2 0#64, .vaVpn1 0#64, .vaVpn0 0#64, .vaOff 0#64, .pteNew,
   .pteSet 0#8 0#64, .pteAddr 0#64, .pteFlags 0#64, .pteSetFlags 0#8 0#64, .pteSetUnused 0#64, .pteIsValid 0#64,
   .pteIsLeaf 0#64, .pteCheck 0#2 0#64, .ptRead 0#64 0#64, .walk 0#2 0#64 0#64, .xlate 0#2 0#64, .pcrSet 0#64,
   .pcrRead, .tlbFlush]

/-- Each `op` is an operation's or reserved (R64). -/
theorem op_cases : ∀ op : BitVec 5, (∃ k ∈ operations, op = k.op) ∨ op.toNat = 0 ∨ 23 ≤ op.toNat := by decide

theorem operations_op_nodup : (operations.map Instr.op).Nodup := by decide

theorem withFieldsOf_mnemonic (k : Instr) (c : Command) : (k.withFieldsOf c).mnemonic = k.mnemonic := by
  cases k <;> rfl

/-! ### The decoder on each `op` -/

section
variable {c : Command} {i k : Instr}

/-- Every arm of the decoder's match is its format's decoder, on the operation with its fields from the command. -/
theorem decodeOp_eq (h : cwOp c.cw = k.op) :
    decodeOp c = k.format.decode (cwFlags c.cw) (cwSel c.cw) (k.withFieldsOf c) := by
  cases k
  all_goals
    simp only [Instr.op, encode, cwOp_cwOf] at h
    simp only [decodeOp, h]
    rfl

/-- No arm of the decoder's match is for a reserved `op` (R64, R76). -/
theorem decodeOp_reserved (h : (cwOp c.cw).toNat = 0 ∨ 23 ≤ (cwOp c.cw).toNat) :
    decodeOp c = .error .reservedOp := by
  simp only [decodeOp]
  split
  case h_23 => rfl
  all_goals omega

theorem decode_of_reserved_clear (h : cwReserved c.cw = 0#1) : decode c = decodeOp c := by simp [decode, h]

theorem decode_of_reserved_set (h : cwReserved c.cw ≠ 0#1) : decode c = .error .reservedBitSet := by simp [decode, h]

/-- A legal word of `k` is decoded to an operation of its mnemonic, with the fields and operands of the command. -/
theorem decode_of_admitsWord (h : k.AdmitsWord c.cw) : decode c = .ok (k.withFieldsOf c) := by
  obtain ⟨hres, hop, hadm⟩ := h
  rw [decode_of_reserved_clear hres, decodeOp_eq hop]
  exact Format.decode_ok.2 ⟨hadm, rfl⟩

/-- Whatever the decoder reads, it reads from a legal word of an operation. -/
theorem admitsWord_of_decode (h : decode c = .ok i) : ∃ k ∈ operations, k.AdmitsWord c.cw ∧ k.withFieldsOf c = i := by
  by_cases hres : cwReserved c.cw = 0#1
  · rw [decode_of_reserved_clear hres] at h
    rcases op_cases (cwOp c.cw) with ⟨k, hk, hop⟩ | hop
    · rw [decodeOp_eq hop] at h
      obtain ⟨hadm, hi⟩ := Format.decode_ok.1 h
      exact ⟨k, hk, ⟨hres, hop, hadm⟩, hi⟩
    · rw [decodeOp_reserved hop] at h
      cases h
  · rw [decode_of_reserved_set hres] at h
    cases h

/-- The legal control words are the words that some operation admits (R76). -/
theorem decode_isOk_iff : (∃ i, decode c = .ok i) ↔ ∃ k ∈ operations, k.AdmitsWord c.cw := by
  constructor
  · rintro ⟨i, h⟩
    obtain ⟨k, hk, hw, _⟩ := admitsWord_of_decode h
    exact ⟨k, hk, hw⟩
  · rintro ⟨k, _, hw⟩
    exact ⟨_, decode_of_admitsWord hw⟩

/-! ### The encoder -/

/-- The encoder writes a legal word of a well-formed operation (R64). -/
theorem admitsWord_encode (h : WellFormed i = true) : i.AdmitsWord (encode i).cw := by
  cases i with
  | pteCheck sel a | walk sel a b | xlate sel a =>
    simpa [Instr.AdmitsWord, Instr.op, encode, Instr.format, WellFormed, selLegal] using h
  | _ => simp [Instr.AdmitsWord, Instr.op, encode, Instr.format]

/-- The encoder writes every field and operand that the operation has (R65). -/
theorem withFieldsOf_encode (i : Instr) : i.withFieldsOf (encode i) = i := by
  cases i <;> simp [encode, Instr.withFieldsOf]

/-- An operation read from a legal word is well-formed: format S admits no selector 3. -/
theorem wellFormed_withFieldsOf (h : k.AdmitsWord c.cw) : WellFormed (k.withFieldsOf c) = true := by
  obtain ⟨_, _, hadm⟩ := h
  cases k with
  | pteCheck sel a | walk sel a b | xlate sel a =>
    obtain ⟨_, hsel⟩ := Format.admits_S.1 hadm
    simpa [WellFormed, selLegal, Instr.withFieldsOf] using hsel
  | _ => rfl

/-- The fields that a format drops are 0 in a legal word, so the encoder writes the whole word back. -/
theorem encode_withFieldsOf_cw (h : k.AdmitsWord c.cw) : (encode (k.withFieldsOf c)).cw = c.cw := by
  obtain ⟨hres, hop, hadm⟩ := h
  rw [cw_eq_iff, hres, hop]
  cases k with
  | pteSet flags a | pteSetFlags flags a =>
    have hsel := Format.admits_F.1 hadm
    simp [Instr.withFieldsOf, Instr.op, encode, hsel]
  | pteCheck sel a | walk sel a b | xlate sel a =>
    obtain ⟨hflags, _⟩ := Format.admits_S.1 hadm
    simp [Instr.withFieldsOf, Instr.op, encode, hflags]
  | _ =>
    obtain ⟨hflags, hsel⟩ := Format.admits_N.1 hadm
    simp [Instr.withFieldsOf, Instr.op, encode, hflags, hsel]

end

/-- Settles O1: the encoder's word is legal, and the decoder takes every field and operand from where it was put. -/
theorem decodeEncodeRoundTrip : Obligations.DecodeEncodeRoundTrip := by
  intro i hi
  calc decode (encode i) = .ok (i.withFieldsOf (encode i)) := decode_of_admitsWord (admitsWord_encode hi)
    _ = .ok i := by rw [withFieldsOf_encode]

/-- Settles O2: the operation is read from a legal word, and the encoder writes that word back. -/
theorem decodedOperationReencodesToItsWord : Obligations.DecodedOperationReencodesToItsWord := by
  intro c i h
  obtain ⟨k, _, hw, rfl⟩ := admitsWord_of_decode h
  exact ⟨wellFormed_withFieldsOf hw, encode_withFieldsOf_cw hw⟩

/-! ### The table of R64 -/

/-- The row of an operation, from its mnemonic, format and `op`. -/
def Instr.row (k : Instr) : OpcodeRow := ⟨k.mnemonic, k.format, cwOf 0#8 0#2 k.op, k.format.mask⟩

/-- The table as it is written out is the operations' rows, in order. -/
theorem opcodeTable_eq : opcodeTable = operations.map Instr.row := by decide

theorem mem_opcodeTable {r : OpcodeRow} : r ∈ opcodeTable ↔ ∃ k ∈ operations, k.row = r := by
  rw [opcodeTable_eq, List.mem_map]

theorem row_selects {k : Instr} {w : BitVec 16} :
    k.row.selects w = true ↔ cwReserved w = 0#1 ∧ cwOp w = k.op ∧ (k.format ≠ .F → cwFlags w = 0#8) ∧
      (k.format ≠ .S → cwSel w = 0#2) := by
  rw [OpcodeRow.selects, beq_iff_eq]
  exact Format.and_mask_eq_iff

/-- A row selects the legal words of its operations, and in format S those with selector 3 too (R76). -/
theorem row_selects_iff {k : Instr} {w : BitVec 16} :
    k.row.selects w = true ∧ (k.row.format = .S → cwSel w ≠ 3#2) ↔ k.AdmitsWord w := by
  rw [row_selects]
  simp only [Instr.row, Instr.AdmitsWord, Format.Admits, and_assoc]

/-- Settles O3: both sides say that some operation admits the word. -/
theorem legalWordsAreTheTableRows : Obligations.LegalWordsAreTheTableRows := by
  intro c
  refine ⟨?_, fun i h => ?_⟩
  · rw [decode_isOk_iff]
    constructor
    · rintro ⟨k, hk, hw⟩
      exact ⟨k.row, mem_opcodeTable.2 ⟨k, hk, rfl⟩, row_selects_iff.2 hw⟩
    · rintro ⟨r, hr, hsel⟩
      obtain ⟨k, hk, rfl⟩ := mem_opcodeTable.1 hr
      exact ⟨k, hk, row_selects_iff.1 hsel⟩
  · obtain ⟨k, hk, hw, rfl⟩ := admitsWord_of_decode h
    obtain ⟨hsel, _⟩ := row_selects_iff.2 hw
    exact ⟨k.row, mem_opcodeTable.2 ⟨k, hk, rfl⟩, hsel, (withFieldsOf_mnemonic k c).symm⟩

/-- Settles O4: a word has one `op`, and a row that selects it has that `op`. -/
theorem noControlWordMatchesTwoRows : Obligations.NoControlWordMatchesTwoRows := by
  intro w r hr q hq hrw hqw
  obtain ⟨j, hj, rfl⟩ := mem_opcodeTable.1 hr
  obtain ⟨k, hk, rfl⟩ := mem_opcodeTable.1 hq
  obtain ⟨_, hjop, _⟩ := row_selects.1 hrw
  obtain ⟨_, hkop, _⟩ := row_selects.1 hqw
  rw [List.inj_on_of_nodup_map operations_op_nodup hj hk (hjop.symm.trans hkop)]

/-! ### The number of legal words (R76) -/

/-- The values of `flags` and `sel` that a format admits, one by one. -/
def Format.fields : Format → List (FlagByte × BitVec 2)
  | .N => [(0#8, 0#2)]
  | .F => (List.finRange 256).map fun n => (BitVec.ofFin n, 0#2)
  | .S => [(0#8, 0#2), (0#8, 1#2), (0#8, 2#2)]

theorem Format.mem_fields {f : Format} {p : FlagByte × BitVec 2} : p ∈ f.fields ↔ f.Admits p.1 p.2 := by
  obtain ⟨flags, sel⟩ := p
  cases f with
  | N => simp [Format.fields]
  | F =>
    simp only [Format.fields, List.mem_map, List.mem_finRange, true_and, Prod.mk.injEq, Format.admits_F]
    exact ⟨fun ⟨_, _, h⟩ => h.symm, fun h => ⟨flags.toFin, rfl, h.symm⟩⟩
  | S => rcases Machine.sel_cases sel with rfl | rfl | rfl | rfl <;> simp [Format.fields]

theorem Format.fields_nodup (f : Format) : f.fields.Nodup := by
  cases f with
  | N | S => decide
  | F =>
    refine (List.nodup_finRange 256).map fun m n h => ?_
    simpa using h

/-- The legal control words of an operation's mnemonic. -/
def Instr.words (k : Instr) : List (BitVec 16) := k.format.fields.map fun p => cwOf p.1 p.2 k.op

theorem mem_words {k : Instr} {w : BitVec 16} : w ∈ k.words ↔ k.AdmitsWord w := by
  simp only [Instr.words, List.mem_map, Format.mem_fields]
  constructor
  · rintro ⟨p, hp, rfl⟩
    simpa [Instr.AdmitsWord] using hp
  · rintro ⟨hres, hop, hadm⟩
    exact ⟨(cwFlags w, cwSel w), hadm, cw_eq_iff.2 (by simp [hres, hop])⟩

theorem words_nodup (k : Instr) : k.words.Nodup := by
  refine k.format.fields_nodup.map fun p q h => ?_
  have hflags := congrArg cwFlags h
  have hsel := congrArg cwSel h
  simp only [cwFlags_cwOf, cwSel_cwOf] at hflags hsel
  exact Prod.ext hflags hsel

/-- The legal control words, row after row. -/
def legalWords : List (BitVec 16) := operations.flatMap Instr.words

theorem mem_legalWords {c : Command} : c.cw ∈ legalWords ↔ ∃ i, decode c = .ok i := by
  simp only [legalWords, List.mem_flatMap, mem_words, decode_isOk_iff]

/-- The rows' words are apart, because their `op`s are. -/
theorem legalWords_nodup : legalWords.Nodup := by
  have hne : operations.Pairwise fun j k => j.op ≠ k.op := List.pairwise_map.1 operations_op_nodup
  refine List.nodup_flatMap.2 ⟨fun k _ => words_nodup k, hne.imp fun {j k} hjk w hj hk => hjk ?_⟩
  obtain ⟨_, hjop, _⟩ := mem_words.1 hj
  obtain ⟨_, hkop, _⟩ := mem_words.1 hk
  exact hjop.symm.trans hkop

/-- R76: 17 words of format N, 256 of each row of format F, 3 of each row of format S. -/
theorem legalWords_length : legalWords.length = 17 + 2 * 256 + 3 * 3 := by
  have hlen (k : Instr) : k.words.length = k.format.fields.length := List.length_map _
  simp only [legalWords, List.length_flatMap, hlen]
  simp [operations, Instr.format, Format.fields]

/-- The decoder of table words reads the first 16 bits as the control word. -/
theorem decodeTableWord_isSome_iff {n : Nat} :
    (decodeTableWord 16 n).isSome = true ↔ BitVec.ofNat 16 n ∈ legalWords := by
  have hcw : (commandOfBits (n % 2 ^ 16)).cw = BitVec.ofNat 16 n := BitVec.eq_of_toNat_eq (by simp [commandOfBits])
  rw [← hcw, mem_legalWords]
  unfold decodeTableWord
  cases decode (commandOfBits (n % 2 ^ 16)) <;> simp

/-- Settles O5: the legal numbers below 65536 are the words of `legalWords`, each once. -/
theorem legalControlWordsNumber538 : Obligations.LegalControlWordsNumber538 := by
  have hmem (n : Nat) : n ∈ (List.range 65536).filter (fun w => (decodeTableWord 16 w).isSome) ↔
      n ∈ legalWords.map BitVec.toNat := by
    rw [List.mem_filter, List.mem_range, decodeTableWord_isSome_iff, List.mem_map]
    constructor
    · rintro ⟨hn, hw⟩
      exact ⟨_, hw, (BitVec.toNat_ofNat _ _).trans (Nat.mod_eq_of_lt hn)⟩
    · rintro ⟨w, hw, rfl⟩
      exact ⟨w.isLt, by rwa [BitVec.ofNat_toNat, BitVec.setWidth_eq]⟩
  have hperm := (List.perm_ext_iff_of_nodup (List.nodup_range.filter _)
    (legalWords_nodup.map fun _ _ => BitVec.eq_of_toNat_eq)).2 hmem
  rw [Obligations.LegalControlWordsNumber538, hperm.length_eq, List.length_map, legalWords_length]

/-! ### Operands that are not read (R61, R65) -/

/-- Decoding depends on the operands only as far as the operation of that `op` takes them over. -/
theorem decode_congr {cw : BitVec 16} {a a' b b' : Word}
    (h : ∀ k : Instr, cwOp cw = k.op → k.withFieldsOf ⟨cw, a, b⟩ = k.withFieldsOf ⟨cw, a', b'⟩) :
    decode ⟨cw, a, b⟩ = decode ⟨cw, a', b'⟩ := by
  have hdecodeOp : decodeOp ⟨cw, a, b⟩ = decodeOp ⟨cw, a', b'⟩ := by
    rcases op_cases (cwOp cw) with ⟨k, _, hop⟩ | hop
    · rw [decodeOp_eq (c := ⟨cw, a, b⟩) hop, decodeOp_eq (c := ⟨cw, a', b'⟩) hop, h k hop]
    · rw [decodeOp_reserved (c := ⟨cw, a, b⟩) hop, decodeOp_reserved (c := ⟨cw, a', b'⟩) hop]
  simp only [decode, hdecodeOp]

section
variable {k : Instr} (cw : BitVec 16) (a a' b b' : Word)

/-- `PT.READ` and `WALK` alone read `b`. -/
theorem withFieldsOf_unread_b (hr : k.op ≠ 0x11#5) (hw : k.op ≠ 0x12#5) :
    k.withFieldsOf ⟨cw, a, b⟩ = k.withFieldsOf ⟨cw, a, b'⟩ := by
  cases k with
  | ptRead x y => exact absurd rfl hr
  | walk sel x y => exact absurd (cwOp_cwOf ..) hw
  | _ => rfl

/-- `PTE.NEW`, `PCR.READ` and `TLB.FLUSH` read no operand. -/
theorem withFieldsOf_unread (h : k.op = 0x08#5 ∨ k.op = 0x15#5 ∨ k.op = 0x16#5) :
    k.withFieldsOf ⟨cw, a, b⟩ = k.withFieldsOf ⟨cw, a', b'⟩ := by
  cases k with
  | pteNew | pcrRead | tlbFlush => rfl
  | _ => simp [Instr.op, encode] at h

end

/-- Settles O6: by what each operation takes over from a command. -/
theorem unreadOperandsAreIgnored : Obligations.UnreadOperandsAreIgnored := by
  intro cw a a' b b'
  constructor
  · intro hr hw
    exact decode_congr fun k hop => withFieldsOf_unread_b cw a b b' (hop ▸ hr) (hop ▸ hw)
  · intro h
    exact decode_congr fun k hop => withFieldsOf_unread cw a a' b b' (hop ▸ h)

/-- Settles O7: each word evaluates. -/
theorem sampleWordsDecode : Obligations.SampleWordsDecode :=
  ⟨rfl, rfl, rfl, rfl, rfl, rfl, rfl, rfl, rfl⟩

end Sys2Proof

namespace Sys2Proof.Machine

/-! ### The fields of a virtual address (R13, R66) -/

theorem getLsbD_vpn (v : Word) (l : Level) (k : Nat) :
    (vpn v l).getLsbD k = (decide (k < 9) && v.getLsbD (l.shift + k)) := BitVec.getLsbD_extractLsb' ..

theorem getLsbD_pageOffset (v : Word) (k : Nat) : (pageOffset v).getLsbD k = (decide (k < 12) && v.getLsbD k) := by
  rw [pageOffset, BitVec.getLsbD_extractLsb', Nat.zero_add]

/-- An index moved back to its place holds the address bits `l.shift + 8 : l.shift`, and no others. -/
theorem getLsbD_vpn_shiftLeft (v : Word) (l : Level) {k : Nat} (hk : k < 64) :
    ((vpn v l).setWidth 64 <<< l.shift).getLsbD k =
      (decide (l.shift ≤ k) && decide (k < l.shift + 9) && v.getLsbD k) := by
  rw [BitVec.getLsbD_shiftLeft, BitVec.getLsbD_setWidth, getLsbD_vpn]
  by_cases h : l.shift ≤ k
  · have h9 : k - l.shift < 9 ↔ k < l.shift + 9 := by omega
    simp [h, hk, h9, show k - l.shift < 64 by omega, show ¬ k < l.shift by omega]
  · simp [h, show k < l.shift by omega]

/-- Settles O19, bit by bit: the four fields cover bits 38:0. -/
theorem vaFieldsReassembleTheAddress : Obligations.VaFieldsReassembleTheAddress := by
  intro v
  refine BitVec.eq_of_getLsbD_eq fun k hk => ?_
  have h2 : ((vpn v .l2).setWidth 64 <<< 30).getLsbD k = (decide (30 ≤ k) && decide (k < 39) && v.getLsbD k) :=
    getLsbD_vpn_shiftLeft v .l2 hk
  have h1 : ((vpn v .l1).setWidth 64 <<< 21).getLsbD k = (decide (21 ≤ k) && decide (k < 30) && v.getLsbD k) :=
    getLsbD_vpn_shiftLeft v .l1 hk
  have h0 : ((vpn v .l0).setWidth 64 <<< 12).getLsbD k = (decide (12 ≤ k) && decide (k < 21) && v.getLsbD k) :=
    getLsbD_vpn_shiftLeft v .l0 hk
  simp only [BitVec.getLsbD_or, h2, h1, h0, BitVec.getLsbD_setWidth, getLsbD_pageOffset, hk, decide_true, Bool.true_and]
  cases v.getLsbD k with
  | false => simp
  | true =>
    rw [Bool.eq_iff_iff]
    simp only [Bool.and_true, Bool.or_eq_true, Bool.and_eq_true, decide_eq_true_eq]
    omega

/-! ### Illegal commands (R76, R215) -/

/-- Settles O9: the command is decoded to an error, whichever it is. -/
theorem illegalWordChangesNothing : Obligations.IllegalWordChangesNothing := by
  intro s c rest hh hp hi
  cases hd : decode c with
  | ok i => exact absurd hd (hi i)
  | error e =>
    calc step s = runAction (.command c) { s with program := rest } := step_action hh hp
      _ = .next (State.raise { s with program := rest } .illegalCommand) := issue_of_decode_error hd _

/-! ### The response of every operation (R62, R63, R211) -/

/-- A response stands, with one of the block's five statuses, and the filler 0 unless the status is `OK`. -/
def State.Answered (t : State) : Prop :=
  ∃ r, t.resp = some r ∧ r.st.code.toNat ≤ 4 ∧ (r.st ≠ .ok → r.res = 0#64)

section
variable (s : State)

theorem answered_answer (v : Word) : (s.answer v).Answered :=
  ⟨⟨.ok, v⟩, rfl, Nat.zero_le _, fun h => absurd rfl h⟩

theorem answered_raise {st : Status} (h : st.code.toNat ≤ 4) : (s.raise st).Answered :=
  ⟨⟨st, 0#64⟩, rfl, h, fun _ => rfl⟩

theorem answered_contractViolation : (s.raise .contractViolation).Answered := answered_raise s (by decide)

theorem answered_answerWalk (va : Word) (r : WalkResult) : (s.answerWalk va r).Answered := by
  cases r with
  | leaf l e => exact answered_answer s _
  | unmapped => exact answered_raise s (by decide)
  | noMemory => exact answered_contractViolation s

/-- A refused constructor selector or operand is answered with one of two of the block's statuses (R100). -/
theorem answered_construct_error {sel : BitVec 2} {raw : Word} {st : Status} (h : construct sel raw = .error st) :
    (s.raise st).Answered := by
  rcases construct_error h with ⟨_, rfl⟩ | ⟨_, _, rfl⟩ <;> exact answered_raise s (by decide)

theorem answered_ite {s t : State} {p : Prop} [Decidable p] (hs : s.Answered) (ht : t.Answered) :
    (if p then s else t).Answered := by
  split
  · exact hs
  · exact ht

theorem answered_translate (ch : Choice) (va : Word) : (s.translate ch va).Answered := by
  rcases translate_cases s ch va with ⟨e, _, _, ht⟩ | ⟨l, e, _, ht⟩ | ⟨_, ht⟩
  · rw [ht]
    exact answered_answer _ _
  · rw [ht]
    exact answered_answer _ _
  · rw [ht]
    exact answered_answerWalk _ _ _

theorem answered_xlate (ch : Choice) (sel : BitVec 2) (a : Word) : (s.xlate ch sel a).Answered := by
  rcases xlate_cases s ch sel a with ⟨st, hc, ht⟩ | ⟨_, _, _, ht⟩ | ⟨va, _, _, ht⟩
  · rw [ht]
    exact answered_construct_error s hc
  · rw [ht]
    exact answered_contractViolation s
  · rw [ht]
    exact answered_translate s ch va

/-- Every operation ends, in every state, with a response (R211). -/
theorem exec_answered (i : Instr) : ∃ t, exec i s = .next t ∧ t.Answered := by
  have hc := answered_contractViolation s
  cases i with
  | vaTrunc a | vaUnsafe a | vaVpn2 a | vaVpn1 a | vaVpn0 a | vaOff a | pteAddr a | pteFlags a | pteSetUnused a
  | pteIsValid a | pteIsLeaf a | pteSetFlags flags a | pteNew | pcrRead =>
    exact ⟨_, rfl, answered_answer s _⟩
  | tlbFlush => exact ⟨_, rfl, answered_answer s.flush _⟩
  | pcrSet a => exact ⟨_, rfl, answered_ite (answered_answer (s.setPcr a) _) hc⟩
  | vaTry a => exact ⟨_, rfl, answered_ite (answered_answer s _) (answered_raise s (by decide))⟩
  | pteSet flags a => exact ⟨_, rfl, answered_ite (answered_answer s _) hc⟩
  | pteCheck sel a => exact ⟨_, rfl, answered_ite (answered_raise s (by decide)) (answered_answer s _)⟩
  | ptRead a b =>
    refine ⟨_, rfl, answered_ite hc (answered_ite hc ?_)⟩
    split
    case h_1 => exact hc
    case h_2 => exact answered_answer s _
  | walk sel a b =>
    refine ⟨_, rfl, ?_⟩
    split
    case h_1 st he => exact answered_construct_error s he
    case h_2 va _ => exact answered_ite hc (answered_answerWalk s va _)
  | xlate sel a => exact ⟨_, rfl, answered_xlate s _ sel a⟩

end

/-- Settles O10: by the response of each operation. -/
theorem everyOperationAnswersWithABlockStatus : Obligations.EveryOperationAnswersWithABlockStatus := by
  intro i s
  obtain ⟨t, ht, r, hr⟩ := exec_answered s i
  exact ⟨t, r, ht, hr⟩

end Sys2Proof.Machine

/-! PROOFS. The statements of spec/40_canonical_addr_validator.md. A translation sees bits 38:0 of its address only: the
walk, the match against a cached tag, the fill and the leaf's address are the same for an address and its truncation.
A constructor selector that does not refuse passes on the one or the other (`construct_fields`), so it does not matter
which selector it was (R100). -/

namespace Sys2Proof.Machine

/-! ### Translation does not see bits 63:39 (R100, R143, R160) -/

theorem cacheMatches_sext39 (v : Word) (e : CacheEntry) : cacheMatches (sext39 v) e = cacheMatches v e := by
  simp only [cacheMatches, tagOf_sext39]

theorem cacheHit_sext39 (ch : Choice) (v : Word) (c : Cache) : cacheHit ch (sext39 v) c = cacheHit ch v c := by
  rw [cacheHit, cacheHit, funext (cacheMatches_sext39 v)]

section
variable (s : State) (ch : Choice)

theorem fill_sext39 (v : Word) (l : Level) (e : Word) : s.fill ch (sext39 v) l e = s.fill ch v l e := by
  simp only [State.fill, tagOf_sext39]

theorem translate_sext39 (v : Word) : s.translate ch (sext39 v) = s.translate ch v := by
  simp only [State.translate, cacheHit_sext39, walk_sext39, fill_sext39, leafAddr_sext39, answerWalk_sext39]

variable {sel : BitVec 2} {raw va : Word}

/-- `WALK` of a constructed address is the walk of the raw operand (R142, R143). -/
theorem exec_walk_of_construct (b : Word) (h : construct sel raw = .ok va) :
    exec (.walk sel raw b) s =
      .next (if frameOk b then s.answerWalk raw (walk s.platform s.mem raw b) else s.raise .contractViolation) := by
  have hwalk : exec (.walk sel raw b) s =
      .next (if frameOk b then s.answerWalk va (walk s.platform s.mem va b) else s.raise .contractViolation) := by
    cases hb : frameOk b <;> simp [exec, execWalk, h, hb]
  rcases construct_fields h with rfl | rfl
  · exact hwalk
  · rw [hwalk, walk_sext39, answerWalk_sext39]

/-- `XLATE` of a constructed address translates the raw operand (R160). -/
theorem xlate_of_construct (h : construct sel raw = .ok va) :
    s.xlate ch sel raw =
      if pcrMode s.pcr = Config.modeSv39 then s.translate ch raw else s.raise .contractViolation := by
  have hxlate : s.xlate ch sel raw =
      if pcrMode s.pcr = Config.modeSv39 then s.translate ch va else s.raise .contractViolation := by
    simp [State.xlate, h]
  rcases construct_fields h with rfl | rfl
  · exact hxlate
  · rw [hxlate, translate_sext39]

/-- A selector that does not refuse the address translates it as the unchecked selector 2 does (R100). -/
theorem walk_xlate_eq_unchecked_of_construct (b : Word) (h : construct sel raw = .ok va) :
    exec (.walk sel raw b) s = exec (.walk 2#2 raw b) s ∧ s.xlate ch sel raw = s.xlate ch 2#2 raw := by
  have hunchecked : construct 2#2 raw = .ok raw := rfl
  rw [exec_walk_of_construct s b h, exec_walk_of_construct s b hunchecked, xlate_of_construct s ch h,
    xlate_of_construct s ch hunchecked]
  exact ⟨rfl, rfl⟩

end

/-- Settles O34: selector 1 never refuses, and selector 0 does not refuse a canonical address. -/
theorem constructorModesTranslateAlike : Obligations.ConstructorModesTranslateAlike := by
  intro a b s ch
  have htruncating : construct 1#2 a = .ok (sext39 a) := rfl
  obtain ⟨hwalk, hxlate⟩ := walk_xlate_eq_unchecked_of_construct s ch b htruncating
  refine ⟨hwalk, hxlate, fun hcanon => ?_⟩
  have hchecked : construct 0#2 a = .ok a := by simp [construct, hcanon]
  exact walk_xlate_eq_unchecked_of_construct s ch b hchecked

/-! ### The control words of the address operations (R64) -/

/-- The word that the encoder writes for an operation is decoded to its mnemonic, with the operands of the command. -/
theorem decode_of_encode_cw {k : Instr} {cw : BitVec 16} (a b : Word) (hk : WellFormed k = true)
    (hcw : (encode k).cw = cw) : decode ⟨cw, a, b⟩ = .ok (k.withFieldsOf ⟨cw, a, b⟩) :=
  decode_of_admitsWord (hcw ▸ admitsWord_encode hk)

/-! ### The address constructors (R91, R92, R94) -/

theorem exec_vaTry_of_canon {a : Word} (h : canon a = true) (s : State) :
    exec (.vaTry a) s = .next (s.answer a) := by simp [exec, execVaTry, h]

theorem exec_vaTry_of_not_canon {a : Word} (h : canon a = false) (s : State) :
    exec (.vaTry a) s = .next (s.raise .invalidAddress) := by simp [exec, execVaTry, h]

/-- Settles O15: the test is `canon`, read bit by bit. -/
theorem vaTryAcceptsExactlyTheCanonical : Obligations.VaTryAcceptsExactlyTheCanonical := by
  intro a b s
  refine ⟨decode_of_encode_cw (k := .vaTry a) a b rfl rfl,
    fun hbits => exec_vaTry_of_canon ((canon_iff_bits a).2 hbits) s, fun ⟨k, h39, h64, hne⟩ => ?_⟩
  have hcanon : canon a = false := Bool.eq_false_iff.2 fun hc => hne ((canon_iff_bits a).1 hc k h39 h64)
  exact exec_vaTry_of_not_canon hcanon s

/-- Settles O16: the result is `sext39 a`, which is `a` when `a` is canonical. -/
theorem vaTruncReplicatesBit38 : Obligations.VaTruncReplicatesBit38 := by
  intro a b s
  refine ⟨decode_of_encode_cw (k := .vaTrunc a) a b rfl rfl, sext39 a, rfl, fun k hk => ?_,
    fun k h39 h64 => ?_, fun hbits => ?_⟩
  · rw [getLsbD_sext39, if_pos hk, decide_eq_true (by omega : k < 64), Bool.true_and]
  · rw [getLsbD_sext39, if_neg (Nat.not_lt.2 h39), decide_eq_true h64, Bool.true_and]
  · exact (canon_iff_sext39 a).1 ((canon_iff_bits a).2 hbits)

/-- Settles O17: the word is the encoder's for `VA.UNSAFE`, and its meaning is the answer itself. -/
theorem vaUnsafePassesThrough : Obligations.VaUnsafePassesThrough := fun a b _ =>
  ⟨decode_of_encode_cw (k := .vaUnsafe a) a b rfl rfl, rfl⟩

/-! ### The field extractors as arithmetic (R95 to R98) -/

theorem vpn_toNat (v : Word) (l : Level) : (vpn v l).toNat = v.toNat / 2 ^ l.shift % 512 := by
  rw [vpn, BitVec.extractLsb'_toNat, Nat.shiftRight_eq_div_pow]

theorem pageOffset_toNat (v : Word) : (pageOffset v).toNat = v.toNat % 4096 := by
  rw [pageOffset, BitVec.extractLsb'_toNat, Nat.shiftRight_zero]

/-- Settles O18: each extractor answers its field, zero-extended. -/
theorem vaFieldExtractors : Obligations.VaFieldExtractors := by
  intro a b s
  have hvpn (l : Level) : s.answer ((vpn a l).setWidth 64) =
      { s with resp := some ⟨.ok, BitVec.ofNat 64 (a.toNat / 2 ^ l.shift % 512)⟩ } := by
    rw [← BitVec.ofNat_toNat, vpn_toNat, State.answer]
  have hoff : s.answer ((pageOffset a).setWidth 64) =
      { s with resp := some ⟨.ok, BitVec.ofNat 64 (a.toNat % 4096)⟩ } := by
    rw [← BitVec.ofNat_toNat, pageOffset_toNat, State.answer]
  exact ⟨decode_of_encode_cw (k := .vaVpn2 a) a b rfl rfl,
    decode_of_encode_cw (k := .vaVpn1 a) a b rfl rfl,
    decode_of_encode_cw (k := .vaVpn0 a) a b rfl rfl,
    decode_of_encode_cw (k := .vaOff a) a b rfl rfl,
    congrArg _ (hvpn .l2), congrArg _ (hvpn .l1), congrArg _ (hvpn .l0), congrArg _ hoff⟩

end Sys2Proof.Machine

/-! PROOFS. The statements of spec/41_ptentry_encoder_decoder.md. An entry word is written by `pteWord` and `withFlags`
and read by `pteAddr` and `pteFlags`. Each of the four has its value as arithmetic; where a statement masks or shifts a
word, the two sides agree bit by bit. -/

namespace Sys2Proof.Machine

/-- A concatenation is the upper part's place value plus the lower part. -/
theorem toNat_append_eq_add {m n : Nat} (x : BitVec m) (y : BitVec n) :
    (x ++ y).toNat = x.toNat * 2 ^ n + y.toNat := by
  rw [BitVec.toNat_append, ← Nat.shiftLeft_add_eq_or_of_lt y.isLt, Nat.shiftLeft_eq]

/-! ### The control words of the entry operations (R60, R64) -/

/-- The word `{flags, op}` has a clear reserved bit and the selector 0. -/
theorem cwOf_sel_zero (flags : FlagByte) (op : BitVec 5) : cwOf flags 0#2 op = flags ++ op.setWidth 8 := by
  refine BitVec.eq_of_toNat_eq ?_
  simp only [cwOf, toNat_append_eq_add, BitVec.toNat_setWidth, BitVec.toNat_ofNat]
  have := op.isLt
  omega

/-- The word `{flags, op}` that the encoder writes for an operation is decoded to it, with the operands of the
command. -/
theorem decode_flags_op {k : Instr} {flags : FlagByte} {op : BitVec 5} (a b : Word) (hk : WellFormed k = true)
    (hcw : (encode k).cw = cwOf flags 0#2 op) :
    decode ⟨flags ++ op.setWidth 8, a, b⟩ = .ok (k.withFieldsOf ⟨cwOf flags 0#2 op, a, b⟩) := by
  rw [← cwOf_sel_zero]
  exact decode_of_encode_cw a b hk hcw

theorem decode_pteSet (flags : FlagByte) (a b : Word) : decode ⟨flags ++ 0x09#8, a, b⟩ = .ok (.pteSet flags a) :=
  (decode_flags_op (k := .pteSet flags a) a b rfl rfl).trans (by rw [Instr.withFieldsOf, cwFlags_cwOf])

theorem decode_pteSetFlags (flags : FlagByte) (a b : Word) :
    decode ⟨flags ++ 0x0C#8, a, b⟩ = .ok (.pteSetFlags flags a) :=
  (decode_flags_op (k := .pteSetFlags flags a) a b rfl rfl).trans (by rw [Instr.withFieldsOf, cwFlags_cwOf])

/-! ### Entry words as arithmetic (R111 to R115) -/

theorem pteWord_toNat (f : Word) (fl : FlagByte) :
    (pteWord f fl).toNat = f.toNat / 4096 % 2 ^ 44 * 1024 + fl.toNat := by
  simp only [pteWord, toNat_append_eq_add, BitVec.extractLsb'_toNat, Nat.shiftRight_eq_div_pow, BitVec.toNat_ofNat]
  omega

theorem pteFlags_toNat (w : Word) : (pteFlags w).toNat = w.toNat % 256 := by
  rw [pteFlags, BitVec.extractLsb'_toNat, Nat.shiftRight_zero]

theorem withFlags_toNat (w : Word) (fl : FlagByte) :
    (withFlags w fl).toNat = w.toNat / 256 * 256 + fl.toNat := by
  simp only [withFlags, toNat_append_eq_add, BitVec.extractLsb'_toNat, Nat.shiftRight_eq_div_pow]
  have := w.isLt
  omega

/-! ### Entry words bit by bit (R111, R114, R115) -/

theorem getLsbD_withFlags (w : Word) (fl : FlagByte) (k : Nat) :
    (withFlags w fl).getLsbD k = if k < 8 then fl.getLsbD k else w.getLsbD k := by
  rw [withFlags, BitVec.getLsbD_append, BitVec.getLsbD_extractLsb']
  by_cases h8 : k < 8
  · simp [h8]
  · by_cases h64 : k < 64
    · simp [h8, show 8 + (k - 8) = k by omega, show k - 8 < 56 by omega]
    · simp [h8, show ¬ k - 8 < 56 by omega, BitVec.getLsbD_of_ge w k (by omega)]

/-- Valid is one of the flags (R68). -/
@[simp] theorem isValid_withFlags (w : Word) (fl : FlagByte) : isValid (withFlags w fl) = fl.getLsbD 0 := by
  rw [isValid, getLsbD_withFlags, if_pos (by decide)]

/-- The frame field lies above the flags (R115). -/
@[simp] theorem pteAddr_withFlags (w : Word) (fl : FlagByte) : pteAddr (withFlags w fl) = pteAddr w := by
  refine BitVec.eq_of_getLsbD_eq fun k _ => ?_
  rw [getLsbD_pteAddr, getLsbD_pteAddr, getLsbD_withFlags]
  by_cases h : 12 ≤ k
  · rw [if_neg (by omega)]
  · simp [h]

/-- A good frame has no bits outside the field, so the packing is `(frame >> 2) | flags` (R111). -/
theorem pteWord_eq_shiftRight_or {f : Word} (fl : FlagByte) (h : frameOk f = true) :
    pteWord f fl = (f >>> 2) ||| fl.setWidth 64 := by
  refine BitVec.eq_of_getLsbD_eq fun k hk => ?_
  rw [getLsbD_pteWord, BitVec.getLsbD_or, BitVec.getLsbD_ushiftRight, BitVec.getLsbD_setWidth, Nat.add_comm 2 k]
  by_cases h8 : k < 8
  · simp [h8, hk, frameOk_bits h (k := k + 2) (by omega)]
  · have hflags : fl.getLsbD k = false := BitVec.getLsbD_of_ge fl k (by omega)
    by_cases hfield : 10 ≤ k ∧ k < 54
    · simp [h8, hfield, hflags]
    · simp [h8, hflags, frameOk_bits h (k := k + 2) (by omega)]

/-- Reading a word and packing it again drops bits 63:54 and 9:8 (R116): the mask is the entry word with every bit of
the frame field and every flag set. -/
theorem pteWord_pteAddr_pteFlags (w : Word) : pteWord (pteAddr w) (pteFlags w) = w &&& 0x003FFFFFFFFFFCFF#64 := by
  have hmask : 0x003FFFFFFFFFFCFF#64 = pteWord (BitVec.allOnes 64) (BitVec.allOnes 8) := by decide
  refine BitVec.eq_of_getLsbD_eq fun k hk => ?_
  rw [hmask, BitVec.getLsbD_and, getLsbD_pteWord, getLsbD_pteWord, getLsbD_pteAddr, BitVec.getLsbD_allOnes,
    BitVec.getLsbD_allOnes]
  by_cases h8 : k < 8
  · simp [h8, pteFlags]
  · by_cases hfield : 10 ≤ k ∧ k < 54
    · simp [h8, hfield, show k + 2 < 56 by omega, show k + 2 < 64 by omega]
    · have hout : (decide (10 ≤ k) && decide (k < 54)) = false := by simpa using hfield
      simp [h8, hout]

/-! ### What the entry operations answer -/

section
variable (s : State) {a : Word}

/-- A result may be given by its value. -/
theorem answer_of_toNat {v : Word} {n : Nat} (h : v.toNat = n) :
    s.answer v = { s with resp := some ⟨.ok, BitVec.ofNat 64 n⟩ } := by
  rw [← h, BitVec.ofNat_toNat, BitVec.setWidth_eq, State.answer]

theorem exec_pteSet_of_frameOk (flags : FlagByte) (h : frameOk a = true) :
    exec (.pteSet flags a) s = .next (s.answer (pteWord a flags)) := by simp [exec, execPteSet, h]

theorem exec_pteSet_of_not_frameOk (flags : FlagByte) (h : ¬ frameOk a = true) :
    exec (.pteSet flags a) s = .next (s.raise .contractViolation) := by simp [exec, execPteSet, h]

end

/-- Settles O25: the word is `pteWord p f`; a frame that was read from a word is a good frame. -/
theorem pteRoundTrip : Obligations.PteRoundTrip := by
  constructor
  · intro p f s hp
    have haddr : exec (.pteAddr (pteWord p f)) s = .next (s.answer (pteAddr (pteWord p f))) := rfl
    have hflags : exec (.pteFlags (pteWord p f)) s = .next (s.answer ((pteFlags (pteWord p f)).setWidth 64)) := rfl
    rw [pteAddr_pteWord f hp] at haddr
    rw [pteFlags_pteWord] at hflags
    exact ⟨pteWord p f, exec_pteSet_of_frameOk s f hp, haddr, hflags⟩
  · intro w s
    rw [exec_pteSet_of_frameOk s _ (frameOk_pteAddr w), pteWord_pteAddr_pteFlags, State.answer]

/-- Settles O21: the answer is the zero word, and its fields evaluate. -/
theorem pteNewIsTheZeroWord : Obligations.PteNewIsTheZeroWord := by
  intro a b s
  have hdec : decode ⟨0x0008#16, a, b⟩ = .ok .pteNew := decode_of_encode_cw (k := .pteNew) a b rfl rfl
  exact ⟨hdec, rfl, isValid_zero, isLeaf_zero, by decide, by decide⟩

/-- Settles O22: the two premises are `frame_ok` and its negation (`frameOk_iff`). -/
theorem pteSetPacksFrameAndFlags : Obligations.PteSetPacksFrameAndFlags := by
  intro flags a b s
  refine ⟨decode_pteSet flags a b, fun halign hlt => ?_, fun hbad => ?_⟩
  · have hok : frameOk a = true := (frameOk_iff a).2 ⟨halign, hlt⟩
    have hval : (pteWord a flags).toNat = a.toNat / 4096 * 1024 + flags.toNat := by
      rw [pteWord_toNat]
      omega
    constructor
    · rw [exec_pteSet_of_frameOk s flags hok, answer_of_toNat s hval]
    · rw [← hval, BitVec.ofNat_toNat, BitVec.setWidth_eq, pteWord_eq_shiftRight_or flags hok]
  · have hbad' : ¬ frameOk a = true := by
      rw [frameOk_iff]
      omega
    rw [exec_pteSet_of_not_frameOk s flags hbad', State.raise]

/-- Settles O23: both results by their values. -/
theorem pteAddrAndFlagsUnpack : Obligations.PteAddrAndFlagsUnpack := by
  intro a b s
  have hflags : ((pteFlags a).setWidth 64).toNat = a.toNat % 256 := by
    rw [BitVec.toNat_setWidth_of_le (by decide), pteFlags_toNat]
  exact ⟨decode_of_encode_cw (k := .pteAddr a) a b rfl rfl, decode_of_encode_cw (k := .pteFlags a) a b rfl rfl,
    congrArg _ (answer_of_toNat s (pteAddr_toNat a)), congrArg _ (answer_of_toNat s hflags)⟩

/-- Settles O24: both are `withFlags`, the second with no flags. -/
theorem pteSetFlagsAndSetUnusedKeepTheRest : Obligations.PteSetFlagsAndSetUnusedKeepTheRest := by
  intro flags a b s
  have hunused : (withFlags a 0#8).toNat = a.toNat / 256 * 256 := by
    rw [withFlags_toNat, BitVec.toNat_ofNat, Nat.zero_mod, Nat.add_zero]
  have hword : BitVec.ofNat 64 (a.toNat / 256 * 256) = withFlags a 0#8 := by
    rw [← hunused, BitVec.ofNat_toNat, BitVec.setWidth_eq]
  refine ⟨decode_pteSetFlags flags a b, decode_of_encode_cw (k := .pteSetUnused a) a b rfl rfl,
    congrArg _ (answer_of_toNat s (withFlags_toNat a flags)), congrArg _ (answer_of_toNat s hunused), ?_, ?_⟩
  · rw [hword, isValid_withFlags, BitVec.getLsbD_zero]
  · rw [hword, pteAddr_withFlags]

end Sys2Proof.Machine

/-! PROOFS. The statements of spec/42_pte_permission_check.md. Validity, the leaf test and the permission test each have
one reading as arithmetic or as bits of the word (R130, R131, R133); the operations answer these tests as 0 or 1. -/

namespace Sys2Proof.Machine

/-! ### The control words of `PTE.CHECK` (R64, R75) -/

section
variable {cw : BitVec 16} (a b : Word)

theorem decode_pteCheck {sel : BitVec 2} (hsel : sel ≠ 3#2) (hcw : cw = cwOf 0#8 sel 0x10#5) :
    decode ⟨cw, a, b⟩ = .ok (.pteCheck sel a) := by
  have hlegal : WellFormed (.pteCheck sel a) = true := by simpa [WellFormed, selLegal] using hsel
  rw [decode_of_encode_cw (k := .pteCheck sel a) a b hlegal hcw.symm, Instr.withFieldsOf, hcw, cwSel_cwOf]

theorem decode_pteCheck_three (hcw : cw = cwOf 0#8 3#2 0x10#5) : decode ⟨cw, a, b⟩ = .error .selReserved := by
  have hop : cwOp cw = (Instr.pteCheck 3#2 a).op := by rw [hcw, cwOp_cwOf, Instr.op, encode, cwOp_cwOf]
  rw [decode_of_reserved_clear (by rw [hcw, cwReserved_cwOf]), decodeOp_eq (c := ⟨cw, a, b⟩) hop, hcw, cwFlags_cwOf,
    cwSel_cwOf]
  rfl

end

/-! ### The kinds of entry words, by bits 3:0 (R130 to R132) -/

theorem isValid_iff (w : Word) : isValid w = true ↔ w.toNat % 2 = 1 := by
  rw [isValid, BitVec.getLsbD, Nat.testBit_zero, decide_eq_true_iff]

/-- Valid and one of bits 3:1 set (R131): the three bits, read as a number, are not 0. -/
theorem isLeaf_iff (w : Word) : isLeaf w = true ↔ w.toNat % 2 = 1 ∧ w.toNat / 2 % 8 ≠ 0 := by
  simp only [isLeaf, BitVec.getLsbD, Nat.testBit_eq_decide_div_mod_eq, Bool.and_eq_true, Bool.or_eq_true,
    decide_eq_true_eq]
  omega

theorem isPointer_iff (w : Word) : isPointer w = true ↔ w.toNat % 16 = 1 := by
  rw [isPointer, Bool.and_eq_true, Bool.not_eq_true', ← Bool.not_eq_true, isValid_iff, isLeaf_iff]
  omega

/-- Settles O27: each of the three tests is arithmetic on bits 3:0. -/
theorem everyWordIsInvalidPointerOrLeaf : Obligations.EveryWordIsInvalidPointerOrLeaf := by
  intro w
  simp only [← Bool.not_eq_true, isValid_iff, isLeaf_iff, isPointer_iff]
  omega

/-! ### The permission test (R133) -/

/-- Valid and the flag of a legal access kind make a leaf by themselves, so the leaf test asks for no third bit. -/
theorem permits_iff {k : BitVec 2} (hk : k ≠ 3#2) (w : Word) :
    permits k w = true ↔ w.getLsbD 0 = true ∧ w.getLsbD (1 + k.toNat) = true := by
  rw [permits, Bool.and_eq_true]
  refine ⟨fun ⟨hleaf, hflag⟩ => ⟨isValid_of_isLeaf hleaf, hflag⟩, fun ⟨hvalid, hflag⟩ => ⟨?_, hflag⟩⟩
  simp only [isLeaf, Bool.and_eq_true, Bool.or_eq_true]
  rcases sel_cases k with rfl | rfl | rfl | rfl
  · exact ⟨hvalid, .inl (.inl hflag)⟩
  · exact ⟨hvalid, .inl (.inr hflag)⟩
  · exact ⟨hvalid, .inr hflag⟩
  · exact absurd rfl hk

/-! ### What the tests answer -/

/-- A test that stands for bit 0 of a number is answered as that bit (R62). -/
theorem boolWord_eq_ofNat_mod_two {t : Bool} {n : Nat} (h : t = true ↔ n % 2 = 1) :
    boolWord t = BitVec.ofNat 64 (n % 2) := by
  cases t with
  | true => rw [h.1 rfl, boolWord, if_pos rfl]
  | false =>
    have hn : n % 2 = 0 := by simpa using h
    rw [hn]
    rfl

theorem exec_pteIsValid (a : Word) (s : State) : exec (.pteIsValid a) s = .next (s.answer (boolWord (isValid a))) := rfl

section
variable {a : Word} (s : State)

theorem exec_pteIsLeaf_of_isLeaf {t : Bool} (h : isLeaf a = t) :
    exec (.pteIsLeaf a) s = .next (s.answer (boolWord t)) := by
  rw [← h]
  rfl

theorem exec_pteCheck_of_permits {k : BitVec 2} {t : Bool} (hk : k ≠ 3#2) (h : permits k a = t) :
    exec (.pteCheck k a) s = .next (s.answer (boolWord t)) := by
  simp [exec, execPteCheck, hk, h]

end

/-- Settles O26: the premises of the two leaf clauses are the leaf test and its negation, by `isLeaf_iff`. -/
theorem pteIsValidAndIsLeaf : Obligations.PteIsValidAndIsLeaf := by
  intro a b s
  refine ⟨decode_of_encode_cw (k := .pteIsValid a) a b rfl rfl, decode_of_encode_cw (k := .pteIsLeaf a) a b rfl rfl,
    ?_, fun hleaf => exec_pteIsLeaf_of_isLeaf s ((isLeaf_iff a).2 hleaf), fun hno => ?_⟩
  · rw [exec_pteIsValid, boolWord_eq_ofNat_mod_two (isValid_iff a), State.answer]
  · have hnot : isLeaf a = false := by
      rw [← Bool.not_eq_true, isLeaf_iff]
      omega
    exact exec_pteIsLeaf_of_isLeaf s hnot

/-- Settles O28: for a legal selector the test asks for the two bits that the premises name (`permits_iff`). -/
theorem pteCheckTestsLeafAndItsFlag : Obligations.PteCheckTestsLeafAndItsFlag := by
  intro a b s
  refine ⟨decode_pteCheck a b (by decide) (by decide), decode_pteCheck a b (by decide) (by decide),
    decode_pteCheck a b (by decide) (by decide), decode_pteCheck_three a b (by decide), rfl,
    fun k hk => ⟨fun hset => exec_pteCheck_of_permits s hk ((permits_iff hk a).2 hset), fun hclear => ?_⟩⟩
  have hnot : permits k a = false := by
    rw [← Bool.not_eq_true, permits_iff hk, not_and_or, Bool.not_eq_true, Bool.not_eq_true]
    exact hclear
  exact exec_pteCheck_of_permits s hk hnot

end Sys2Proof.Machine

/-! PROOFS. The statements of spec/43_pagetable_walker.md. An entry that memory holds (or does not) at the address the
statements write as arithmetic is what `readEntry` answers at the walk's slot; each level of the walk then goes by its
one rule (`walkFrom_leaf`, `walkFrom_pointer` and the others), and `WALK` answers the walk's result once its selector,
address and root are good. -/

namespace Sys2Proof.Machine

/-! ### The entry at a slot (R49, R141) -/

section
variable {s : State} {frame va e : Word} {l : Level}

/-- R49, R141: the slot's address as arithmetic. -/
theorem slotAddr_toNat_eq (hf : frameOk frame = true) (va : Word) (l : Level) :
    (slotAddr frame va l).toNat = frame.toNat + 8 * (va.toNat / 2 ^ l.shift % 512) := by
  rw [slotAddr_toNat hf, vpn_toNat]

theorem readEntry_slotAddr_of_holds (hf : frameOk frame = true)
    (h : s.holds (frame.toNat + 8 * (va.toNat / 2 ^ l.shift % 512)) e) :
    readEntry s.platform s.mem (slotAddr frame va l) = some e := by
  rw [← slotAddr_toNat_eq hf] at h
  obtain ⟨hpop, he⟩ := h
  rw [readEntry_of_populated hpop, he]

theorem readEntry_slotAddr_of_absent (hf : frameOk frame = true)
    (h : memPopulated s.platform (frame.toNat + 8 * (va.toNat / 2 ^ l.shift % 512)) = false) :
    readEntry s.platform s.mem (slotAddr frame va l) = none := by
  rw [← slotAddr_toNat_eq hf] at h
  exact readEntry_of_not_populated h

end

/-! ### The table read (R140) -/

/-- `PT.READ` refuses at each of its three tests. -/
theorem exec_ptRead_refused {f idx : Word} {s : State}
    (h : frameOk f = false ∨ 512 ≤ idx.toNat ∨ readEntry s.platform s.mem (entryAddr f idx) = none) :
    exec (.ptRead f idx) s = .next (s.raise .contractViolation) := by
  refine congrArg _ (ite_eq_left_iff.2 fun hf => ite_eq_left_iff.2 fun hi => ?_)
  have hgood : ¬ frameOk f = false := by simpa using hf
  have hnone := (h.resolve_left hgood).resolve_left fun hi' => hi (decide_eq_true hi')
  rw [hnone]

/-- Settles O29: an operand pair that fails neither the frame test nor the index test names the entry at `a + 8b`. -/
theorem ptReadReturnsTheEntry : Obligations.PtReadReturnsTheEntry := by
  intro a b s
  refine ⟨decode_of_encode_cw (k := .ptRead a b) a b rfl rfl, fun halign hlimit hi hpop => ?_, fun hbad => ?_⟩
  · have hf : frameOk a = true := (frameOk_iff a).2 ⟨halign, hlimit⟩
    rw [← entryAddr_toNat hf hi] at hpop ⊢
    exact ⟨_, exec_ptRead_of_holds hf hi ⟨hpop, rfl⟩, fun k hk => memRead8_byte s.mem _ hk⟩
  · refine exec_ptRead_refused ?_
    by_cases hf : frameOk a = true
    · obtain ⟨halign, hlimit⟩ := (frameOk_iff a).1 hf
      by_cases hi : b.toNat < 512
      · have hpop : memPopulated s.platform (a.toNat + 8 * b.toNat) = false :=
          ((hbad.resolve_left (not_not_intro halign)).resolve_left (Nat.not_le.2 hlimit)).resolve_left (Nat.not_le.2 hi)
        rw [← entryAddr_toNat hf hi] at hpop
        exact .inr (.inr (readEntry_of_not_populated hpop))
      · exact .inr (.inl (Nat.not_lt.1 hi))
    · exact .inl (Bool.eq_false_iff.2 hf)

/-! ### What `WALK` answers (R142, R145) -/

theorem low_toNat (v : Word) (l : Level) : (low v l).toNat = v.toNat % 2 ^ l.shift := by
  have hshift : l.shift ≤ 64 := by cases l <;> decide
  rw [low, BitVec.toNat_setWidth_of_le hshift, BitVec.extractLsb'_toNat, Nat.shiftRight_zero]

/-- R145: the sum of the leaf's frame and the low bits of the address, modulo 2^64. -/
theorem leafAddr_eq_ofNat (l : Level) (e va : Word) :
    leafAddr l e va = BitVec.ofNat 64 ((pteAddr e).toNat + va.toNat % 2 ^ l.shift) := by
  rw [leafAddr, ← low_toNat, BitVec.ofNat_add, BitVec.ofNat_toNat, BitVec.ofNat_toNat, BitVec.setWidth_eq,
    BitVec.setWidth_eq]

/-- The response to a walk does not depend on the state, and nothing else changes. -/
theorem answerWalk_uniform (va : Word) (r : WalkResult) :
    ∃ resp, ∀ s : State, s.answerWalk va r = { s with resp := some resp } := by
  cases r <;> exact ⟨_, fun _ => rfl⟩

section
variable {s : State} {sel : BitVec 2} {a b : Word}

theorem exec_walk_of_construct_error {st : Status} (s : State) (b : Word) (h : construct sel a = .error st) :
    exec (.walk sel a b) s = .next (s.raise st) := by
  simp [exec, execWalk, h]

theorem exec_walk_of_bad_root (hsel : sel ≠ 3#2) (hcanon : sel = 0#2 → canon a = true) (hb : frameOk b = false) :
    exec (.walk sel a b) s = .next (s.raise .contractViolation) := by
  obtain ⟨va, hva, -⟩ := construct_ok hsel hcanon
  rw [exec_walk_of_construct s b hva, hb, if_neg Bool.false_ne_true]

/-- Once selector, address and root are good, `WALK` answers the walk. -/
theorem exec_walk_of_walk {r : WalkResult} (hsel : sel ≠ 3#2) (hcanon : sel = 0#2 → canon a = true)
    (hb : frameOk b = true) (hw : walk s.platform s.mem a b = r) :
    exec (.walk sel a b) s = .next (s.answerWalk a r) := by
  obtain ⟨va, hva, -⟩ := construct_ok hsel hcanon
  rw [exec_walk_of_construct s b hva, if_pos hb, hw]

theorem exec_walk_of_leaf {l : Level} {e : Word} (hsel : sel ≠ 3#2) (hcanon : sel = 0#2 → canon a = true)
    (hb : frameOk b = true) (hw : walk s.platform s.mem a b = .leaf l e) :
    exec (.walk sel a b) s =
      .next { s with resp := some ⟨.ok, BitVec.ofNat 64 ((pteAddr e).toNat + a.toNat % 2 ^ l.shift)⟩ } := by
  rw [exec_walk_of_walk hsel hcanon hb hw, State.answerWalk, leafAddr_eq_ofNat, State.answer]

end

/-! ### The walk down to each level (R143, R146) -/

section
variable {s : State} {va root frame e e2 e1 : Word}

/-- A pointer at the level-2 slot leads to the level-1 table it names. -/
theorem walk_of_pointer (hroot : frameOk root = true) (h2 : s.holds (root.toNat + 8 * (va.toNat / 2 ^ 30 % 512)) e2)
    (hp2 : isPointer e2 = true) :
    walk s.platform s.mem va root = walkFrom s.platform s.mem va [.l1, .l0] (pteAddr e2) :=
  walkFrom_pointer (readEntry_slotAddr_of_holds (l := .l2) hroot h2) hp2

/-- Pointers at the level-2 and level-1 slots lead to the level-0 table that the second names. -/
theorem walk_of_two_pointers (hroot : frameOk root = true)
    (h2 : s.holds (root.toNat + 8 * (va.toNat / 2 ^ 30 % 512)) e2) (hp2 : isPointer e2 = true)
    (h1 : s.holds ((pteAddr e2).toNat + 8 * (va.toNat / 2 ^ 21 % 512)) e1) (hp1 : isPointer e1 = true) :
    walk s.platform s.mem va root = walkFrom s.platform s.mem va [.l0] (pteAddr e1) := by
  rw [walk_of_pointer hroot h2 hp2]
  exact walkFrom_pointer (readEntry_slotAddr_of_holds (l := .l1) (frameOk_pteAddr e2) h1) hp1

/-- At the last level an entry that is no leaf, invalid or a pointer, ends the walk unmapped (R146). -/
theorem walkFrom_last_of_not_leaf {p : Platform} {m : Memory} {l : Level}
    (h : readEntry p m (slotAddr frame va l) = some e) (hl : isLeaf e = false) :
    walkFrom p m va [l] frame = .unmapped := by
  by_cases hv : isValid e = true
  · have hp : isPointer e = true := by simp [isPointer, hv, hl]
    rw [walkFrom_pointer h hp, walkFrom]
  · exact walkFrom_invalid h (Bool.eq_false_iff.2 hv)

end

/-! ### The statements about `WALK` -/

/-- Settles O30: the walk descends by its pointers and ends at the leaf of the level reached. -/
theorem walkEndsAtALeaf : Obligations.WalkEndsAtALeaf := by
  intro sel a b e2 e1 e0 s hsel hcanon hb h2
  refine ⟨fun hl2 => ?_, fun hp2 h1 => ⟨fun hl1 => ?_, fun hp1 h0 hl0 => ?_⟩⟩
  · have hread2 := readEntry_slotAddr_of_holds (l := .l2) hb h2
    exact exec_walk_of_leaf hsel hcanon hb (walkFrom_leaf hread2 hl2)
  · have hread1 := readEntry_slotAddr_of_holds (l := .l1) (frameOk_pteAddr e2) h1
    exact exec_walk_of_leaf hsel hcanon hb ((walk_of_pointer hb h2 hp2).trans (walkFrom_leaf hread1 hl1))
  · have hread0 := readEntry_slotAddr_of_holds (l := .l0) (frameOk_pteAddr e1) h0
    exact exec_walk_of_leaf hsel hcanon hb
      ((walk_of_two_pointers hb h2 hp2 h1 hp1).trans (walkFrom_leaf hread0 hl0))

/-- Settles O31: the walk descends by its pointers and ends at the entry that neither is a leaf nor leads on. -/
theorem walkEndsUnmapped : Obligations.WalkEndsUnmapped := by
  intro sel a b e2 e1 e0 s hsel hcanon hb h2
  refine ⟨fun hv2 => ?_, fun hp2 h1 => ⟨fun hv1 => ?_, fun hp1 h0 hl0 => ?_⟩⟩
  · have hread2 := readEntry_slotAddr_of_holds (l := .l2) hb h2
    exact exec_walk_of_walk hsel hcanon hb (walkFrom_invalid hread2 hv2)
  · have hread1 := readEntry_slotAddr_of_holds (l := .l1) (frameOk_pteAddr e2) h1
    exact exec_walk_of_walk hsel hcanon hb ((walk_of_pointer hb h2 hp2).trans (walkFrom_invalid hread1 hv1))
  · have hread0 := readEntry_slotAddr_of_holds (l := .l0) (frameOk_pteAddr e1) h0
    exact exec_walk_of_walk hsel hcanon hb
      ((walk_of_two_pointers hb h2 hp2 h1 hp1).trans (walkFrom_last_of_not_leaf hread0 hl0))

/-- Settles O32: the constructor's refusals, then the root's, then a slot that holds no memory at the level reached. -/
theorem walkRefusalsInOrder : Obligations.WalkRefusalsInOrder := by
  intro sel a b e2 e1 s
  refine ⟨exec_walk_of_construct_error s b (construct_three a),
    fun hc => exec_walk_of_construct_error s b (construct_zero_of_not_canon hc), fun hsel hcanon =>
    ⟨exec_walk_of_bad_root hsel hcanon, fun hb => ⟨fun habsent => ?_, fun h2 hp2 =>
      ⟨fun habsent => ?_, fun h1 hp1 habsent => ?_⟩⟩⟩⟩
  · have hnone2 := readEntry_slotAddr_of_absent (l := .l2) hb habsent
    exact exec_walk_of_walk hsel hcanon hb (walkFrom_noMemory hnone2)
  · have hnone1 := readEntry_slotAddr_of_absent (l := .l1) (frameOk_pteAddr e2) habsent
    exact exec_walk_of_walk hsel hcanon hb ((walk_of_pointer hb h2 hp2).trans (walkFrom_noMemory hnone1))
  · have hnone0 := readEntry_slotAddr_of_absent (l := .l0) (frameOk_pteAddr e1) habsent
    exact exec_walk_of_walk hsel hcanon hb
      ((walk_of_two_pointers hb h2 hp2 h1 hp1).trans (walkFrom_noMemory hnone0))

/-- Settles O33: the bound is the number of levels, and the two walks are the same by `walkFrom_congr`. -/
theorem walkDependsOnAtMost24Bytes : Obligations.WalkDependsOnAtMost24Bytes := by
  intro sel a b s t
  refine ⟨readsFrom_length s.platform s.mem a b [.l2, .l1, .l0], fun hplatform hbytes => ?_⟩
  cases hc : construct sel a with
  | error st =>
    exact ⟨⟨st, 0#64⟩, exec_walk_of_construct_error s b hc, exec_walk_of_construct_error t b hc⟩
  | ok va =>
    rw [exec_walk_of_construct s b hc, exec_walk_of_construct t b hc]
    by_cases hb : frameOk b = true
    · have hwalk : walk t.platform t.mem a b = walk s.platform s.mem a b := by
        rw [hplatform]
        exact walkFrom_congr fun addr haddr => memRead8_congr (hbytes addr haddr)
      obtain ⟨r, hr⟩ := answerWalk_uniform a (walk s.platform s.mem a b)
      rw [if_pos hb, if_pos hb, hwalk, hr s, hr t]
      exact ⟨r, rfl, rfl⟩
    · rw [if_neg hb, if_neg hb]
      exact ⟨⟨.contractViolation, 0#64⟩, rfl, rfl⟩

end Sys2Proof.Machine

/-! PROOFS. The statements of spec/44_translator_top.md. Two facts about a translation carry them: its response is that of
a matching cache entry or that of the walk (`translate_resp`), and it adds to the cache at most the leaf that the walk
found (`mem_translate_tlb`). On a coherent cache the two responses are the same, and such a leaf keeps the cache coherent
(`coherent_of_entries`), since it stands for every address it covers (`walk_leaf_of_matches`). -/

namespace Sys2Proof.Machine

/-! ### The cache that `XLATE` sees (R27) -/

theorem mem_cache {s : State} {f : CacheEntry} : f ∈ s.cache ↔ s.platform.tlbPresent = true ∧ f ∈ s.tlb := by
  cases h : s.platform.tlbPresent with
  | false => simp [cache_of_absent h]
  | true => simp [cache_of_present h]

/-- Eviction leaves no entry that was not there (R166). -/
theorem mem_evict_tlb {s : State} {ch : Choice} {f : CacheEntry} (h : f ∈ (s.evict ch).tlb) : f ∈ s.tlb := by
  rw [evict_eq] at h
  split at h
  · obtain ⟨hmem, _⟩ := mem_cacheEvict.1 h
    exact hmem
  · exact h

/-- A fill adds the leaf with the address's tag, and no more (R165). -/
theorem mem_fill_tlb {s : State} {ch : Choice} {va e : Word} {l : Level} {f : CacheEntry}
    (h : f ∈ (s.fill ch va l e).tlb) : f = ⟨l, tagOf va l, e⟩ ∨ f ∈ s.tlb := by
  rw [fill_eq] at h
  split at h
  · exact mem_cacheInsert.1 h
  · exact .inr h

/-! ### What a translation can answer and cache (R160, R164, R165) -/

section
variable (s : State) (ch : Choice) {sel : BitVec 2} {a va : Word}

theorem xlate_of_construct_error {st : Status} (h : construct sel a = .error st) : s.xlate ch sel a = s.raise st := by
  simp [State.xlate, h]

theorem xlate_eq_translate (h : construct sel a = .ok va) (hm : pcrMode s.pcr = 8#4) :
    s.xlate ch sel a = s.translate ch va := by
  simp [State.xlate, h, hm, Config.modeSv39]

theorem xlate_eq_translate_raw (h : construct sel a = .ok va) (hm : pcrMode s.pcr = 8#4) :
    s.xlate ch sel a = s.translate ch a :=
  (xlate_of_construct s ch h).trans (if_pos hm)

theorem xlate_of_paging_off (h : construct sel a = .ok va) (hm : pcrMode s.pcr ≠ 8#4) :
    s.xlate ch sel a = s.raise .contractViolation :=
  (xlate_of_construct s ch h).trans (if_neg hm)

/-- A hit gives a matching entry's address; every other translation gives the response to the walk. -/
theorem translate_resp (va : Word) :
    (∃ e ∈ s.cache, cacheMatches va e = true ∧ (s.translate ch va).resp = some ⟨.ok, leafAddr e.lvl e.pte va⟩) ∨
      (s.translate ch va).resp = (s.answerWalk va (walk s.platform s.mem va (rootFrame s.pcr))).resp := by
  rcases translate_cases s ch va with ⟨e, he, hm, ht⟩ | ⟨l, e, hw, ht⟩ | ⟨_, ht⟩
  · obtain ⟨hmem, _⟩ := mem_cacheEvict.1 he
    exact .inl ⟨e, hmem, hm, by rw [ht, answer_resp]⟩
  · right
    rw [ht, hw, answer_resp, State.answerWalk, answer_resp]
  · right
    rw [ht]
    exact answerWalk_resp_congr _ _ _ _

/-- Every entry after a translation was there before or is the leaf that the walk found. -/
theorem mem_translate_tlb {f : CacheEntry} (hf : f ∈ (s.translate ch va).tlb) :
    f ∈ s.tlb ∨ ∃ l e, walk s.platform s.mem va (rootFrame s.pcr) = .leaf l e ∧ f = ⟨l, tagOf va l, e⟩ := by
  rcases translate_cases s ch va with ⟨e, _, _, ht⟩ | ⟨l, e, hw, ht⟩ | ⟨_, ht⟩
  · rw [ht] at hf
    exact .inl (mem_evict_tlb hf)
  · rw [ht, answer_tlb] at hf
    rcases mem_fill_tlb hf with hnew | hold
    · exact .inr ⟨l, e, hw, hnew⟩
    · exact .inl (mem_evict_tlb hold)
  · rw [ht, answerWalk_tlb] at hf
    exact .inl (mem_evict_tlb hf)

end

/-- Settles O40: the two facts about a translation, for an address that was constructed. -/
theorem xlateIsAHitOrAMiss : Obligations.XlateIsAHitOrAMiss := by
  intro sel a va s ch hc hm
  rw [xlate_eq_translate s ch hc hm]
  exact ⟨translate_resp s ch va, fun f hf => mem_translate_tlb s ch hf⟩

/-! ### Coherence (R167) -/

section
variable {s t : State}

/-- Where there is no entry there is nothing to be stale. -/
theorem coherent_of_no_entry (h : s.platform.tlbPresent = false ∨ s.tlb = []) : s.Coherent := by
  intro e he
  obtain ⟨hpresent, hmem⟩ := mem_cache.1 he
  rcases h with h | h
  · simp [h] at hpresent
  · simp [h] at hmem

/-- Under the same root and memory the cache stays coherent if it gains nothing but leaves that walks find now. -/
theorem coherent_of_entries (hs : s.Coherent) (hpcr : t.pcr = s.pcr) (hmem : t.mem = s.mem)
    (hplat : t.platform = s.platform)
    (h : ∀ f ∈ t.tlb, f ∈ s.tlb ∨
      ∃ va l e, walk s.platform s.mem va (rootFrame s.pcr) = .leaf l e ∧ f = ⟨l, tagOf va l, e⟩) : t.Coherent := by
  intro f hf vb hmatch
  rw [hpcr, hmem, hplat]
  obtain ⟨hpresent, hft⟩ := mem_cache.1 hf
  rcases h f hft with hold | ⟨va, l, e, hw, rfl⟩
  · exact hs f (mem_cache.2 ⟨hplat ▸ hpresent, hold⟩) vb hmatch
  · exact walk_leaf_of_matches hw hmatch

/-- No other field matters. -/
theorem coherent_congr (hs : s.Coherent) (hpcr : t.pcr = s.pcr) (hmem : t.mem = s.mem) (htlb : t.tlb = s.tlb)
    (hplat : t.platform = s.platform) : t.Coherent :=
  coherent_of_entries hs hpcr hmem hplat fun _ hf => .inl (htlb ▸ hf)

theorem coherent_xlate (ch : Choice) (sel : BitVec 2) (a : Word) (hs : s.Coherent) : (s.xlate ch sel a).Coherent := by
  refine coherent_of_entries hs (by rw [xlate_frame]) (by rw [xlate_frame]) (by rw [xlate_frame]) fun f hf => ?_
  rcases xlate_cases s ch sel a with ⟨_, _, ht⟩ | ⟨_, _, _, ht⟩ | ⟨va, _, _, ht⟩
  · rw [ht] at hf
    exact .inl hf
  · rw [ht] at hf
    exact .inl hf
  · rw [ht] at hf
    exact (mem_translate_tlb s ch hf).imp_right fun hleaf => ⟨va, hleaf⟩

theorem coherent_flush (s : State) : s.flush.Coherent := coherent_of_no_entry (.inr rfl)

/-- Every operation but `PCR.SET` keeps the cache coherent. -/
theorem exec_coherent {i : Instr} (hs : s.Coherent) (hi : ∀ a, i ≠ .pcrSet a) (h : exec i s = .next t) :
    t.Coherent := by
  rcases exec_cases h with ht | ⟨sel, a, _, rfl⟩ | ⟨a, hset, _, _⟩ | ⟨_, rfl⟩
  · rw [ht]
    exact coherent_congr hs rfl rfl rfl rfl
  · exact coherent_congr (coherent_xlate _ sel a hs) rfl rfl rfl rfl
  · exact absurd hset (hi a)
  · exact coherent_congr (coherent_flush s) rfl rfl rfl rfl

/-- A command that keeps the tables is no `PCR.SET`. -/
theorem decode_ne_pcrSet_of_keepsTables {c : Command} (h : keepsTables (.command c) = true) (a : Word) :
    decode c ≠ .ok (.pcrSet a) := by
  intro hd
  simp [keepsTables, hd] at h

theorem runAction_coherent {act : HostAction} (hs : s.Coherent) (hk : keepsTables act = true)
    (h : runAction act s = .next t) : t.Coherent := by
  cases act with
  | command c =>
    rcases issue_cases h with ⟨i, hd, hi⟩ | rfl
    · exact exec_coherent hs (fun a hset => decode_ne_pcrSet_of_keepsTables hk a (hset ▸ hd)) hi
    · exact coherent_congr hs rfl rfl rfl rfl
  | validEntries f =>
    obtain ⟨_, _, _, rfl⟩ := ptValidEntries_ok.1 (ofHost_next.1 h)
    exact coherent_congr hs rfl rfl rfl rfl
  | deallocate al f => cases h; exact coherent_congr hs rfl rfl rfl rfl
  | maskInterrupts on => cases h; exact coherent_congr hs rfl rfl rfl rfl
  | boot =>
    obtain ⟨_, rfl⟩ := boot_ok (ofHost_next.1 h)
    exact coherent_congr hs rfl rfl rfl rfl
  | memWrite | ptZero | map | mapTo | bootMap | reset => cases hk

end

/-- Settles O38: `TLB.FLUSH` leaves no entry, and each action that keeps the tables adds no entry but a walk's leaf. -/
theorem coherenceIsKeptUntilTablesOrRootChange : Obligations.CoherenceIsKeptUntilTablesOrRootChange := by
  refine ⟨fun s => ⟨_, rfl, coherent_congr (coherent_flush s) rfl rfl rfl rfl⟩, fun s t act rest hs hp hk h => ?_⟩
  obtain ⟨hrunning, _⟩ := step_cases h
  rw [step_action hrunning hp] at h
  exact runAction_coherent (s := { s with program := rest }) (coherent_congr hs rfl rfl rfl rfl) hk h

/-! ### On a coherent cache `XLATE` is `WALK` (R167) -/

/-- A hit on a coherent cache gives what the walk would. -/
theorem translate_resp_of_coherent {s : State} (hs : s.Coherent) (ch : Choice) (va : Word) :
    (s.translate ch va).resp = (s.answerWalk va (walk s.platform s.mem va (rootFrame s.pcr))).resp := by
  rcases translate_resp s ch va with ⟨e, he, hm, hresp⟩ | hresp
  · rw [hresp, hs e he va hm, State.answerWalk, answer_resp]
  · exact hresp

/-- `WALK` from the register's root gives one response, and so does every way the choices of `XLATE` fall. -/
theorem walk_and_xlate_resp_of_coherent {s : State} (hs : s.Coherent) (hm : pcrMode s.pcr = 8#4) (sel : BitVec 2)
    (a : Word) : ∃ r, exec (.walk sel a (rootFrame s.pcr)) s = .next { s with resp := some r } ∧
      ∀ ch, (s.xlate ch sel a).resp = some r := by
  cases hc : construct sel a with
  | error st =>
    exact ⟨⟨st, 0#64⟩, exec_walk_of_construct_error s _ hc, fun ch => by
      rw [xlate_of_construct_error s ch hc, raise_resp]⟩
  | ok va =>
    obtain ⟨r, hr⟩ := answerWalk_uniform a (walk s.platform s.mem a (rootFrame s.pcr))
    refine ⟨r, ?_, fun ch => ?_⟩
    · rw [exec_walk_of_construct s _ hc, if_pos (frameOk_rootFrame s.pcr), hr]
    · rw [xlate_eq_translate_raw s ch hc hm, translate_resp_of_coherent hs, hr]

/-- Settles O37: `exec` of `XLATE` is one of the ways its choices fall. -/
theorem xlateIsExactOnACoherentCache : Obligations.XlateIsExactOnACoherentCache := by
  refine ⟨fun s => coherent_of_no_entry, fun sel a s hs hm => ?_⟩
  obtain ⟨r, hwalk, hxlate⟩ := walk_and_xlate_resp_of_coherent hs hm sel a
  exact ⟨r, hwalk, hxlate, _, rfl, hxlate (Config.choice s.draws)⟩

/-! ### Every alternative is there (R160, R164 to R166) -/

/-- Each matching entry is the hit for some pick. -/
theorem exists_pick_of_matches {c : Cache} {e : CacheEntry} {va : Word} (he : e ∈ c) (hm : cacheMatches va e = true) :
    ∃ n, ∀ gone fill, cacheHit ⟨gone, n, fill⟩ va c = some e := by
  obtain ⟨n, hn⟩ := List.getElem?_of_mem (List.mem_filter.2 ⟨he, hm⟩)
  exact ⟨n, fun _ _ => hn⟩

/-- A pick past the last entry is a miss. -/
theorem cacheHit_of_length_le {c : Cache} {ch : Choice} (va : Word) (h : c.length ≤ ch.pick) :
    cacheHit ch va c = none :=
  List.getElem?_eq_none (Nat.le_trans (List.length_filter_le _ _) h)

section
variable {s u : State} {ch : Choice} {va e : Word} {l : Level}

theorem translate_of_hit {f : CacheEntry} (hu : s.evict ch = u) (h : cacheHit ch va u.cache = some f) :
    s.translate ch va = u.answer (leafAddr f.lvl f.pte va) := by
  simp only [State.translate, hu, h]

/-- A miss without a fill answers the walk. -/
theorem translate_of_miss (hu : s.evict ch = u) (h : cacheHit ch va u.cache = none) (hf : ch.fill = false) :
    s.translate ch va = u.answerWalk va (walk s.platform s.mem va (rootFrame s.pcr)) := by
  subst hu
  simp only [State.translate, h, evict_platform, evict_mem, evict_pcr]
  cases walk s.platform s.mem va (rootFrame s.pcr) with
  | leaf l e => simp [State.answerWalk, State.fill, hf]
  | unmapped => rfl
  | noMemory => rfl

theorem translate_of_miss_leaf (hu : s.evict ch = u) (h : cacheHit ch va u.cache = none)
    (hw : walk s.platform s.mem va (rootFrame s.pcr) = .leaf l e) :
    s.translate ch va = (u.fill ch va l e).answer (leafAddr l e va) := by
  subst hu
  simp only [State.translate, h, evict_platform, evict_mem, evict_pcr, hw]

end

/-- Settles O39: the choice names the entries to go, the pick of the hit or a pick past the last entry, and the fill. -/
theorem xlateAdmitsEveryAlternative : Obligations.XlateAdmitsEveryAlternative := by
  intro sel a va s u gone hc hm hpresent hu
  have hevict (n : Nat) (fill : Bool) : s.evict ⟨gone, n, fill⟩ = u := by
    rw [hu, State.evict, if_pos hpresent, cacheEvict]
  have hpresent_u : u.platform.tlbPresent = true := by rw [hu]; exact hpresent
  have hcache : u.cache = u.tlb := cache_of_present hpresent_u
  have hmiss (fill : Bool) : cacheHit ⟨gone, u.tlb.length, fill⟩ va u.cache = none :=
    cacheHit_of_length_le va (by rw [hcache])
  simp only [xlate_eq_translate s _ hc hm]
  refine ⟨fun e he hmatch => ?_, ⟨⟨gone, u.tlb.length, false⟩, translate_of_miss (hevict _ _) (hmiss _) rfl⟩,
    fun l e hw => ⟨⟨gone, u.tlb.length, true⟩, ?_⟩⟩
  · obtain ⟨n, hn⟩ := exists_pick_of_matches he hmatch
    exact ⟨⟨gone, n, false⟩, translate_of_hit (hevict _ _) (hcache ▸ hn _ _)⟩
  · rw [translate_of_miss_leaf (hevict _ _) (hmiss _) hw, State.fill, hpresent_u]
    rfl

/-! ### A level-2 leaf and an empty cache (R145, R160, R165) -/

theorem tagOf_toNat (v : Word) (l : Level) : (tagOf v l).toNat = v.toNat / 2 ^ l.shift % 2 ^ (39 - l.shift) := by
  have hwidth : 39 - l.shift ≤ 27 := by cases l <;> decide
  rw [tagOf, BitVec.toNat_setWidth_of_le hwidth, BitVec.extractLsb'_toNat, Nat.shiftRight_eq_div_pow]

/-- With an empty cache a translation that the walk takes to a leaf evicts nothing, and perhaps fills. -/
theorem translate_of_cache_nil {s : State} {va e : Word} {l : Level} (ch : Choice) (hcache : s.cache = [])
    (hw : walk s.platform s.mem va (rootFrame s.pcr) = .leaf l e) :
    s.translate ch va = ((s.evict ch).fill ch va l e).answer (leafAddr l e va) :=
  translate_of_miss_leaf rfl (cacheHit_of_length_le va (by simp [hcache, cacheEvict])) hw

/-- After a fill the empty cache is still empty or holds the leaf alone. -/
theorem fill_evict_cache_of_nil {s : State} (ch : Choice) (va : Word) (l : Level) (e : Word) (hcache : s.cache = []) :
    ((s.evict ch).fill ch va l e).cache = [] ∨ ((s.evict ch).fill ch va l e).cache = [⟨l, tagOf va l, e⟩] := by
  have hevicted : cacheEvict ch s.cache = [] := by rw [hcache]; rfl
  rw [fill_cache, evict_cache, hevicted]
  split
  · exact .inr rfl
  · exact .inl rfl

/-- Settles O36: the walk ends at the slot of the register's root, whichever choice falls. -/
theorem xlateThroughALevel2Leaf : Obligations.XlateThroughALevel2Leaf := by
  intro sel a e s hsel hcanon hm hcache hholds hleaf
  obtain ⟨va, hva, -⟩ := construct_ok hsel hcanon
  rw [← rootFrame_toNat] at hholds
  have hread := readEntry_slotAddr_of_holds (l := .l2) (frameOk_rootFrame s.pcr) hholds
  have hwalk : walk s.platform s.mem a (rootFrame s.pcr) = .leaf .l2 e := walkFrom_leaf hread hleaf
  have hxlate (ch : Choice) : s.xlate ch sel a = ((s.evict ch).fill ch a .l2 e).answer (leafAddr .l2 e a) := by
    rw [xlate_eq_translate_raw s ch hva hm, translate_of_cache_nil ch hcache hwalk]
  have htag : tagOf a .l2 = BitVec.ofNat 27 (a.toNat / 2 ^ 30 % 512) := by
    have hval : (tagOf a .l2).toNat = a.toNat / 2 ^ 30 % 512 := tagOf_toNat a .l2
    rw [← hval, BitVec.ofNat_toNat, BitVec.setWidth_eq]
  refine ⟨_, rfl, ?_⟩
  rw [hxlate, tick_resp, tick_pcr, tick_mem, tick_cache, answer_cache, ← htag]
  refine ⟨?_, by simp, by simp, fill_evict_cache_of_nil _ a .l2 e hcache⟩
  rw [answer_resp, leafAddr_eq_ofNat]
  rfl

/-! ### Refusals (R160, R215) -/

section
variable {s : State} {sel : BitVec 2} {a : Word} {st : Status}

/-- A refused `XLATE` changes the response only, and the counter of choices (log 6). -/
theorem exec_xlate_of_refused (h : ∀ ch, s.xlate ch sel a = s.raise st) :
    exec (.xlate sel a) s = .next { s with resp := some ⟨st, 0#64⟩, draws := s.draws + 1 } :=
  congrArg (fun t : State => Host.Outcome.next t.tick) (h (Config.choice s.draws))

theorem exec_xlate_of_construct_error (s : State) (h : construct sel a = .error st) :
    exec (.xlate sel a) s = .next { s with resp := some ⟨st, 0#64⟩, draws := s.draws + 1 } :=
  exec_xlate_of_refused fun ch => xlate_of_construct_error s ch h

end

/-- Settles O35: the constructor's refusals, then the mode's. -/
theorem xlateRefusalsInOrder : Obligations.XlateRefusalsInOrder := by
  intro sel a s
  refine ⟨exec_xlate_of_construct_error s (construct_three a),
    fun hc => exec_xlate_of_construct_error s (construct_zero_of_not_canon hc), fun hsel hcanon hm => ?_⟩
  obtain ⟨va, hva, -⟩ := construct_ok hsel hcanon
  exact exec_xlate_of_refused fun ch => xlate_of_paging_off s ch hva hm

/-! ### The register and the flush (R161 to R163) -/

theorem pcrMode_toNat (v : Word) : (pcrMode v).toNat = v.toNat / 2 ^ 60 := by
  rw [pcrMode, BitVec.extractLsb'_toNat, Nat.shiftRight_eq_div_pow]
  have := v.isLt
  omega

/-- The modes that the register may hold are 0 and 8 (R24). -/
theorem modeLegal_pcrMode_iff (v : Word) :
    modeLegal (pcrMode v) = true ↔ v.toNat / 2 ^ 60 = 0 ∨ v.toNat / 2 ^ 60 = 8 := by
  rw [modeLegal, Bool.or_eq_true, beq_iff_eq, beq_iff_eq, ← BitVec.toNat_inj, ← BitVec.toNat_inj, pcrMode_toNat]
  rfl

theorem exec_pcrSet_of_legal {a : Word} (s : State) (h : modeLegal (pcrMode a) = true) :
    exec (.pcrSet a) s = .next ((s.setPcr a).answer 0#64) := by simp [exec, execPcrSet, h]

theorem exec_pcrSet_of_not_legal {a : Word} (s : State) (h : ¬ modeLegal (pcrMode a) = true) :
    exec (.pcrSet a) s = .next (s.raise .contractViolation) := by simp [exec, execPcrSet, h]

/-- Settles O41: the two premises are the test of the mode and its negation (`modeLegal_pcrMode_iff`). -/
theorem pcrSetWritesTheRegister : Obligations.PcrSetWritesTheRegister := by
  intro a b s
  refine ⟨decode_of_encode_cw (k := .pcrSet a) a b rfl rfl,
    fun hmode => exec_pcrSet_of_legal s ((modeLegal_pcrMode_iff a).2 hmode), fun hmode => ?_⟩
  exact exec_pcrSet_of_not_legal s fun hlegal => not_or.2 hmode ((modeLegal_pcrMode_iff a).1 hlegal)

theorem pcrPpn_setWidth_toNat (v : Word) : ((pcrPpn v).setWidth 64).toNat = v.toNat % 2 ^ 44 := by
  rw [BitVec.toNat_setWidth_of_le (by decide), pcrPpn, BitVec.extractLsb'_toNat, Nat.shiftRight_zero]

/-- Settles O42: the answer of `PCR.READ` by its value, and the two updates of `TLB.FLUSH`. -/
theorem pcrReadAndTlbFlush : Obligations.PcrReadAndTlbFlush := fun a b s =>
  ⟨decode_of_encode_cw (k := .pcrRead) a b rfl rfl, decode_of_encode_cw (k := .tlbFlush) a b rfl rfl,
    congrArg _ (answer_of_toNat s (pcrPpn_setWidth_toNat s.pcr)), rfl⟩

end Sys2Proof.Machine

/-! PROOFS. The statements of spec/45_host_procedures.md. The whole-table procedures are stores and a filter of the
table's entries. What a `MAP` answers at one level is an equation for each case; what a whole call keeps and leaves is an
induction on its descent, from `mapDown_cons_cases`. Two facts carry the hard statements: a grown table leads nowhere but
to itself (`grown_leadsToItself`), so a call stays in the frames it is given, and no valid entry is overwritten
(`mapDown_keeps_valid`), so the pointers that a call leaves lead to the entry it wrote (`leadsTo_of_mapDown_ok`). A
bootstrap is a run of one lemma per step (`run_boot`). -/

namespace Sys2Proof.Machine

/-! ### The whole-table procedures (R180, R181) -/

section
variable {s : State} {f : Word} {rest : List HostAction}

/-- The step of `PT.ZERO` with paging off. -/
theorem step_ptZero (hh : s.halted = false) (hp : s.program = .ptZero f :: rest) (hf : frameOk f = true)
    (ha : allPopulated s.platform f.toNat 4096 = true) (hoff : pcrMode s.pcr ≠ 8#4) :
    step s = .next { s with program := rest, mem := memZeroTable s.mem f.toNat } := by
  rw [step_action hh hp]
  exact ofHost_next.2 (ptZero_ok.2 ⟨hf, ha, identityMapped_of_off hoff f, rfl⟩)

/-- The step of `PT.VALID_ENTRIES` with paging off. -/
theorem step_validEntries (hh : s.halted = false) (hp : s.program = .validEntries f :: rest) (hf : frameOk f = true)
    (ha : allPopulated s.platform f.toNat 4096 = true) (hoff : pcrMode s.pcr ≠ 8#4) :
    step s = .next { s with program := rest, listing := validEntriesOf s.mem f } := by
  rw [step_action hh hp]
  exact ofHost_next.2 (ptValidEntries_ok.2 ⟨hf, ha, identityMapped_of_off hoff f, rfl⟩)

end

/-- Settles O50: the memory after the step is the zeroed table's. -/
theorem ptZeroMakesEveryEntryInvalid : Obligations.PtZeroMakesEveryEntryInvalid := by
  intro s f rest hh hp hf ha hoff
  refine ⟨_, step_ptZero hh hp hf ha hoff, fun i hi => memRead8_memZeroTable s.mem (by omega) (by omega),
    fun x hx => ?_⟩
  rw [memByte_memZeroTable, if_neg (by omega)]

theorem cellsAt_append (addr : Nat) (bs cs : List Byte) :
    cellsAt addr (bs ++ cs) = cellsAt addr bs ++ cellsAt (addr + bs.length) cs := by
  induction bs generalizing addr with
  | nil => rfl
  | cons b bs ih => rw [List.cons_append, cellsAt, ih, cellsAt, List.cons_append, List.length_cons, Nat.add_assoc,
      Nat.add_comm 1]

section
variable (m : Memory) (addr : Nat) (bs : List Byte)

/-- What a store leaves below its own end: the cells below it, and its own. -/
theorem memWrite_filter_lt :
    (memWrite m addr bs).filter (fun c => decide (c.1 < addr + bs.length)) =
      m.filter (fun c => decide (c.1 < addr)) ++ cellsAt addr bs := by
  have hbelow : (m.filter fun c => decide (c.1 < addr)).filter (fun c => decide (c.1 < addr + bs.length)) =
      m.filter fun c => decide (c.1 < addr) :=
    List.filter_eq_self.2 fun c hc => by have := List.of_mem_filter hc; grind
  have hcells : (cellsAt addr bs).filter (fun c => decide (c.1 < addr + bs.length)) = cellsAt addr bs :=
    List.filter_eq_self.2 fun c hc => decide_eq_true (cellsAt_bounds hc).2
  have habove : (m.filter fun c => decide (addr + bs.length ≤ c.1)).filter
      (fun c => decide (c.1 < addr + bs.length)) = [] :=
    List.filter_eq_nil_iff.2 fun c hc => by have := List.of_mem_filter hc; grind
  rw [memWrite, List.filter_append, List.filter_append, hbelow, hcells, habove, List.append_nil]

/-- A store leaves every cell from its own end on. -/
theorem memWrite_filter_ge (n : Nat) :
    (memWrite m addr bs).filter (fun c => decide (addr + bs.length + n ≤ c.1)) =
      m.filter (fun c => decide (addr + bs.length + n ≤ c.1)) := by
  have hbelow : (m.filter fun c => decide (c.1 < addr)).filter
      (fun c => decide (addr + bs.length + n ≤ c.1)) = [] :=
    List.filter_eq_nil_iff.2 fun c hc => by have := List.of_mem_filter hc; grind
  have hcells : (cellsAt addr bs).filter (fun c => decide (addr + bs.length + n ≤ c.1)) = [] :=
    List.filter_eq_nil_iff.2 fun c hc => by have := cellsAt_bounds hc; grind
  have habove : (m.filter fun c => decide (addr + bs.length ≤ c.1)).filter
      (fun c => decide (addr + bs.length + n ≤ c.1)) = m.filter fun c => decide (addr + bs.length + n ≤ c.1) := by
    rw [List.filter_filter]
    exact List.filter_congr fun c _ => by grind
  rw [memWrite, List.filter_append, List.filter_append, hbelow, hcells, habove, List.nil_append, List.nil_append]

/-- A store right behind a store is one store of both, as data, whatever the memory. -/
theorem memWrite_memWrite_adjacent (cs : List Byte) :
    memWrite (memWrite m addr bs) (addr + bs.length) cs = memWrite m addr (bs ++ cs) := by
  rw [memWrite, memWrite_filter_lt, memWrite_filter_ge, memWrite, cellsAt_append, List.length_append, Nat.add_assoc,
    List.append_assoc (m.filter _)]

end

/-- The first entry writes of `PT.ZERO`'s loop are one store of zero bytes (R180). -/
theorem foldl_memWrite8_zero (m : Memory) (f n : Nat) :
    (List.range (n + 1)).foldl (fun m i => memWrite8 m (f + 8 * i) 0#64) m =
      memWrite m f (List.replicate (8 * (n + 1)) 0#8) := by
  have hbytes : leBytes 8 (0#64 : Word).toNat = List.replicate 8 0#8 := rfl
  induction n with
  | zero => simp only [memWrite8, hbytes]; rfl
  | succ n ih =>
    have hadj := memWrite_memWrite_adjacent m f (List.replicate (8 * (n + 1)) 0#8) (List.replicate 8 0#8)
    rw [List.length_replicate, List.replicate_append_replicate] at hadj
    rw [List.range_succ, List.foldl_append, ih, List.foldl_cons, List.foldl_nil, memWrite8, hbytes, hadj]
    rfl

/-- Settles O51: by induction on the number of entries written. -/
theorem ptZeroIs512EntryWrites : Obligations.PtZeroIs512EntryWrites := by
  intro m f
  rw [memZeroTable]
  exact (foldl_memWrite8_zero m f 511).symm

theorem mem_validEntriesOf {m : Memory} {f : Word} {i : Nat} {e : Word} :
    (i, e) ∈ validEntriesOf m f ↔ i < 512 ∧ e = memRead8 m (f.toNat + 8 * i) ∧ isValid e = true := by
  simp only [validEntriesOf, List.mem_filterMap, List.mem_range, Option.ite_none_right_eq_some, Option.some.injEq,
    Prod.mk.injEq]
  constructor
  · rintro ⟨_, hi, hv, rfl, rfl⟩
    exact ⟨hi, rfl, hv⟩
  · rintro ⟨hi, rfl, hv⟩
    exact ⟨i, hi, hv, rfl, rfl⟩

/-- The indices rise, as the loop visits them. -/
theorem validEntriesOf_rising (m : Memory) (f : Word) : (validEntriesOf m f).Pairwise (fun x y => x.1 < y.1) := by
  refine List.Pairwise.filterMap _ (fun i j hij x hx y hy => ?_) List.pairwise_lt_range
  simp only [Option.ite_none_right_eq_some, Option.some.injEq] at hx hy
  obtain ⟨_, rfl⟩ := hx
  obtain ⟨_, rfl⟩ := hy
  exact hij

/-- Settles O52: the listing is the one that the loop collects. -/
theorem ptValidEntriesYieldsTheValidOnes : Obligations.PtValidEntriesYieldsTheValidOnes := by
  intro s f rest hh hp hf ha hoff
  exact ⟨_, step_validEntries hh hp hf ha hoff, fun _ _ => mem_validEntriesOf, validEntriesOf_rising s.mem f⟩

/-! ### What a `MAP` answers, case by case (R183 to R185)

The converses, which read a call's end back, are `mapTarget_ok` and `mapDown_cons_ok`. -/

theorem hostLoad_of_off {s : State} {slot : Word} (ha : allPopulated s.platform slot.toNat 8 = true)
    (hoff : pcrMode s.pcr ≠ 8#4) : hostLoad s slot = .ok (memRead8 s.mem slot.toNat) :=
  hostLoad_ok.2 ⟨ha, identityMapped_of_off hoff slot, rfl⟩

theorem hostStore_of_off {s : State} {slot : Word} (w : Word) (ha : allPopulated s.platform slot.toNat 8 = true)
    (hoff : pcrMode s.pcr ≠ 8#4) : hostStore s slot w = .ok { s with mem := memWrite8 s.mem slot.toNat w } :=
  hostStore_ok.2 ⟨ha, identityMapped_of_off hoff slot, rfl⟩

section
variable {keep : Bool} {page frame cur root e : Word} {flags : FlagByte} {level l : Level} {ls : List Level} {al : Nat}
  {s t : State} {x : Fault}

theorem mapTarget_of_fault (hl : hostLoad s (slotAddr cur page level) = .error x) :
    mapTarget page frame flags level cur s = .error x := by simp only [mapTarget, hl]

theorem mapTarget_of_valid (hl : hostLoad s (slotAddr cur page level) = .ok e) (hv : isValid e = true) :
    mapTarget page frame flags level cur s = .ok (⟨.pageAlreadyMapped, pteAddr e⟩, s) := by
  simp only [mapTarget, hl, hv, if_true]

theorem mapTarget_of_invalid (hl : hostLoad s (slotAddr cur page level) = .ok e) (hv : isValid e = false)
    (hf : frameOk frame = true) (hs : hostStore s (slotAddr cur page level) (pteWord frame flags) = .ok t) :
    mapTarget page frame flags level cur s = .ok (⟨.ok, 0#64⟩, t) := by
  simp only [mapTarget, hl, hv, hf, hs, Bool.not_true, Bool.false_eq_true, if_false]

theorem mapDown_of_fault (hl : hostLoad s (slotAddr cur page l) = .error x) :
    mapDown keep page frame flags level al (l :: ls) cur s = .error x := by simp only [mapDown, hl]

theorem mapDown_of_leaf (hl : hostLoad s (slotAddr cur page l) = .ok e) (he : isLeaf e = true) :
    mapDown keep page frame flags level al (l :: ls) cur s = .ok (⟨.parentEntryHugePage, 0#64⟩, s) := by
  simp only [mapDown, hl, he, if_true]

theorem mapDown_of_pointer (hl : hostLoad s (slotAddr cur page l) = .ok e) (he : isPointer e = true) :
    mapDown keep page frame flags level al (l :: ls) cur s =
      mapDown keep page frame flags level al ls (pteAddr e) s := by
  simp only [isPointer, Bool.and_eq_true, Bool.not_eq_true'] at he
  simp only [mapDown, hl, he, Bool.false_eq_true, if_true, if_false]

theorem mapDown_of_exhausted (hl : hostLoad s (slotAddr cur page l) = .ok e) (hv : isValid e = false)
    (ha : s.allocator al = []) :
    mapDown keep page frame flags level al (l :: ls) cur s = .ok (⟨.frameAllocationFailed, 0#64⟩, s) := by
  have hleaf : isLeaf e = false := Bool.eq_false_iff.2 fun h => by simp [isValid_of_isLeaf h] at hv
  simp only [mapDown, hl, hv, hleaf, ha, Bool.false_eq_true, if_false]

theorem mapCall_of_masked (hm : s.intMasked = true) (hroot : frameOk root = true) :
    mapCall keep root page frame flags level al s =
      mapDown keep page frame flags level al (levelsAbove level) root s := by
  simp only [mapCall, hm, hroot, Bool.not_true, Bool.false_eq_true, if_false]

theorem mapCall_of_unmasked (hm : s.intMasked = false) :
    mapCall keep root page frame flags level al s = .error .mapperUnmasked := by
  simp only [mapCall, hm, Bool.not_false, if_true]

end

/-- The entry of a frame and flags as a number (R111). -/
theorem pteWord_eq_ofNat {f : Word} (fl : FlagByte) (h : frameOk f = true) :
    pteWord f fl = BitVec.ofNat 64 (f.toNat / 4096 * 1024 + fl.toNat) := by
  obtain ⟨_, hlt⟩ := (frameOk_iff f).1 h
  rw [show f.toNat / 4096 * 1024 + fl.toNat = (pteWord f fl).toNat by rw [pteWord_toNat]; omega, BitVec.ofNat_toNat,
    BitVec.setWidth_eq]

/-- Above a target finer than level 2 stands the root's level (R183). -/
theorem levelsAbove_of_ne_l2 {level : Level} (h : level ≠ .l2) : ∃ ls, levelsAbove level = .l2 :: ls := by
  cases level with
  | l0 => exact ⟨_, rfl⟩
  | l1 => exact ⟨_, rfl⟩
  | l2 => exact absurd rfl h

/-- Settles O53: one equation for each outcome, at the slot of the root table. -/
theorem mapOutcomesAtTheRootTable : Obligations.MapOutcomesAtTheRootTable := by
  intro keep root page frame e flags level al s hroot hoff ha he
  have hslot : (slotAddr root page .l2).toNat = root.toNat + 8 * (page.toNat / 2 ^ 30 % 512) :=
    slotAddr_toNat_eq hroot page .l2
  rw [← hslot] at ha he ⊢
  have hl : hostLoad s (slotAddr root page .l2) = .ok e := he ▸ hostLoad_of_off ha hoff
  refine ⟨mapCall_of_unmasked, fun hm => ⟨?_, ?_, fun hlevel hleaf => ?_, fun hlevel hv hnone => ?_⟩⟩
  · rintro rfl hv hf
    have hcall : mapCall keep root page frame flags .l2 al s = _ :=
      (mapCall_of_masked hm hroot).trans (mapTarget_of_invalid hl hv hf (hostStore_of_off _ ha hoff))
    refine ⟨_, hcall, ?_, fun x hx => memByte_memWrite8_of_disjoint s.mem _ hx⟩
    rw [memRead8_memWrite8, pteWord_eq_ofNat flags hf]
  · rintro rfl hv
    rw [mapCall_of_masked hm hroot]
    exact mapTarget_of_valid hl hv
  · obtain ⟨ls, hls⟩ := levelsAbove_of_ne_l2 hlevel
    rw [mapCall_of_masked hm hroot, hls, mapDown_of_leaf hl hleaf]
  · obtain ⟨ls, hls⟩ := levelsAbove_of_ne_l2 hlevel
    rw [mapCall_of_masked hm hroot, hls, mapDown_of_exhausted hl hv hnone]

/-! ### Growing the tree by one table (R182, R183, R186) -/

/-- The state in which a descent has grown the tree: allocator `al` holds `fs`, the table at `f` is zeroed, and the slot
points to it. -/
def State.grown (s : State) (al : Nat) (fs : List Word) (f slot : Word) : State :=
  { s.setAllocator al fs with mem := memWrite8 (memZeroTable s.mem f.toNat) slot.toNat (pteWord f 1#8) }

section
variable (s : State) (al : Nat) (fs : List Word) (f slot old : Word)

@[simp] theorem grown_mem :
    (s.grown al fs f slot).mem = memWrite8 (memZeroTable s.mem f.toNat) slot.toNat (pteWord f 1#8) := rfl
@[simp] theorem grown_platform : (s.grown al fs f slot).platform = s.platform := rfl
@[simp] theorem grown_allocs : (s.grown al fs f slot).allocs = s.allocs.set al fs := rfl

theorem grown_allocator (h : s.allocator al = f :: fs) : (s.grown al fs f slot).allocator al = fs :=
  setAllocator_allocator_same s al fs h

@[simp] theorem undoGrow_mem : (undoGrow al slot old f s).mem = memWrite8 s.mem slot.toNat old := rfl
@[simp] theorem undoGrow_allocs :
    (undoGrow al slot old f s).allocs = s.allocs.set al (Config.deallocate al (s.allocator al) f) := rfl

end

section
variable {keep : Bool} {page frame cur : Word} {flags : FlagByte} {level l : Level} {ls : List Level} {al : Nat}
  {s t : State} {r : Response}

/-- Growth that does not fault: the frame is one, and the state is the grown one. -/
theorem eq_grown {fs : List Word} {f slot : Word} {s1 s2 : State} (hz : ptZero f (s.setAllocator al fs) = .ok s1)
    (hw : hostStore s1 slot (pteWord f 1#8) = .ok s2) : frameOk f = true ∧ s2 = s.grown al fs f slot := by
  obtain ⟨hf, _, _, rfl⟩ := ptZero_ok.1 hz
  obtain ⟨_, _, rfl⟩ := hostStore_ok.1 hw
  exact ⟨hf, rfl⟩

/-- One level of a descent: it ends there with no change, follows a pointer, or grows the tree and goes on in the new
table; there, a call that does not end `OK` may take the growth back. -/
theorem mapDown_cons_cases (h : mapDown keep page frame flags level al (l :: ls) cur s = .ok (r, t)) :
    ∃ e, allPopulated s.platform (slotAddr cur page l).toNat 8 = true ∧
      memRead8 s.mem (slotAddr cur page l).toNat = e ∧
      ((r.st ∈ [Status.frameAllocationFailed, .parentEntryHugePage] ∧ t = s) ∨
       (isPointer e = true ∧ mapDown keep page frame flags level al ls (pteAddr e) s = .ok (r, t)) ∨
       (isValid e = false ∧ ∃ f fs u, s.allocator al = f :: fs ∧ frameOk f = true ∧
          mapDown keep page frame flags level al ls f (s.grown al fs f (slotAddr cur page l)) = .ok (r, u) ∧
          (t = u ∨ r.st ≠ .ok ∧ t = undoGrow al (slotAddr cur page l) e f u))) := by
  obtain ⟨e, hl, hcases⟩ := mapDown_cons_ok h
  obtain ⟨ha, _, he⟩ := hostLoad_ok.1 hl
  refine ⟨e, ha, he, ?_⟩
  obtain ⟨_, rfl, rfl⟩ | hp | ⟨_, _, rfl, rfl⟩ | ⟨hv, f, fs, s1, s2, u, hal, hz, hw, hd, rfl⟩ := hcases
  · exact .inl ⟨by simp, rfl⟩
  · exact .inr (.inl hp)
  · exact .inl ⟨by simp, rfl⟩
  · obtain ⟨hf, rfl⟩ := eq_grown hz hw
    rw [pteAddr_pteWord _ hf] at hd
    refine .inr (.inr ⟨hv, f, fs, u, hal, hf, hd, ?_⟩)
    split
    · exact .inl rfl
    · next hst =>
      rw [Bool.or_eq_true, not_or, beq_iff_eq] at hst
      exact .inr ⟨hst.1, rfl⟩

/-! ### The allocators and the status after a call (R182 to R184) -/

/-- A descent sets its own allocator only. -/
theorem mapDown_allocs (h : mapDown keep page frame flags level al ls cur s = .ok (r, t)) :
    ∃ fs, t.allocs = s.allocs.set al fs := by
  induction ls generalizing cur s t with
  | nil => exact ⟨s.allocator al, by rw [mapTarget_frame h, ← setAllocator_allocs, setAllocator_self]⟩
  | cons l ls ih =>
    obtain ⟨e, _, _, ⟨_, rfl⟩ | ⟨_, hd⟩ | ⟨_, f, fs, u, _, _, hd, ht⟩⟩ := mapDown_cons_cases h
    · exact ⟨t.allocator al, by rw [← setAllocator_allocs, setAllocator_self]⟩
    · exact ih hd
    · obtain ⟨gs, hu⟩ := ih hd
      rw [grown_allocs, List.set_set] at hu
      obtain rfl | ⟨_, rfl⟩ := ht
      · exact ⟨gs, hu⟩
      · exact ⟨_, by rw [undoGrow_allocs, hu, List.set_set]⟩

/-- What an allocator was set to is what it holds, unless its number names none. -/
theorem allocs_eq_set_allocator {fs : List Word} (h : t.allocs = s.allocs.set al fs) :
    t.allocs = s.allocs.set al (t.allocator al) := by
  by_cases hal : al < s.allocs.length
  · simp [State.allocator, h, hal]
  · rw [h, List.set_eq_of_length_le (Nat.le_of_not_lt hal), List.set_eq_of_length_le (Nat.le_of_not_lt hal)]

theorem mapDown_status (h : mapDown keep page frame flags level al ls cur s = .ok (r, t)) :
    r.st ∈ [Status.ok, .contractViolation, .frameAllocationFailed, .parentEntryHugePage, .pageAlreadyMapped] := by
  induction ls generalizing cur s t with
  | nil => obtain ⟨e, _, ⟨_, rfl, _⟩ | ⟨_, _, rfl, _⟩ | ⟨_, _, rfl, _⟩⟩ := mapTarget_ok h <;> simp
  | cons l ls ih =>
    obtain ⟨e, _, _, ⟨hst, _⟩ | ⟨_, hd⟩ | ⟨_, f, fs, u, _, _, hd, _⟩⟩ := mapDown_cons_cases h
    · rcases List.mem_pair.1 hst with hst | hst <;> simp [hst]
    · exact ih hd
    · exact ih hd

/-! ### A table that leads nowhere else (R143, R149) -/

/-- Every pointer of the table at `f` on the path of `page` leads back to that table. A newly grown table is one: its
entries are 0, but for the one that points to it where the tree grew from the same frame. -/
def LeadsToItself (m : Memory) (page f : Word) : Prop :=
  ∀ l, isPointer (memRead8 m (slotAddr f page l).toNat) = true → pteAddr (memRead8 m (slotAddr f page l).toNat) = f

theorem slots_eq_or_disjoint {f g : Word} (hf : frameOk f = true) (hg : frameOk g = true) (page : Word) (k l : Level) :
    (slotAddr f page k).toNat = (slotAddr g page l).toNat ∨
      (slotAddr f page k).toNat + 8 ≤ (slotAddr g page l).toNat ∨
      (slotAddr g page l).toNat + 8 ≤ (slotAddr f page k).toNat := by
  obtain ⟨_, _, hfmod⟩ := slotAddr_bounds hf page k
  obtain ⟨_, _, hgmod⟩ := slotAddr_bounds hg page l
  omega

theorem grown_leadsToItself {fs : List Word} {f : Word} (hf : frameOk f = true) (hcur : frameOk cur = true) :
    LeadsToItself (s.grown al fs f (slotAddr cur page l)).mem page f := by
  intro k hp
  rw [grown_mem] at hp ⊢
  rcases slots_eq_or_disjoint hf hcur page k l with heq | hdisj
  · rw [heq, memRead8_memWrite8, pteAddr_pteWord _ hf]
  · obtain ⟨hlow, hhigh, _⟩ := slotAddr_bounds hf page k
    rw [memRead8_memWrite8_of_disjoint _ _ hdisj, memRead8_memZeroTable _ hlow hhigh] at hp
    simp [isPointer] at hp

section
variable {p : Platform} {m : Memory} {f : Word}

theorem readsFrom_of_leadsToItself (h : LeadsToItself m page f) (ls : List Level) {slot : Nat}
    (hslot : slot ∈ readsFrom p m page ls f) : ∃ l, slot = (slotAddr f page l).toNat := by
  induction ls with
  | nil => simp [readsFrom] at hslot
  | cons l ls ih =>
    rw [readsFrom] at hslot
    cases hr : readEntry p m (slotAddr f page l) with
    | none => simp [hr] at hslot
    | some e =>
      obtain ⟨_, he⟩ := readEntry_some hr
      simp only [hr, List.mem_cons] at hslot
      rcases hslot with heq | hrest
      · exact ⟨l, heq⟩
      · split at hrest
        · next hp => exact ih (by rwa [← he, h l (he ▸ hp)] at hrest)
        · simp at hrest

theorem tablesFrom_of_leadsToItself (h : LeadsToItself m page f) (ls : List Level) {g : Word}
    (hg : g ∈ tablesFrom p m page ls f) : g = f := by
  induction ls with
  | nil => simp [tablesFrom] at hg
  | cons l ls ih =>
    rw [tablesFrom] at hg
    cases hr : readEntry p m (slotAddr f page l) with
    | none => simpa [hr] using hg
    | some e =>
      obtain ⟨_, he⟩ := readEntry_some hr
      simp only [hr, List.mem_cons] at hg
      rcases hg with heq | hrest
      · exact heq
      · split at hrest
        · next hp => exact ih (by rwa [← he, h l (he ▸ hp)] at hrest)
        · simp at hrest

end

/-! ### The bytes that a call leaves (R184, R186) -/

section
variable {p : Platform} {m : Memory} {e : Word}

theorem readsFrom_cons (ha : allPopulated p (slotAddr cur page l).toNat 8 = true)
    (he : memRead8 m (slotAddr cur page l).toNat = e) :
    readsFrom p m page (l :: ls) cur =
      (slotAddr cur page l).toNat :: if isPointer e then readsFrom p m page ls (pteAddr e) else [] := by
  rw [readsFrom, readEntry_of_populated (allPopulated_byte (k := 0) ha (by decide)), he]

theorem tablesFrom_cons (ha : allPopulated p (slotAddr cur page l).toNat 8 = true)
    (he : memRead8 m (slotAddr cur page l).toNat = e) :
    tablesFrom p m page (l :: ls) cur = cur :: if isPointer e then tablesFrom p m page ls (pteAddr e) else [] := by
  rw [tablesFrom, readEntry_of_populated (allPopulated_byte (k := 0) ha (by decide)), he]

end

theorem memByte_grown {fs : List Word} {f slot : Word} {x : Nat} (hslot : x < slot.toNat ∨ slot.toNat + 8 ≤ x)
    (hf : x < f.toNat ∨ f.toNat + 4096 ≤ x) : memByte (s.grown al fs f slot).mem x = memByte s.mem x := by
  rw [grown_mem, memByte_memWrite8_of_disjoint _ _ hslot, memByte_memZeroTable, if_neg (by omega)]

theorem mapTarget_memByte {x : Nat} (h : mapTarget page frame flags level cur s = .ok (r, t))
    (hslot : x < (slotAddr cur page level).toNat ∨ (slotAddr cur page level).toNat + 8 ≤ x) :
    memByte t.mem x = memByte s.mem x := by
  obtain ⟨e, _, ⟨_, _, rfl⟩ | ⟨_, _, _, rfl⟩ | ⟨_, _, _, hs⟩⟩ := mapTarget_ok h
  · rfl
  · rfl
  · obtain ⟨_, _, rfl⟩ := hostStore_ok.1 hs
    exact memByte_memWrite8_of_disjoint s.mem _ hslot

/-- A descent leaves every byte that is in no entry it can reach and in no frame it can be given. In a grown table it
stays in that table (`grown_leadsToItself`). -/
theorem mapDown_memByte {x : Nat} (hcur : frameOk cur = true)
    (h : mapDown keep page frame flags level al ls cur s = .ok (r, t))
    (hslots : ∀ slot ∈ readsFrom s.platform s.mem page (ls ++ [level]) cur, x < slot ∨ slot + 8 ≤ x)
    (hframes : ∀ f ∈ (s.allocator al).take ls.length, x < f.toNat ∨ f.toNat + 4096 ≤ x) :
    memByte t.mem x = memByte s.mem x := by
  induction ls generalizing cur s t with
  | nil =>
    obtain ⟨e, hl, _⟩ := mapTarget_ok h
    obtain ⟨ha, _, he⟩ := hostLoad_ok.1 hl
    exact mapTarget_memByte h (hslots _ (by rw [List.nil_append, readsFrom_cons ha he]; exact List.mem_cons_self))
  | cons l ls ih =>
    obtain ⟨e, ha, he, hcases⟩ := mapDown_cons_cases h
    rw [List.cons_append, readsFrom_cons ha he, List.forall_mem_cons] at hslots
    obtain ⟨hslot, hrest⟩ := hslots
    obtain ⟨_, rfl⟩ | ⟨hp, hd⟩ | ⟨_, f, fs, u, hal, hf, hd, ht⟩ := hcases
    · rfl
    · rw [if_pos hp] at hrest
      refine ih (frameOk_pteAddr e) hd hrest fun f hf => hframes f ?_
      exact (List.take_subset_take_left _ (Nat.le_succ _)) hf
    · rw [hal, List.length_cons, List.take_succ_cons, List.forall_mem_cons] at hframes
      obtain ⟨houtside, hframes⟩ := hframes
      have hsub : memByte u.mem x = memByte s.mem x := by
        rw [← memByte_grown (s := s) (al := al) (fs := fs) hslot houtside]
        refine ih hf hd (fun slot hs => ?_) (by rwa [grown_allocator s al fs f _ hal])
        obtain ⟨k, rfl⟩ := readsFrom_of_leadsToItself (grown_leadsToItself hf hcur) _ hs
        obtain ⟨hlow, hhigh, _⟩ := slotAddr_bounds hf page k
        omega
      obtain rfl | ⟨_, rfl⟩ := ht
      · exact hsub
      · rw [undoGrow_mem, memByte_memWrite8_of_disjoint _ _ hslot, hsub]

end

/-- Settles O54: the frame of a call, its statuses and the bytes it leaves, each by induction on the descent. -/
theorem mapTouchesMemoryAndAllocatorOnly : Obligations.MapTouchesMemoryAndAllocatorOnly := by
  intro keep root page frame flags level al s t r h
  obtain ⟨_, hroot, hd⟩ := mapCall_ok h
  obtain ⟨fs, hfs⟩ := mapDown_allocs hd
  refine ⟨?_, mapDown_status hd, fun x => mapDown_memByte hroot hd⟩
  rw [← allocs_eq_set_allocator hfs]
  exact mapDown_frame hd

/-! ### Valid entries stay (R186) -/

section
variable {keep : Bool} {page frame cur : Word} {flags : FlagByte} {level l : Level} {ls : List Level} {al : Nat}
  {s t : State} {r : Response}

/-- An aligned valid word is not in a slot that holds an invalid one. -/
theorem disjoint_of_valid {m : Memory} {e : Word} {a : Nat} (hcur : frameOk cur = true) (ha : a % 8 = 0)
    (hv : isValid (memRead8 m a) = true) (he : memRead8 m (slotAddr cur page l).toNat = e) (hinv : isValid e = false) :
    a + 8 ≤ (slotAddr cur page l).toNat ∨ (slotAddr cur page l).toNat + 8 ≤ a := by
  have hne : a ≠ (slotAddr cur page l).toNat := by
    rintro rfl
    simp [he, hinv] at hv
  obtain ⟨_, _, hmod⟩ := slotAddr_bounds hcur page l
  omega

/-- A descent overwrites no valid word on an 8-byte boundary outside the frames it can be given. -/
theorem mapDown_keeps_valid {a : Nat} (hcur : frameOk cur = true)
    (h : mapDown keep page frame flags level al ls cur s = .ok (r, t)) (ha : a % 8 = 0)
    (hframes : ∀ f ∈ (s.allocator al).take ls.length, frameOk f = true →
      a + 8 ≤ f.toNat ∨ f.toNat + 4096 ≤ a)
    (hv : isValid (memRead8 s.mem a) = true) : memRead8 t.mem a = memRead8 s.mem a := by
  induction ls generalizing cur s t with
  | nil =>
    obtain ⟨e, hl, ⟨_, _, rfl⟩ | ⟨_, _, _, rfl⟩ | ⟨hinv, _, _, hs⟩⟩ := mapTarget_ok h
    · rfl
    · rfl
    · obtain ⟨_, _, he⟩ := hostLoad_ok.1 hl
      obtain ⟨_, _, rfl⟩ := hostStore_ok.1 hs
      exact memRead8_memWrite8_of_disjoint s.mem _ (disjoint_of_valid hcur ha hv he hinv)
  | cons l ls ih =>
    obtain ⟨e, _, he, ⟨_, rfl⟩ | ⟨_, hd⟩ | ⟨hinv, f, fs, u, hal, hf, hd, ht⟩⟩ := mapDown_cons_cases h
    · rfl
    · refine ih (frameOk_pteAddr e) hd (fun f hf => hframes f ?_) hv
      exact (List.take_subset_take_left _ (Nat.le_succ _)) hf
    · rw [hal, List.length_cons, List.take_succ_cons, List.forall_mem_cons] at hframes
      obtain ⟨houtside, hframes⟩ := hframes
      have hslot := disjoint_of_valid hcur ha hv he hinv
      have hgrown : memRead8 (s.grown al fs f (slotAddr cur page l)).mem a = memRead8 s.mem a := by
        rw [grown_mem, memRead8_memWrite8_of_disjoint _ _ hslot, memRead8_memZeroTable_of_disjoint _ (houtside hf)]
      have hsub : memRead8 u.mem a = memRead8 s.mem a := by
        rw [← hgrown] at hv ⊢
        exact ih hf hd (by rwa [grown_allocator s al fs f _ hal]) hv
      obtain rfl | ⟨_, rfl⟩ := ht
      · exact hsub
      · rw [undoGrow_mem, memRead8_memWrite8_of_disjoint _ _ hslot, hsub]

end

/-- Settles O59: by induction on the descent, which stores to invalid slots and to the frames it is given only. -/
theorem mapOverwritesNoValidEntry : Obligations.MapOverwritesNoValidEntry := by
  intro keep root page frame flags level al s t r a h ha hframes hv
  obtain ⟨_, hroot, hd⟩ := mapCall_ok h
  exact mapDown_keeps_valid hroot hd ha (fun f hf _ => hframes f hf) hv

/-! ### A call that ends `OK` leaves its entry at the end of the path (R183, R186) -/

/-- From the table at a frame, pointers lead down the levels of a list to the table whose slot at `level` holds `w`;
each slot on the way, and the last, is memory whole. -/
def State.LeadsTo (s : State) (page : Word) (level : Level) (w : Word) : List Level → Word → Prop
  | [], cur => allPopulated s.platform (slotAddr cur page level).toNat 8 = true ∧
      memRead8 s.mem (slotAddr cur page level).toNat = w
  | l :: ls, cur => ∃ e, allPopulated s.platform (slotAddr cur page l).toNat 8 = true ∧
      memRead8 s.mem (slotAddr cur page l).toNat = e ∧ isPointer e = true ∧ s.LeadsTo page level w ls (pteAddr e)

/-- `freshFrames` for a descent that starts at the table `cur`: the allocator gives out no frame twice and none that is
a table on the path of `page` from there (R182). -/
def State.FreshFrom (s : State) (al : Nat) (page : Word) (ls : List Level) (cur : Word) : Prop :=
  (s.allocator al).Nodup ∧ ∀ f ∈ s.allocator al, f ∉ tablesFrom s.platform s.mem page ls cur

section
variable {page cur e f : Word} {level l : Level} {ls : List Level} {al : Nat} {s : State}

theorem freshFrames_iff {root : Word} : s.freshFrames al root page ↔ s.FreshFrom al page [.l2, .l1, .l0] root :=
  Iff.rfl

theorem State.FreshFrom.not_mem (h : s.FreshFrom al page (l :: ls) cur) : cur ∉ s.allocator al := by
  obtain ⟨_, htables⟩ := h
  exact fun hmem => htables cur hmem (by rw [tablesFrom]; exact List.mem_cons_self)

theorem State.FreshFrom.of_pointer (h : s.FreshFrom al page (l :: ls) cur)
    (ha : allPopulated s.platform (slotAddr cur page l).toNat 8 = true)
    (he : memRead8 s.mem (slotAddr cur page l).toNat = e) (hp : isPointer e = true) :
    s.FreshFrom al page ls (pteAddr e) := by
  obtain ⟨hnodup, htables⟩ := h
  rw [tablesFrom_cons ha he, if_pos hp] at htables
  exact ⟨hnodup, fun f hf hmem => htables f hf (List.mem_cons_of_mem _ hmem)⟩

/-- The rest of the allocator is fresh below the table that was grown from its first frame. -/
theorem State.FreshFrom.grown {fs : List Word} (h : s.FreshFrom al page (l :: ls) cur) (hcur : frameOk cur = true)
    (hf : frameOk f = true) (hal : s.allocator al = f :: fs) :
    (s.grown al fs f (slotAddr cur page l)).FreshFrom al page ls f := by
  obtain ⟨hnodup, _⟩ := h
  rw [hal, List.nodup_cons] at hnodup
  obtain ⟨hnotmem, hnodup⟩ := hnodup
  rw [State.FreshFrom, grown_allocator s al fs f _ hal]
  refine ⟨hnodup, fun g hg hmem => hnotmem ?_⟩
  rwa [← tablesFrom_of_leadsToItself (grown_leadsToItself hf hcur) ls hmem]

end

section
variable {keep : Bool} {page frame cur nxt e w : Word} {flags : FlagByte} {level l : Level} {ls : List Level} {al : Nat}
  {s t : State} {v : Word} {r : Response}

/-- A descent from the table below keeps the pointer to that table, if the table that holds it is none of its frames. -/
theorem mapDown_keeps_pointer (h : mapDown keep page frame flags level al ls nxt s = .ok (r, t))
    (hcur : frameOk cur = true) (hnxt : frameOk nxt = true) (hfresh : cur ∉ s.allocator al)
    (he : memRead8 s.mem (slotAddr cur page l).toNat = e) (hp : isPointer e = true) :
    memRead8 t.mem (slotAddr cur page l).toNat = e := by
  obtain ⟨hlow, hhigh, hmod⟩ := slotAddr_bounds hcur page l
  rw [isPointer, Bool.and_eq_true] at hp
  obtain ⟨hv, _⟩ := hp
  rw [← he] at hv ⊢
  refine mapDown_keeps_valid hnxt h hmod (fun f hf hok => ?_) hv
  have hne : cur ≠ f := by
    rintro rfl
    exact hfresh (List.mem_of_mem_take hf)
  have := frames_disjoint hcur hok hne
  omega

theorem mapDown_platform (h : mapDown keep page frame flags level al ls cur s = .ok (r, t)) :
    t.platform = s.platform := by
  rw [mapDown_frame h]

/-- After a descent that ends `OK` with an allocator of fresh frames, pointers lead to the entry it was to write. -/
theorem leadsTo_of_mapDown_ok {below : List Level} (hcur : frameOk cur = true)
    (hfresh : s.FreshFrom al page (ls ++ level :: below) cur)
    (h : mapDown keep page frame flags level al ls cur s = .ok (⟨.ok, v⟩, t)) :
    frameOk frame = true ∧ t.LeadsTo page level (pteWord frame flags) ls cur := by
  induction ls generalizing cur s t with
  | nil =>
    obtain ⟨e, _, ⟨_, hr, _⟩ | ⟨_, _, hr, _⟩ | ⟨_, hframe, _, hs⟩⟩ := mapTarget_ok h
    · cases hr
    · cases hr
    · obtain ⟨ha, _, rfl⟩ := hostStore_ok.1 hs
      exact ⟨hframe, ha, memRead8_memWrite8 s.mem _ _⟩
  | cons l ls ih =>
    have hnotmem := hfresh.not_mem
    obtain ⟨e, ha, he, ⟨hst, _⟩ | ⟨hp, hd⟩ | ⟨_, f, fs, u, hal, hf, hd, ht⟩⟩ := mapDown_cons_cases h
    · simp at hst
    · have hnxt := frameOk_pteAddr e
      obtain ⟨hframe, hleads⟩ := ih hnxt (hfresh.of_pointer ha he hp) hd
      exact ⟨hframe, e, mapDown_platform hd ▸ ha, mapDown_keeps_pointer hd hcur hnxt hnotmem he hp, hp, hleads⟩
    · obtain rfl : t = u := ht.resolve_right fun hundo => hundo.1 rfl
      obtain ⟨hframe, hleads⟩ := ih hf (hfresh.grown hcur hf hal) hd
      have hnotmem' : cur ∉ (s.grown al fs f (slotAddr cur page l)).allocator al := by
        rw [grown_allocator s al fs f _ hal]
        rw [hal] at hnotmem
        exact fun hmem => hnotmem (List.mem_cons_of_mem _ hmem)
      have hpointer : isPointer (pteWord f 1#8) = true := by simp [isPointer]
      have hread := mapDown_keeps_pointer (l := l) hd hcur hf hnotmem' (memRead8_memWrite8 _ _ _) hpointer
      refine ⟨hframe, pteWord f 1#8, mapDown_platform hd ▸ ha, hread, hpointer, ?_⟩
      rwa [pteAddr_pteWord _ hf]

/-- The walk follows the pointers to a leaf (R143). -/
theorem walkFrom_of_leadsTo {below : List Level} (h : s.LeadsTo page level w ls cur) (hw : isLeaf w = true) :
    walkFrom s.platform s.mem page (ls ++ level :: below) cur = .leaf level w := by
  induction ls generalizing cur with
  | nil =>
    obtain ⟨ha, rfl⟩ := h
    exact walkFrom_leaf (readEntry_of_populated (allPopulated_byte (k := 0) ha (by decide))) hw
  | cons l ls ih =>
    obtain ⟨e, ha, rfl, hp, hrest⟩ := h
    rw [List.cons_append, walkFrom_pointer (readEntry_of_populated (allPopulated_byte (k := 0) ha (by decide))) hp]
    exact ih hrest

/-- With memory at the slot, a load answers its word, or faults with paging on. -/
theorem hostLoad_cases {slot : Word} (ha : allPopulated s.platform slot.toNat 8 = true)
    (he : memRead8 s.mem slot.toNat = e) :
    hostLoad s slot = .ok e ∨ ∃ x, hostLoad s slot = .error x ∧ pcrMode s.pcr = 8#4 := by
  cases hl : hostLoad s slot with
  | ok e' =>
    obtain ⟨_, _, he'⟩ := hostLoad_ok.1 hl
    exact .inl (by rw [← he, he'])
  | error x =>
    refine .inr ⟨x, rfl, by_contra fun hoff => ?_⟩
    rw [hostLoad_of_off ha hoff] at hl
    cases hl

/-- Another descent to a valid entry answers its frame and changes nothing, or faults with paging on (log 14). -/
theorem mapDown_of_leadsTo (h : s.LeadsTo page level w ls cur) (hw : isValid w = true) :
    mapDown keep page frame flags level al ls cur s = .ok (⟨.pageAlreadyMapped, pteAddr w⟩, s) ∨
      ∃ x, mapDown keep page frame flags level al ls cur s = .error x ∧ pcrMode s.pcr = 8#4 := by
  induction ls generalizing cur with
  | nil =>
    obtain ⟨ha, he⟩ := h
    obtain hl | ⟨x, hl, hon⟩ := hostLoad_cases ha he
    · exact .inl (mapTarget_of_valid hl hw)
    · exact .inr ⟨x, mapTarget_of_fault hl, hon⟩
  | cons l ls ih =>
    obtain ⟨e, ha, he, hp, hrest⟩ := h
    obtain hl | ⟨x, hl, hon⟩ := hostLoad_cases ha he
    · rw [mapDown_of_pointer hl hp]
      exact ih hrest
    · exact .inr ⟨x, mapDown_of_fault hl, hon⟩

end

/-- The levels above a target, the target, and the levels below it are the levels of a walk (R143). -/
theorem levelsAbove_append (level : Level) : ∃ below, levelsAbove level ++ level :: below = [.l2, .l1, .l0] := by
  cases level <;> exact ⟨_, rfl⟩

/-- `leadsTo_of_mapDown_ok` for a whole call. -/
theorem leadsTo_of_mapCall_ok {keep : Bool} {root page frame v : Word} {flags : FlagByte} {level : Level} {al : Nat}
    {s t : State} (hfresh : s.freshFrames al root page)
    (h : mapCall keep root page frame flags level al s = .ok (⟨.ok, v⟩, t)) :
    frameOk frame = true ∧ t.LeadsTo page level (pteWord frame flags) (levelsAbove level) root := by
  obtain ⟨_, hroot, hd⟩ := mapCall_ok h
  obtain ⟨below, hlevels⟩ := levelsAbove_append level
  rw [freshFrames_iff, ← hlevels] at hfresh
  exact leadsTo_of_mapDown_ok hroot hfresh hd

/-- Settles O55: the pointers that the call leaves lead the walk to the entry written. -/
theorem mapThenWalkFindsTheLeaf : Obligations.MapThenWalkFindsTheLeaf := by
  intro keep root page frame v flags level al s t hfresh hleaf h
  obtain ⟨hframe, hleads⟩ := leadsTo_of_mapCall_ok hfresh h
  obtain ⟨below, hlevels⟩ := levelsAbove_append level
  refine ⟨?_, pteAddr_pteWord flags hframe⟩
  rw [walk, ← hlevels]
  exact walkFrom_of_leadsTo hleads (by rwa [isLeaf_pteWord])

/-- Settles O56: the same pointers lead the second call to the entry, which it finds valid. -/
theorem mapTwiceReportsTheFirstFrame : Obligations.MapTwiceReportsTheFirstFrame := by
  intro keep keep' root page frame frame' v flags flags' level al al' s t hfresh hvalid h
  obtain ⟨hm, hroot, _⟩ := mapCall_ok h
  obtain ⟨hframe, hleads⟩ := leadsTo_of_mapCall_ok hfresh h
  have hmasked : t.intMasked = true := by rw [mapCall_frame h]; exact hm
  have hpcr : t.pcr = s.pcr := by rw [mapCall_frame h]
  have hagain := mapDown_of_leadsTo (keep := keep') (frame := frame') (flags := flags') (al := al') hleads
    (by rwa [isValid_pteWord])
  rw [mapCall_of_masked hmasked hroot, ← hpcr]
  rw [pteAddr_pteWord flags hframe] at hagain
  obtain heq | ⟨x, hfault, hon⟩ := hagain
  · rw [heq]
    exact ⟨fun q hq => (Except.ok.inj hq).symm, fun _ => rfl⟩
  · rw [hfault]
    exact ⟨fun _ hq => (nomatch hq), fun hoff => absurd hon hoff⟩

/-! ### The steps of `BOOT` (R188 to R190) -/

/-- A device region of at most one page takes one mapping (R188; log 18). -/
theorem devMaps_of_one_page {p : Platform} (h : p.devSize ≤ 2 ^ p.devLevel.shift) :
    devMaps p = [.bootMap p.devBase p.devFlags p.devLevel] := by
  have hle : (p.devSize + 2 ^ p.devLevel.shift - 1) / 2 ^ p.devLevel.shift ≤ 1 := by
    rw [← Nat.lt_succ_iff, Nat.div_lt_iff_lt_mul (Nat.two_pow_pos _)]
    have := Nat.two_pow_pos p.devLevel.shift
    omega
  have hpages : devPages p = 1 := Nat.max_eq_left hle
  rw [devMaps, hpages]
  simp

section
variable {s t u : State} {page : Word} {flags : FlagByte} {level : Level} {rest : List HostAction} {r : Response}

/-- The step of a first `BOOT` lines up its parts. -/
theorem step_boot (hh : s.halted = false) (hp : s.program = .boot :: rest) (hb : s.booted = false) :
    step s = .next { s with booted := true, program := bootScript s.platform ++ rest } := by
  rw [step_action hh hp]
  simp only [runAction, boot, hb, Bool.false_eq_true, if_false, ofHost]

theorem step_boot_again (hh : s.halted = false) (hp : s.program = .boot :: rest) (hb : s.booted = true) :
    step s = .fault .secondBoot := by
  rw [step_action hh hp]
  simp only [runAction, boot, hb, if_true, ofHost]

theorem step_of_halted (h : s.halted = true) : step s = .fault .hostHalted := by
  simp only [step, hostTurn, h, if_true]

theorem runMap_of_mapCall {root frame : Word} {al : Nat}
    (h : mapCall (Config.keepsOrphans s.draws) root page frame flags level al s = .ok (r, u)) :
    runMap root page frame flags level al s = .ok { u with hostResp := some r, draws := s.draws + 1 } := by
  simp only [runMap, h]

/-- A mapping of step 2 keeps its outcome; the host goes on exactly where that is `OK` (R189). -/
theorem bootMap_of_mapCall
    (h : mapCall (Config.keepsOrphans s.draws) s.platform.root page page flags level 0 s = .ok (r, u)) :
    bootMap page flags level s = .ok { u with
      hostResp := some r, draws := s.draws + 1, halted := if r = ⟨.ok, 0#64⟩ then u.halted else true } := by
  simp only [bootMap, runMap_of_mapCall h, Option.some_beq_some, beq_iff_eq]
  split <;> rfl

/-- The step of a mapping of step 2. -/
theorem step_bootMap (hh : s.halted = false) (hp : s.program = .bootMap page flags level :: rest)
    (h : mapCall (Config.keepsOrphans s.draws) s.platform.root page page flags level 0 { s with program := rest } =
      .ok (r, u)) :
    step s = .next { u with
      hostResp := some r, draws := s.draws + 1, halted := if r = ⟨.ok, 0#64⟩ then u.halted else true } := by
  rw [step_action hh hp]
  exact ofHost_next.2 (bootMap_of_mapCall h)

end

/-- Settles O57: the script of a platform with one device page, and what each stop leaves. -/
theorem bootOrderAndFailure : Obligations.BootOrderAndFailure := by
  refine ⟨fun s rest hh hp => ⟨fun hb hsize => ?_, step_boot_again hh hp⟩,
    fun s u page flags level rest r hh hp h hr => ?_⟩
  · rw [step_boot hh hp hb, bootScript, devMaps_of_one_page hsize]
    rfl
  · have hne : r ≠ ⟨.ok, 0#64⟩ := by
      rintro rfl
      exact hr rfl
    exact ⟨_, step_bootMap hh hp h, if_neg hne, rfl, step_of_halted (if_neg hne)⟩

/-! ### A whole bootstrap (R188, R244) -/

section
variable {s : State} {page : Word} {flags : FlagByte} {rest : List HostAction}

/-- A level-2 mapping of step 2 with paging off, where the slot of the root table is invalid: it stores the leaf. -/
theorem step_bootMap_l2 (hh : s.halted = false) (hp : s.program = .bootMap page flags .l2 :: rest)
    (hm : s.intMasked = true) (hoff : pcrMode s.pcr ≠ 8#4) (hroot : frameOk s.platform.root = true)
    (ha : allPopulated s.platform s.platform.root.toNat 4096 = true) (hpage : frameOk page = true)
    (hinv : isValid (memRead8 s.mem (slotAddr s.platform.root page .l2).toNat) = false) :
    step s = .next { s with
      program := rest
      mem := memWrite8 s.mem (slotAddr s.platform.root page .l2).toNat (pteWord page flags)
      hostResp := some ⟨.ok, 0#64⟩
      draws := s.draws + 1 } := by
  obtain ⟨hlow, hhigh, _⟩ := slotAddr_bounds hroot page .l2
  have haslot := allPopulated_sub ha hlow hhigh
  have htarget := mapTarget_of_invalid (s := { s with program := rest }) (flags := flags)
    (hostLoad_of_off haslot hoff) hinv hpage (hostStore_of_off _ haslot hoff)
  rw [step_bootMap hh hp ((mapCall_of_masked (s := { s with program := rest }) hm hroot).trans htarget), if_pos rfl]

/-- The step of a well-formed command (R60). -/
theorem step_encode {i : Instr} (hh : s.halted = false) (hp : s.program = .command (encode i) :: rest)
    (hi : WellFormed i = true) : step s = exec i { s with program := rest } :=
  stepRunsTheDecodedOperation s (encode i) rest i hh hp (decodeEncodeRoundTrip i hi)

theorem step_pcrSet {v : Word} (hh : s.halted = false) (hp : s.program = .command (encode (.pcrSet v)) :: rest)
    (hlegal : modeLegal (pcrMode v) = true) :
    step s = .next { s with program := rest, pcr := v, resp := some ⟨.ok, 0#64⟩ } :=
  (step_encode hh hp rfl).trans (exec_pcrSet_of_legal _ hlegal)

theorem step_tlbFlush (hh : s.halted = false) (hp : s.program = .command (encode .tlbFlush) :: rest) :
    step s = .next { s with program := rest, tlb := [], resp := some ⟨.ok, 0#64⟩ } :=
  step_encode hh hp rfl

end

/-! ### The register value of step 3 (R24, R188) -/

theorem pcrWord_toNat (mode : BitVec 4) (asid : BitVec 16) (ppn : BitVec 44) :
    (pcrWord mode asid ppn).toNat = mode.toNat * 2 ^ 60 + asid.toNat * 2 ^ 44 + ppn.toNat := by
  simp only [pcrWord, toNat_append_eq_add]
  omega

theorem pcrMode_bootPcr (p : Platform) : pcrMode (bootPcr p) = 8#4 := by
  have hppn := ((p.root >>> 12).setWidth 44).isLt
  have hasid := p.bootAsid.isLt
  refine BitVec.eq_of_toNat_eq ?_
  rw [pcrMode_toNat, bootPcr, pcrWord_toNat, show Config.modeSv39.toNat = 8 from rfl, show (8#4).toNat = 8 from rfl]
  omega

theorem rootFrame_bootPcr {p : Platform} (h : frameOk p.root = true) : rootFrame (bootPcr p) = p.root := by
  obtain ⟨halign, hlt⟩ := (frameOk_iff _).1 h
  have hppn : ((p.root >>> 12).setWidth 44).toNat = p.root.toNat / 4096 := by
    rw [BitVec.toNat_setWidth, BitVec.toNat_ushiftRight, Nat.shiftRight_eq_div_pow]
    omega
  refine BitVec.eq_of_toNat_eq ?_
  rw [rootFrame_toNat, bootPcr, pcrWord_toNat, hppn]
  omega

/-- The slot of RAM in the root table (R188). -/
def ramSlot (p : Platform) : Nat := (slotAddr p.root Config.ramBase .l2).toNat

/-- The slot of a device region of one level-2 page in the root table (R188). -/
def devSlot (p : Platform) : Nat := (slotAddr p.root p.devBase .l2).toNat

/-- Memory after the mappings of a bootstrap whose device region is one level-2 page: the root table is zeroed and holds
the two leaves. -/
def bootMem (p : Platform) (m : Memory) : Memory :=
  memWrite8 (memWrite8 (memZeroTable m p.root.toNat) (ramSlot p) (pteWord Config.ramBase p.ramFlags))
    (devSlot p) (pteWord p.devBase p.devFlags)

/-- The state after such a bootstrap. -/
def State.afterBoot (s : State) (rest : List HostAction) : State :=
  { s with
    pcr := bootPcr s.platform
    tlb := []
    mem := bootMem s.platform s.mem
    resp := some ⟨.ok, 0#64⟩
    program := rest
    booted := true
    hostResp := some ⟨.ok, 0#64⟩
    draws := s.draws + 2 }

/-- The RAM slot and a device slot of another index share no byte. -/
theorem ramSlot_devSlot_disjoint {p : Platform} (hroot : frameOk p.root = true)
    (hne : p.devBase.toNat / 2 ^ 30 % 512 ≠ 2) : ramSlot p + 8 ≤ devSlot p ∨ devSlot p + 8 ≤ ramSlot p := by
  have hram : ramSlot p = p.root.toNat + 8 * 2 := slotAddr_toNat_eq hroot Config.ramBase .l2
  have hdev : devSlot p = p.root.toNat + 8 * (p.devBase.toNat / 2 ^ 30 % 512) := slotAddr_toNat_eq hroot p.devBase .l2
  omega

theorem memRead8_bootMem_ramSlot {p : Platform} (m : Memory) (hroot : frameOk p.root = true)
    (hne : p.devBase.toNat / 2 ^ 30 % 512 ≠ 2) :
    memRead8 (bootMem p m) (ramSlot p) = pteWord Config.ramBase p.ramFlags := by
  rw [bootMem, memRead8_memWrite8_of_disjoint _ _ (ramSlot_devSlot_disjoint hroot hne), memRead8_memWrite8]

theorem frameOk_ramBase : frameOk Config.ramBase = true := by decide

/-- A run goes on from the state that a step answers. -/
theorem core_run_of_step {k : Nat} {s t : State} {o : Host.Outcome State Fault Refusal} (h : step s = .next t)
    (hrun : Sys2Proof.core.run k t = o) : Sys2Proof.core.run (k + 1) s = o := by
  have hcore : Sys2Proof.core.step s = .next t := h
  simp only [Host.Core.run, hcore]
  exact hrun

/-- The six steps of `BOOT`. -/
theorem run_boot {s : State} {rest : List HostAction} (hh : s.halted = false) (hb : s.booted = false)
    (hm : s.intMasked = true) (hoff : pcrMode s.pcr ≠ 8#4) (hp : s.program = .boot :: rest)
    (hroot : frameOk s.platform.root = true) (ha : allPopulated s.platform s.platform.root.toNat 4096 = true)
    (hlevel : s.platform.devLevel = .l2) (hsize : s.platform.devSize ≤ 2 ^ 30)
    (hdev : frameOk s.platform.devBase = true) (hne : s.platform.devBase.toNat / 2 ^ 30 % 512 ≠ 2) :
    Sys2Proof.core.run 6 s = .next (s.afterBoot rest) := by
  have hscript : bootScript s.platform ++ rest = .ptZero s.platform.root ::
      .bootMap Config.ramBase s.platform.ramFlags .l2 :: .bootMap s.platform.devBase s.platform.devFlags .l2 ::
      .command (encode (.pcrSet (bootPcr s.platform))) :: .command (encode .tlbFlush) :: rest := by
    rw [bootScript, devMaps_of_one_page (by rwa [hlevel]), hlevel]
    rfl
  have hzero (page : Word) :
      memRead8 (memZeroTable s.mem s.platform.root.toNat) (slotAddr s.platform.root page .l2).toNat = 0#64 := by
    obtain ⟨hlow, hhigh, _⟩ := slotAddr_bounds hroot page .l2
    exact memRead8_memZeroTable s.mem hlow hhigh
  have hram := hzero Config.ramBase
  have hdevSlot : memRead8 (memWrite8 (memZeroTable s.mem s.platform.root.toNat) (ramSlot s.platform)
      (pteWord Config.ramBase s.platform.ramFlags)) (devSlot s.platform) = 0#64 := by
    rw [memRead8_memWrite8_of_disjoint _ _ (ramSlot_devSlot_disjoint hroot hne).symm]
    exact hzero s.platform.devBase
  have hinvalid {e : Word} (he : e = 0#64) : isValid e = false := he ▸ isValid_zero
  have hlegal : modeLegal (pcrMode (bootPcr s.platform)) = true := by
    rw [pcrMode_bootPcr]
    rfl
  have hboot := step_boot hh hp hb
  rw [hscript] at hboot
  refine core_run_of_step hboot ?_
  refine core_run_of_step (step_ptZero hh rfl hroot ha hoff) ?_
  refine core_run_of_step (step_bootMap_l2 hh rfl hm hoff hroot ha frameOk_ramBase (hinvalid hram)) ?_
  refine core_run_of_step (step_bootMap_l2 hh rfl hm hoff hroot ha hdev (hinvalid hdevSlot)) ?_
  refine core_run_of_step (step_pcrSet hh rfl hlegal) ?_
  exact core_run_of_step (step_tlbFlush hh rfl) rfl

/-- Settles O58: after the six steps the walk from the root ends at RAM's leaf, and the cache is empty. -/
theorem bootThenXlateIsTheIdentityOnRam : Obligations.BootThenXlateIsTheIdentityOnRam := by
  intro s rest hh hb hm hoff hp hroot ha hleaf hlevel hsize hdev hne
  refine ⟨_, run_boot hh hb hm hoff hp hroot ha hlevel hsize hdev hne, rfl, rfl, rfl, fun va hlow hhigh => ?_⟩
  have hindex : va.toNat / 2 ^ 30 % 512 = 2 := by omega
  have hslot : (bootPcr s.platform).toNat % 2 ^ 44 * 4096 + 8 * (va.toNat / 2 ^ 30 % 512) = ramSlot s.platform := by
    rw [← rootFrame_toNat, rootFrame_bootPcr hroot, hindex]
    exact (slotAddr_toNat_eq hroot Config.ramBase .l2).symm
  have hcanon : canon va = true := (canon_iff_toNat va).2 (.inl (by omega))
  have hcache : (s.afterBoot rest).cache = [] := ite_self _
  have hholds : (s.afterBoot rest).holds (ramSlot s.platform) (pteWord Config.ramBase s.platform.ramFlags) := by
    obtain ⟨hlow, hhigh, _⟩ := slotAddr_bounds hroot Config.ramBase .l2
    exact ⟨allPopulated_byte (k := 0) (allPopulated_sub ha hlow hhigh) (by decide),
      memRead8_bootMem_ramSlot s.mem hroot hne⟩
  rw [← hslot] at hholds
  obtain ⟨u, hu, hresp, _⟩ := xlateThroughALevel2Leaf 0#2 va _ (s.afterBoot rest) (by decide) (fun _ => hcanon)
    (pcrMode_bootPcr s.platform) hcache hholds (by rwa [isLeaf_pteWord])
  refine ⟨u, hu, hresp.trans ?_⟩
  have hsum : (pteAddr (pteWord Config.ramBase s.platform.ramFlags)).toNat + va.toNat % 2 ^ 30 = va.toNat := by
    rw [pteAddr_pteWord _ frameOk_ramBase, show Config.ramBase.toNat = 0x80000000 from rfl]
    omega
  rw [hsum, BitVec.ofNat_toNat, BitVec.setWidth_eq]

end Sys2Proof.Machine

/-! PROOFS. The statements of spec/60_exceptions.md: what a failed operation leaves alone (R212), the operations that
end only with `OK` (R211), and when a run has gone wrong (R213). Whether a state is sound depends on its response and on
the outcome of its last `MAP` alone: a command writes the first and a `MAP` the second (`issue_frame`, `mapCall_frame`). -/

namespace Sys2Proof.Machine

/-! ### A failed operation (R212) -/

/-- The response that `exec_answered` speaks of is the one the next state holds. -/
theorem exec_failed_res {i : Instr} {s t : State} {r : Response} (h : exec i s = .next t) (hr : t.resp = some r)
    (hst : r.st ≠ .ok) : r.res = 0#64 := by
  obtain ⟨u, hu, q, hq, _, hres⟩ := exec_answered s i
  obtain rfl : t = u := Host.Outcome.next.inj (h.symm.trans hu)
  obtain rfl : r = q := Option.some.inj (hr.symm.trans hq)
  exact hres hst

theorem st_of_answer_resp {s : State} {v : Word} {r : Response} (h : (s.answer v).resp = some r) : r.st = .ok := by
  rw [answer_resp, Option.some.injEq] at h
  rw [← h]

/-- A translation fills the cache only where it answers `OK`; one that fails has evicted at most (R165, R166). -/
theorem translate_failed_tlb {s : State} {ch : Choice} {va : Word} {r : Response} {f : CacheEntry}
    (hr : (s.translate ch va).resp = some r) (hst : r.st ≠ .ok) (hf : f ∈ (s.translate ch va).tlb) :
    f ∈ s.tlb := by
  rcases translate_cases s ch va with ⟨e, _, _, ht⟩ | ⟨l, e, _, ht⟩ | ⟨_, ht⟩
  · rw [ht, answer_tlb] at hf
    exact mem_evict_tlb hf
  · rw [ht] at hr
    exact absurd (st_of_answer_resp hr) hst
  · rw [ht, answerWalk_tlb] at hf
    exact mem_evict_tlb hf

theorem xlate_failed_tlb {s : State} {ch : Choice} {sel : BitVec 2} {a : Word} {r : Response} {f : CacheEntry}
    (hr : (s.xlate ch sel a).resp = some r) (hst : r.st ≠ .ok) (hf : f ∈ (s.xlate ch sel a).tlb) : f ∈ s.tlb := by
  rcases xlate_cases s ch sel a with ⟨st, _, ht⟩ | ⟨va, _, _, ht⟩ | ⟨va, _, _, ht⟩
  · rwa [ht] at hf
  · rwa [ht] at hf
  · rw [ht] at hr hf
    exact translate_failed_tlb hr hst hf

/-- Settles O14: of the operations that write the block's state, an accepted `PCR.SET` and `TLB.FLUSH` answer `OK`, and
`XLATE` writes the cache only. -/
theorem failedOperationChangesNoBlockState : Obligations.FailedOperationChangesNoBlockState := by
  intro i s t r h hr hst
  refine ⟨exec_failed_res h hr hst, ?_⟩
  rcases exec_cases h with ht | ⟨sel, a, rfl, rfl⟩ | ⟨a, rfl, _, rfl⟩ | ⟨rfl, rfl⟩
  · rw [ht]
    exact ⟨rfl, rfl, fun _ he => he, fun _ => rfl⟩
  · rw [tick_resp] at hr
    refine ⟨?_, ?_, fun e he => xlate_failed_tlb hr hst he, fun hx => absurd rfl (hx sel a)⟩
    · rw [tick_pcr, xlate_frame]
    · rw [tick_mem, xlate_frame]
  · exact absurd (st_of_answer_resp hr) hst
  · exact absurd (st_of_answer_resp hr) hst

/-! ### Sound states and safe runs (R213) -/

theorem wentWrong_iff (st : Status) : wentWrong st = true ↔ st = .contractViolation ∨ st = .illegalCommand := by
  cases st <;> decide

section
variable {s t u : State} {r : Response}

/-- What `State.sound` asks of a port, said of the response that stands there. -/
theorem not_wentWrong_of_eq_some {port : Option Response} (hr : port = some r) (hw : wentWrong r.st = false) :
    ∀ q, port = some q → wentWrong q.st = false := by
  intro q hq
  obtain rfl : r = q := Option.some.inj (hr.symm.trans hq)
  exact hw

theorem not_sound_of_wentWrong (hr : t.resp = some r ∨ t.hostResp = some r) (hw : wentWrong r.st = true) :
    ¬ t.sound := by
  rintro ⟨hblock, hmap⟩
  rcases hr with hr | hr
  · simp [hblock r hr] at hw
  · simp [hmap r hr] at hw

theorem SafeRun.sound {k : Nat} (h : SafeRun k s) : s.sound := by
  cases k with
  | zero => exact h
  | succ k => exact h.1

/-- A step is a function, so a run that starts with it passes through the state it answers. -/
theorem not_safeRun_of_step {k : Nat} (h : step s = .next t) (ht : ¬ t.sound) : ¬ SafeRun (k + 1) s := by
  rintro ⟨_, t', h', hrun⟩
  obtain rfl : t = t' := Host.Outcome.next.inj (h.symm.trans h')
  exact ht hrun.sound

/-- A command leaves the outcome of the last `MAP` as it was, so its own response decides. -/
theorem issue_sound {c : Command} (h : issue c s = .next t) (hs : s.sound) (hr : t.resp = some r)
    (hw : wentWrong r.st = false) : t.sound := by
  obtain ⟨_, hmap⟩ := hs
  refine ⟨not_wentWrong_of_eq_some hr hw, ?_⟩
  rw [issue_frame h]
  exact hmap

/-- The step of a `MAP` keeps its outcome (log 25). -/
theorem step_map {root page frame : Word} {flags : FlagByte} {level : Level} {al : Nat} {rest : List HostAction}
    (hh : s.halted = false) (hp : s.program = .map root page frame flags level al :: rest)
    (h : mapCall (Config.keepsOrphans s.draws) root page frame flags level al { s with program := rest } =
      .ok (r, u)) :
    step s = .next { u with hostResp := some r, draws := s.draws + 1 } := by
  rw [step_action hh hp]
  exact ofHost_next.2 (runMap_of_mapCall (s := { s with program := rest }) h)

/-- `CONTRACT_VIOLATION` is the only outcome of a `MAP` that means the run has gone wrong (R184, R185). -/
theorem wentWrong_mapCall {keep : Bool} {root page frame : Word} {flags : FlagByte} {level : Level} {al : Nat}
    (h : mapCall keep root page frame flags level al s = .ok (r, u)) :
    wentWrong r.st = true ↔ r.st = .contractViolation := by
  obtain ⟨_, _, hd⟩ := mapCall_ok h
  have hne : r.st ≠ .illegalCommand := fun he => by simpa [he] using mapDown_status hd
  rw [wentWrong_iff, or_iff_left hne]

end

/-- Settles O60: a violation makes the state after the step unsound, and every run of a step or more passes through that
state; with any other status, the field that the action leaves alone keeps its part of soundness. -/
theorem violationsEndASafeRun : Obligations.ViolationsEndASafeRun := by
  refine ⟨fun k s t r h hr hst => not_safeRun_of_step h (not_sound_of_wentWrong hr ((wentWrong_iff _).2 hst)),
    fun s t c rest r hh hp hs h hr hst => ?_,
    fun k s u root page frame flags level al rest r hh hp hm => ⟨fun hst => ?_, fun hst hs => ?_⟩⟩
  · rw [step_action hh hp] at h
    have hw : wentWrong r.st = false := by rcases hst with hst | hst | hst <;> rw [hst] <;> rfl
    exact issue_sound (s := { s with program := rest }) h hs hr hw
  · exact not_safeRun_of_step (step_map hh hp hm) (not_sound_of_wentWrong (.inr rfl) ((wentWrong_mapCall hm).2 hst))
  · refine ⟨_, step_map hh hp hm, rfl, ?_, not_wentWrong_of_eq_some rfl ?_⟩
    · rw [mapCall_frame hm]
      exact hs.1
    · exact Bool.eq_false_iff.2 (mt (wentWrong_mapCall hm).1 hst)

/-! ### The operations that end only with `OK` (R211) -/

/-- Settles O11: each of the fifteen ends in `answer`, fourteen on the state itself and `TLB.FLUSH` on the flushed one;
the outcome of the last `MAP` is the same in both. -/
theorem operationsThatEndOnlyWithOk : Obligations.OperationsThatEndOnlyWithOk := by
  intro i s hi
  suffices h : ∃ (u : State) (v : Word), exec i s = .next (u.answer v) ∧ u.hostResp = s.hostResp by
    obtain ⟨u, v, he, hu⟩ := h
    exact ⟨_, v, he, rfl, fun hs => ⟨not_wentWrong_of_eq_some (answer_resp u v) rfl, by rwa [answer_hostResp, hu]⟩⟩
  cases i with
  | vaTrunc a | vaUnsafe a | vaVpn2 a | vaVpn1 a | vaVpn0 a | vaOff a | pteAddr a | pteFlags a | pteSetUnused a
  | pteIsValid a | pteIsLeaf a | pteSetFlags flags a | pteNew | pcrRead =>
    exact ⟨s, _, rfl, rfl⟩
  | tlbFlush => exact ⟨s.flush, _, rfl, rfl⟩
  | vaTry a | pcrSet a | pteSet flags a | pteCheck sel a | ptRead a b | walk sel a b | xlate sel a =>
    simp [Instr.mnemonic] at hi

end Sys2Proof.Machine

/-! PROOFS. The statement of spec/70_reset_and_hazards.md about a reset later than the first: as an action of the host
(log 11) it applies `State.resetBlock` to the state whose program is the remaining actions (R240). -/

namespace Sys2Proof.Machine

/-- The step of a later reset of the block. -/
theorem step_reset {s : State} {rest : List HostAction} (hh : s.halted = false) (hp : s.program = .reset :: rest) :
    step s = .next { s with program := rest }.resetBlock := by
  rw [step_action hh hp]
  rfl

/-- R34: the cache after the block's reset holds well-formed entries, whatever it held before. -/
theorem resetBlock_tlb_wf (s : State) : cacheWf s.resetBlock.tlb := by
  rw [resetBlock_tlb]
  exact resetTlb_wf _ _

/-- R34: without `TLB_PRESENT` it holds none. -/
theorem resetBlock_tlb_absent {s : State} (h : s.platform.tlbPresent = false) : s.resetBlock.tlb = [] := by
  rw [resetBlock_tlb]
  exact resetTlb_absent h _

/-- Settles O44: the step is `resetBlock` (`step_reset`), its cache is the reset cache, and it writes no other field but
`PCR`, the response and the counter of choices. -/
theorem blockResetAction : Obligations.BlockResetAction := by
  intro s rest hh hp
  exact ⟨_, step_reset hh hp, rfl, resetBlock_tlb_wf _, fun ha => resetBlock_tlb_absent ha,
    rfl, rfl, rfl, rfl, rfl, rfl, rfl, rfl, rfl, rfl⟩

end Sys2Proof.Machine
